-- ==== Sys2Proof/Word.lean ====
section
/-! DEFINITION. The words of the RoQ frame reconstructor (spec/00_scope.md R7, R8). -/

namespace Sys2Proof

/-- A byte of the stream or of a payload. -/
abbrev Byte := BitVec 8

/-- A 16-bit field (a chunk id or argument, a mode word) or a 16-bit signed sample (R8 `u16`, `i16`). -/
abbrev Half := BitVec 16

/-- A 32-bit field (a chunk size). -/
abbrev Word := BitVec 32

/-- One output pixel. `PW` is 16 or 32 bits by `PIXFMT` (R5); a `BGR565` pixel is held in the low 16 bits with
the high 16 bits zero (log 5). -/
abbrev Pixel := BitVec 32

end Sys2Proof
end

