-- ==== Sys2Proof/Config.lean ====
section
/-! DEFINITION. The parameters of one decoder instance (spec/00_scope.md R5), the byte source the host supplies
(spec/20_memory.md R51, R52), and the free values. -/

namespace Sys2Proof

/-- `PIXFMT`, the output pixel format: the set is closed (R5, R6). -/
inductive PixFmt
  | bgr565
  | rgba8888
  deriving DecidableEq, Repr

/-- `CSC`, the colourspace conversion: OPEN, any total function of Y, Cb, Cr and A (R5, R110, R116, D4). `cscDefault` is
`CSC_DEFAULT` of R113; `other k` is the `k`-th of the uninterpreted conversions `Config.cscOther`. -/
inductive Csc
  | cscDefault
  | other (k : Nat)
  deriving DecidableEq, Repr

/-- `ACC_OVERFLOW`, what the 16-bit accumulator does on overflow: OPEN (R5, R163, D9). -/
inductive AccOverflow
  | wrap
  | saturate
  | fault
  deriving DecidableEq, Repr

/-- `MONO_SEED`, the mono seed as a function of the chunk argument: OPEN (R5, R165, D10). -/
inductive MonoSeed
  | lowByteShifted
  | wholeArg
  deriving DecidableEq, Repr

/-- The parameters of R5 that are arguments of the model, fixed for the lifetime of one instance. -/
structure Params where
  pixFmt      : PixFmt
  csc         : Csc
  streamMagic : Half
  hdrPad      : Nat
  accOverflow : AccOverflow
  monoSeed    : MonoSeed
  deriving DecidableEq, Repr

/-- The defaults of R5. R5 gives `PIXFMT` no default: `rgba8888` here is DESIGN CHOICE, log 3. -/
def Params.default : Params where
  pixFmt      := .rgba8888
  csc         := .cscDefault
  streamMagic := 0x1084#16
  hdrPad      := 4
  accOverflow := .wrap
  monoSeed    := .lowByteShifted

/-- What the byte source does with one read request (R52, U16): serve it from `SRC`, report a failure, or never
answer. -/
inductive SrcAnswer
  | serve
  | fail
  | hang
  deriving DecidableEq, Repr

/-- The byte source the host hands over with `OPEN`: the finite bytes `SRC` (R51), and what the source does with
each read request to come, first request first; a request beyond the list is served (log 10). -/
structure ByteSource where
  bytes   : List Byte
  answers : List SrcAnswer
  deriving DecidableEq, Repr

/-- Free value: the (R, G, B, A) that the `k`-th conversion other than `CSC_DEFAULT` gives for (Y, Cb, Cr, A): D4 asks of it
nothing but that it is a total function. Log 4. -/
opaque Config.cscOther : Nat → Byte → Byte → Byte → Byte → Byte × Byte × Byte × Byte

/-- Free value: the seed of `ACC[1]` at the start of a mono sound chunk with the given mono seed. R34 and R211 seed both accumulators
from `CH_ARG` at the start of every sound chunk; no rule states the value for `ACC[1]` of a mono chunk. Log 27. -/
opaque Config.monoRightSeed : Half → Half

/-- Free value: `SPOS` after the `k`-th `Short` read (R52 "SPOS afterwards unspecified", U14 "any value"). Log 8. -/
opaque Config.sposAfterShort : Nat → Nat

end Sys2Proof
end

