-- ==== Sys2Proof/Syntax.lean ====
section
/-! DEFINITION. The commands of the block, one constructor per row of spec/opcode_table.json. -/

namespace Sys2Proof

/-- The commands at all levels (R70, R170). A chunk carries its header's argument and its payload; its `size` field is the
payload's length. The eight block modes are eight constructors (R152). -/
inductive Instr
  /-- SIG, the stream header read by `OPEN` (R71, R171). -/
  | sig (signature : Half) (pad : List Byte) (framerate : Half)
  /-- INFO, chunk 0x1001 (R74, R174). -/
  | info (arg : Half) (payload : List Byte)
  /-- CODEBOOK, chunk 0x1002 (R75, R120). -/
  | codebook (arg : Half) (payload : List Byte)
  /-- FRAME, chunk 0x1011 (R78, R130). -/
  | frame (arg : Half) (payload : List Byte)
  /-- SND_MONO, chunk 0x1020 (R83, R161). -/
  | sndMono (arg : Half) (payload : List Byte)
  /-- SND_STEREO, chunk 0x1021 (R84, R162). -/
  | sndStereo (arg : Half) (payload : List Byte)
  /-- CUSTOM, any other chunk id (R85, R175). -/
  | custom (id arg : Half) (payload : List Byte)
  /-- MOT at depth 8×8 (R139). -/
  | mot8
  /-- FCC at depth 8×8, one MOTION byte (R82, R140). -/
  | fcc8 (b : Byte)
  /-- SDL at depth 8×8, one index byte into `CB4` (R141). -/
  | sdl8 (c : Byte)
  /-- CCC at depth 8×8: four depth-4×4 commands follow (R142). -/
  | ccc8
  /-- MOT at depth 4×4 (R143). -/
  | mot4
  /-- FCC at depth 4×4, one MOTION byte (R82, R144). -/
  | fcc4 (b : Byte)
  /-- SDL at depth 4×4, one index byte into `CB4` (R145). -/
  | sdl4 (c : Byte)
  /-- CCC at depth 4×4, four index bytes into `CB2` in quadrant order (R146). -/
  | ccc4 (i0 i1 i2 i3 : Byte)
  /-- OPEN, host command (R171). -/
  | hostOpen (source : ByteSource)
  /-- NEXT, host command (R172). -/
  | hostNext
  /-- DROP, host command (R178). -/
  | hostDrop
  deriving DecidableEq, Repr

end Sys2Proof
end

