-- ==== Sys2Proof/Machine/State.lean ====
section
/-! DEFINITION. The state of one decoder instance (spec/10_state.md), why a step can stop, and the state after reset. -/

namespace Sys2Proof.Machine

/-- A pixel memory: the elements that differ from `DEFAULT_PIXEL`, as (offset, pixel) pairs with strictly rising
offsets. Offsets count pixels, not bytes (R9, R59). Log 6. -/
abbrev PixMem := List (Nat × Pixel)

/-- `ST`, the sequencer state (R21). -/
inductive SeqState
  | uninit
  | playing
  | finished
  | fault
  deriving DecidableEq, Repr

/-- The block a FRAME pass has reached: macroblock row and column, block index in the macroblock (the loop variables
`my`, `mx`, `b` of R130). -/
structure BlockPos where
  my : Nat
  mx : Nat
  b  : Fin 4
  deriving DecidableEq, Repr

/-- MODEL's own (log 1): the point of a host command at which the block stands. -/
inductive Ctl
  /-- Between host commands (R206). -/
  | idle
  /-- Inside `OPEN`, the stream header not yet read (R171). -/
  | header
  /-- Inside `NEXT`, at the top of its loop (R172). -/
  | fetch
  /-- Inside a FRAME pass, before the mode of this block is fetched, or past the last macroblock (R130, R138). -/
  | block (p : BlockPos)
  /-- Inside CCC8 of this block, before the mode of sub-block `q` is fetched (R142). -/
  | sub (p : BlockPos) (q : Fin 4)
  /-- The instance is gone (R43, R178). -/
  | dropped
  deriving DecidableEq, Repr

/-- A command of the host (R170). -/
inductive HostCmd
  | openSource (source : ByteSource)
  | next
  | drop
  deriving DecidableEq, Repr

/-- A fault of the block with what it records (R190, R195). It is taken as a next state (R194); it is not the model's
`Fault`. -/
inductive Cause
  /-- `ParseError(BAD_MAGIC)`, with the signature read (R171). -/
  | badMagic (signature : Half)
  /-- `IOError(OPEN_READ)` (R171). -/
  | openRead
  /-- `IOError(HEADER_READ)` (R100). -/
  | headerRead
  /-- `IOError(PAYLOAD_READ)`, with `CH_ID`, `CH_SIZE` (R102). -/
  | payloadRead (id : Half) (size : Word)
  /-- `IOError(PAYLOAD_UNDERRUN)`, with `CH_ID`, `PPOS` (R54). -/
  | payloadUnderrun (id : Half) (ppos : Nat)
  /-- `ContractViolation(FRAME_BEFORE_INFO)` (R131). -/
  | frameBeforeInfo
  /-- `ContractViolation(ACC_OVERFLOW)`, with channel and sample index (R163). -/
  | accOverflow (channel sample : Nat)
  deriving DecidableEq, Repr

/-- The events of R179 with what each carries. `video` names the buffer and holds its pixels as they stand when the event
is emitted (R223; log 18). -/
inductive Event
  | initVideo (width height : Half) (hasAlpha : Bool)
  | video (buffer : Fin 2) (pixels : PixMem)
  | audio (channels : BitVec 2) (samples : List Half)
  | custom (id arg : Half) (payload : List Byte)
  | endOfFile
  deriving DecidableEq, Repr

/-- What a host command hands back (R185): success of `OPEN`, one event of `NEXT`, or a fault. -/
inductive Result
  | opened
  | event (e : Event)
  | fault (c : Cause)
  deriving DecidableEq, Repr

/-- The records of `LOG` (R200). -/
inductive LogRec
  | oobMotion (n px py : Nat) (dx dy : Int)
  | unknownChunk (id arg : Half) (size : Word)
  deriving DecidableEq, Repr

/-- The complete state: the list of R20, the parameters of the instance and of the run (R5, R12), and the model's own
fields. -/
structure State where
  -- parameters of the instance (R5) and of the run (R51, R52): not state by R12, held here because a step has no other argument
  params    : Params
  src       : List Byte
  srcAns    : List SrcAnswer
  -- the model's own: control point, host commands to come, results handed back, counter of free values
  ctl       : Ctl
  host      : List HostCmd
  results   : List Result
  freeCtr   : Nat
  -- sequencer and fetch registers (R21 to R25)
  st        : SeqState
  spos      : Nat
  chId      : Half
  chSize    : Word
  chArg     : Half
  pay       : List Byte
  ppos      : Nat
  framerate : Half
  -- video configuration and frame counter (R26 to R28)
  width     : Half
  height    : Half
  dimValid  : Bool
  hasAlpha  : Bool
  frameCnt  : Nat
  -- codebook tables and frame buffers (R29 to R31)
  cb2       : PixMem
  cb4       : PixMem
  fb0       : PixMem
  fb1       : PixMem
  -- per-pass video registers (R32, R33)
  mbWord    : Half
  mbLeft    : BitVec 4
  argX      : BitVec 8
  argY      : BitVec 8
  -- audio registers (R34, R35)
  acc0      : Half
  acc1      : Half
  audBuf    : List Half
  audLen    : Nat
  audCh     : BitVec 2
  -- fault record and diagnostics (R37, R38)
  faultCode : BitVec 2
  faultInfo : BitVec 4
  log       : List LogRec
  deriving DecidableEq, Repr

/-- Why the machine has no next state. The faults the spec describes are next states (R194) and are not here. -/
inductive Fault
  /-- A read of the byte source is never answered. Raised by `SrcRead`; U16 calls it stuck. Safe. -/
  | sourceNeverAnswers
  /-- A block mode whose block is not inside the frame, so that it would touch frame-buffer elements that do not exist
  (R55). Raised by the eight block modes, in states no run reaches. Safe. -/
  | blockOutsideFrame
  deriving DecidableEq, Repr

/-- Why the machine gives a command no meaning. -/
inductive Refusal
  /-- The instruction has no meaning in this model yet. Raised by an arm of `exec` only. Safe. -/
  | notModelled (mnemonic : String)
  /-- `NEXT` while `ST` is not `PLAYING` (R182, U1). Raised by `NEXT`. Safe. -/
  | nextOutsidePlaying
  /-- `OPEN` while `ST` is not `UNINIT` (R182, U13). Raised by `OPEN`. Safe. -/
  | openOutsideUninit
  /-- An INFO chunk while `DIM_VALID` = 1 (R174, U2). Raised by INFO. Safe. -/
  | secondInfo
  /-- An INFO chunk whose width or height is zero or not a multiple of 16 (R174, U3). Raised by INFO. Safe. -/
  | illegalDimensions
  /-- A host command on an instance that `DROP` has ended (R178, R185). Raised by the host commands. Safe. -/
  | instanceDropped
  /-- A host command while another runs (R220). Raised by the host commands, in states where no step runs one. Safe. -/
  | commandsOverlap
  /-- A block mode outside a FRAME pass, or at the other depth (R70). Raised by the eight block modes, in states where no
  step runs one. Safe. -/
  | noBlockSelected
  deriving DecidableEq, Repr

/-- The state of an instance with parameters `p` right after its creation (R42, R210). The registers R42 calls unspecified
are zero: DESIGN CHOICE, log 7. -/
def State.resetWith (p : Params) : State where
  params    := p
  src       := []
  srcAns    := []
  ctl       := .idle
  host      := []
  results   := []
  freeCtr   := 0
  st        := .uninit
  spos      := 0
  chId      := 0
  chSize    := 0
  chArg     := 0
  pay       := []
  ppos      := 0
  framerate := 0
  width     := 0
  height    := 0
  dimValid  := false
  hasAlpha  := false
  frameCnt  := 0
  cb2       := []
  cb4       := []
  fb0       := []
  fb1       := []
  mbWord    := 0
  mbLeft    := 0
  argX      := 0
  argY      := 0
  acc0      := 0
  acc1      := 0
  audBuf    := []
  audLen    := 0
  audCh     := 0
  faultCode := 0
  faultInfo := 0
  log       := []

/-- The machine right after reset, with the default parameters of R5 (log 3). -/
def State.reset : State := State.resetWith Params.default

end Sys2Proof.Machine
end

