-- ==== Sys2Proof/Machine/Flags.lean ====
section
/-! DEFINITION. The status flags and their codes, and the overflow of the audio accumulator. The block has no arithmetic
condition codes: no carry, zero, sign or overflow flag (spec/10_state.md R39). -/

namespace Sys2Proof.Machine

/-- The two-bit code of `ST` (R40). -/
def SeqState.code : SeqState → BitVec 2
  | .uninit   => 0#2
  | .playing  => 1#2
  | .finished => 2#2
  | .fault    => 3#2

/-- `VFLAGS`: bit 0 `DIM_VALID`, bit 1 `HAS_ALPHA` (R40). -/
def State.vflags (s : State) : BitVec 2 :=
  (if s.hasAlpha then 2#2 else 0#2) ||| (if s.dimValid then 1#2 else 0#2)

/-- `FAULT_CODE` ≠ 0 (R39). -/
def State.faulted (s : State) : Bool := s.faultCode != 0#2

/-- The alpha flag INFO sets: 1 when its argument is not zero (R27, R74). -/
def alphaFlag (arg : Half) : Bool := arg != 0#16

/-- A width or height this spec defines: a positive multiple of 16 (R26, D16). -/
def legalDimension (v : Half) : Bool := v != 0#16 && v.toNat % 16 == 0

/-- `FAULT_CODE` of a fault (R37, R195). -/
def Cause.code : Cause → BitVec 2
  | .badMagic _          => 1#2
  | .openRead            => 2#2
  | .headerRead          => 2#2
  | .payloadRead _ _     => 2#2
  | .payloadUnderrun _ _ => 2#2
  | .frameBeforeInfo     => 3#2
  | .accOverflow _ _     => 3#2

/-- `FAULT_INFO` of a fault (R195). -/
def Cause.info : Cause → BitVec 4
  | .badMagic _          => 1#4
  | .openRead            => 1#4
  | .headerRead          => 2#4
  | .payloadRead _ _     => 3#4
  | .payloadUnderrun _ _ => 4#4
  | .frameBeforeInfo     => 1#4
  | .accOverflow _ _     => 2#4

/-- The exact sum does not fit 16 signed bits (R163). -/
def accOverflows (sum : Int) : Bool := sum < -32768 || 32767 < sum

/-- `add16`: the accumulator plus a table entry, in the overflow mode of the instance; `none` where the mode is `fault`
and the sum overflows (R163). -/
def add16 (mode : AccOverflow) (acc : Half) (delta : Int) : Option Half :=
  let sum := acc.toInt + delta
  match mode with
  | .wrap     => some (BitVec.ofInt 16 sum)
  | .saturate => some (BitVec.ofInt 16 (max (-32768) (min 32767 sum)))
  | .fault    => if accOverflows sum then none else some (BitVec.ofInt 16 sum)

end Sys2Proof.Machine
end

