-- ==== Sys2Proof/WellFormed.lean ====
section
/-! DEFINITION. Which commands the encodings of spec/30_encoding.md can spell. -/

namespace Sys2Proof

/-- The five recognised chunk ids (R73). -/
def recognisedIds : List Half := [0x1001#16, 0x1002#16, 0x1011#16, 0x1020#16, 0x1021#16]

/-- A payload fits the 32-bit `size` field (R72: 0 to 2^32 - 1). -/
def payloadFits (payload : List Byte) : Bool := decide (payload.length < 2 ^ 32)

/-- Well-formed for the parameters `p`: a stream header has `HDR_PAD` pad bytes (R71), a payload fits its `size`
field (R72), a CUSTOM id is none of the five recognised ones (R73). Every operand value of the block modes is
admitted (R81, R86), and the host commands have no encoding that could restrict them (R170). -/
def Instr.wf (p : Params) : Instr → Bool
  | .sig _ pad _           => pad.length == p.hdrPad
  | .info _ payload        => payloadFits payload
  | .codebook _ payload    => payloadFits payload
  | .frame _ payload       => payloadFits payload
  | .sndMono _ payload     => payloadFits payload
  | .sndStereo _ payload   => payloadFits payload
  | .custom id _ payload   => !(recognisedIds.contains id) && payloadFits payload
  | .mot8 | .fcc8 _ | .sdl8 _ | .ccc8 => true
  | .mot4 | .fcc4 _ | .sdl4 _ | .ccc4 _ _ _ _ => true
  | .hostOpen _ | .hostNext | .hostDrop => true

end Sys2Proof
end

