-- ==== Sys2Proof/Decode.lean ====
section
/-! DEFINITION. Decoding of the stream's commands and the encoder, from the formats HDR, CHUNK, MODEWORD and MOTION of
spec/30_encoding.md (R70 to R90). -/

namespace Sys2Proof

/-- Little-endian 16-bit value of two stream bytes, the lower offset first (R7). -/
def le16 (b0 b1 : Byte) : Half := b1 ++ b0

/-- Little-endian 32-bit value of four stream bytes, the lowest offset first (R7). -/
def le32 (b0 b1 b2 b3 : Byte) : Word := b3 ++ b2 ++ b1 ++ b0

/-- Byte `k` of a value, byte 0 the least significant (R7). -/
def byteAt {w : Nat} (v : BitVec w) (k : Nat) : Byte := v.extractLsb' (8 * k) 8

/-- The low and the high byte of a 16-bit field (R7 `arg[7:0]`, `arg[15:8]`). -/
def lowByte (v : Half) : Byte := byteAt v 0
def highByte (v : Half) : Byte := byteAt v 1

/-- A 16-bit field as its two stream bytes, and a 32-bit field as its four (R58). -/
def bytes16 (v : Half) : List Byte := [byteAt v 0, byteAt v 1]
def bytes32 (v : Word) : List Byte := [byteAt v 0, byteAt v 1, byteAt v 2, byteAt v 3]

/-- The two depths of the block modes (R70, R81). -/
inductive Depth
  | d8
  | d4
  deriving DecidableEq, Repr

/-- Where a command is read: the host's command queue, the stream header, a chunk, a block mode at one of the two
depths. The same two-bit codes mean different commands at the two depths (R81, R152). -/
inductive Level
  | host
  | header
  | chunk
  | block (d : Depth)
  deriving DecidableEq, Repr

/-- A command as it is encoded: whole bytes of `SRC`, or a two-bit mode code with the operand bytes that follow in the
payload (R79 to R81). -/
inductive Encoded
  | stream (bytes : List Byte)
  | mode (code : BitVec 2) (operands : List Byte)
  deriving DecidableEq, Repr

/-- Why bytes are not a whole command. No complete chunk and no mode code is ever illegal (R86). -/
inductive DecodeError
  /-- Fewer bytes than the stream header needs (R71). -/
  | shortStreamHeader
  /-- Fewer than the 8 bytes of a chunk header (R72). -/
  | shortChunkHeader
  /-- Fewer payload bytes than `size` says (R72). -/
  | shortPayload
  /-- Fewer operand bytes than the block mode needs (R81). -/
  | shortOperands
  /-- This level is not encoded so: the host commands have no encoding (R170), modes and bytes do not mix. -/
  | wrongForm
  deriving DecidableEq, Repr

/-- Level-1 opcode map on the full 16 bits of the id (R73). -/
def chunkOf (id arg : Half) (payload : List Byte) : Instr :=
  if id = 0x1001#16 then .info arg payload
  else if id = 0x1002#16 then .codebook arg payload
  else if id = 0x1011#16 then .frame arg payload
  else if id = 0x1020#16 then .sndMono arg payload
  else if id = 0x1021#16 then .sndStereo arg payload
  else .custom id arg payload

/-- The three fields of a chunk header (R72). -/
structure ChunkHeader where
  id   : Half
  size : Word
  arg  : Half
  deriving DecidableEq, Repr

/-- Format CHUNK's header: id, size, argument, each little-endian; the bytes after it come back (R72). -/
def decodeChunkHeader : List Byte → Except DecodeError (ChunkHeader × List Byte)
  | b0 :: b1 :: b2 :: b3 :: b4 :: b5 :: b6 :: b7 :: rest =>
      .ok (⟨le16 b0 b1, le32 b2 b3 b4 b5, le16 b6 b7⟩, rest)
  | _ => .error .shortChunkHeader

/-- Format CHUNK: the header, then exactly `size` payload bytes; the bytes after the chunk come back (R70, R72). -/
def decodeChunk (bytes : List Byte) : Except DecodeError (Instr × List Byte) :=
  match decodeChunkHeader bytes with
  | .error e => .error e
  | .ok (h, rest) =>
      if rest.length < h.size.toNat then .error .shortPayload
      else .ok (chunkOf h.id h.arg (rest.take h.size.toNat), rest.drop h.size.toNat)

/-- Format HDR with `hdrPad` pad bytes: signature, pad, framerate (R71). -/
def decodeStreamHeader (hdrPad : Nat) : List Byte → Except DecodeError (Instr × List Byte)
  | b0 :: b1 :: t =>
      match t.drop hdrPad with
      | f0 :: f1 :: rest => .ok (.sig (le16 b0 b1) (t.take hdrPad) (le16 f0 f1), rest)
      | _ => .error .shortStreamHeader
  | _ => .error .shortStreamHeader

/-- Operand bytes of a block mode: 0, 1, 1, 0 at depth 8×8 and 0, 1, 1, 4 at depth 4×4 (R81, R87). -/
def operandBytes (d : Depth) (code : BitVec 2) : Nat :=
  if code = 0 then 0
  else if code = 1 then 1
  else if code = 2 then 1
  else match d with
    | .d8 => 0
    | .d4 => 4

/-- Level-2 opcode map: the block mode of a code at a depth with its operand bytes; the bytes after them come back
(R81, R82). -/
def decodeMode (d : Depth) (code : BitVec 2) (bytes : List Byte) : Except DecodeError (Instr × List Byte) :=
  if code = 0 then
    match d with
    | .d8 => .ok (.mot8, bytes)
    | .d4 => .ok (.mot4, bytes)
  else if code = 1 then
    match bytes with
    | []        => .error .shortOperands
    | b :: rest =>
        match d with
        | .d8 => .ok (.fcc8 b, rest)
        | .d4 => .ok (.fcc4 b, rest)
  else if code = 2 then
    match bytes with
    | []        => .error .shortOperands
    | c :: rest =>
        match d with
        | .d8 => .ok (.sdl8 c, rest)
        | .d4 => .ok (.sdl4 c, rest)
  else
    match d with
    | .d8 => .ok (.ccc8, bytes)
    | .d4 =>
        match bytes with
        | i0 :: i1 :: i2 :: i3 :: rest => .ok (.ccc4 i0 i1 i2 i3, rest)
        | _ => .error .shortOperands

/-- The decoder: the command at a level, and the bytes after it. Total, and a rejection has a name. -/
def decode (hdrPad : Nat) (lvl : Level) (e : Encoded) : Except DecodeError (Instr × List Byte) :=
  match lvl, e with
  | .header, .stream bytes       => decodeStreamHeader hdrPad bytes
  | .chunk, .stream bytes        => decodeChunk bytes
  | .block d, .mode code operands => decodeMode d code operands
  | _, _ => .error .wrongForm

/-- The level a command is read at (R70, R81, R170). -/
def Instr.level : Instr → Level
  | .sig _ _ _ => .header
  | .info _ _ | .codebook _ _ | .frame _ _ | .sndMono _ _ | .sndStereo _ _ | .custom _ _ _ => .chunk
  | .mot8 | .fcc8 _ | .sdl8 _ | .ccc8 => .block .d8
  | .mot4 | .fcc4 _ | .sdl4 _ | .ccc4 _ _ _ _ => .block .d4
  | .hostOpen _ | .hostNext | .hostDrop => .host

/-- A whole chunk: header, then payload (R72). -/
def encodeChunk (id arg : Half) (payload : List Byte) : List Byte :=
  bytes16 id ++ bytes32 (BitVec.ofNat 32 payload.length) ++ bytes16 arg ++ payload

/-- The encoder. The host commands have no encoding (R170). -/
def encode : Instr → Option Encoded
  | .sig signature pad framerate => some (.stream (bytes16 signature ++ pad ++ bytes16 framerate))
  | .info arg payload      => some (.stream (encodeChunk 0x1001#16 arg payload))
  | .codebook arg payload  => some (.stream (encodeChunk 0x1002#16 arg payload))
  | .frame arg payload     => some (.stream (encodeChunk 0x1011#16 arg payload))
  | .sndMono arg payload   => some (.stream (encodeChunk 0x1020#16 arg payload))
  | .sndStereo arg payload => some (.stream (encodeChunk 0x1021#16 arg payload))
  | .custom id arg payload => some (.stream (encodeChunk id arg payload))
  | .mot8   => some (.mode 0#2 [])
  | .fcc8 b => some (.mode 1#2 [b])
  | .sdl8 c => some (.mode 2#2 [c])
  | .ccc8   => some (.mode 3#2 [])
  | .mot4   => some (.mode 0#2 [])
  | .fcc4 b => some (.mode 1#2 [b])
  | .sdl4 c => some (.mode 2#2 [c])
  | .ccc4 i0 i1 i2 i3 => some (.mode 3#2 [i0, i1, i2, i3])
  | .hostOpen _ | .hostNext | .hostDrop => none

/-- An encoded command with the bytes that stand after it. -/
def Encoded.followedBy : Encoded → List Byte → Encoded
  | .stream bytes, rest      => .stream (bytes ++ rest)
  | .mode code operands, rest => .mode code (operands ++ rest)

/-- The first `n` bytes of a table word, bit 0 of the word the least significant bit of the first byte. -/
def tableBytes (w : Nat) : Nat → List Byte
  | 0     => []
  | n + 1 => BitVec.ofNat 8 w :: tableBytes (w / 256) n

/-- The stream header whose bytes a table word spells, every bit above the word zero. -/
def tableStreamHeader (hdrPad w : Nat) : List Byte := tableBytes w (4 + hdrPad)

/-- The chunk whose header bytes a table word spells; its payload bytes, if the word gives it a size, are zero. -/
def tableChunk (w : Nat) : List Byte := tableBytes w 8 ++ List.replicate (w / 2 ^ 16 % 2 ^ 32) 0#8

/-- The word of an opcode-table row as this decoder reads it. A row of one byte is a block-mode code, read at depth
8×8 with operand bytes of zero: the table gives the rows of the two depths the same words, so the depth-4×4 rows
cannot be told from a word alone (log 19). A wider word is the stream header where its first 16 bits are the default
`STREAM_MAGIC`, else a chunk. -/
def decodeTableWord (nbits w : Nat) : Option Instr :=
  let v := w % 2 ^ nbits
  let r :=
    if nbits ≤ 8 then decodeMode .d8 (BitVec.ofNat 2 v) (List.replicate 4 0#8)
    else if BitVec.ofNat 16 v = Params.default.streamMagic then
      decodeStreamHeader Params.default.hdrPad (tableStreamHeader Params.default.hdrPad v)
    else decodeChunk (tableChunk v)
  match r with
  | .ok (i, _) => some i
  | .error _   => none

end Sys2Proof
end

