-- ==== Sys2Proof/Machine/Operands.lean ====
section
/-! DEFINITION. The operand forms: counts, base offset, motion vector, mode codes, audio seeds and the delta table
(spec/30_encoding.md section 5, R121, R134, R136, R147, R160, R165). -/

namespace Sys2Proof.Machine

/-- 2×2-cell count: the high byte of the argument, 0 meaning 256 (R75, R121). -/
def count2 (arg : Half) : Nat :=
  if highByte arg = 0#8 then 256 else (highByte arg).toNat

/-- Bytes of one CELL2 record: 10 with alpha, 6 without (R76, R121). -/
def bytesPerCell2 (hasAlpha : Bool) : Nat := if hasAlpha then 10 else 6

/-- 4×4-cell count: the low byte of the argument; where that is 0, 256 if the size exceeds what the 2×2 cells take, else 0
(R75, R121). -/
def count4 (arg : Half) (size : Word) (hasAlpha : Bool) : Nat :=
  if lowByte arg ≠ 0#8 then (lowByte arg).toNat
  else if size.toNat > count2 arg * bytesPerCell2 hasAlpha then 256 else 0

/-- `ARG_X`, the high byte of a FRAME argument, and `ARG_Y`, the low byte, both read as signed (R78, R134). -/
def baseX (arg : Half) : BitVec 8 := highByte arg
def baseY (arg : Half) : BitVec 8 := lowByte arg

/-- Motion component along x: 8 minus the high nibble minus the signed base offset (R82, R147). -/
def motionX (b : Byte) (argX : BitVec 8) : Int :=
  8 - ((b.extractLsb' 4 4).toNat : Int) - argX.toInt

/-- Motion component along y: 8 minus the low nibble minus the signed base offset (R82, R147). -/
def motionY (b : Byte) (argY : BitVec 8) : Int :=
  8 - ((b.extractLsb' 0 4).toNat : Int) - argY.toInt

/-- The mode code taken when `left` codes remain in `word` after it (R80, R136): `(MB_WORD >> (2*MB_LEFT)) & 3`. -/
def modeCode (word : Half) (left : BitVec 4) : BitVec 2 :=
  (word >>> (2 * left.toNat)).extractLsb' 0 2

/-- An audio seed byte shifted into the high byte of the accumulator (R84, R165). -/
def seedOfByte (b : Byte) : Half := b ++ 0#8

/-- `MONO_SEED` of the argument (R5, R83, R165). -/
def monoSeed (form : MonoSeed) (arg : Half) : Half :=
  match form with
  | .lowByteShifted => seedOfByte (lowByte arg)
  | .wholeArg       => arg

/-- `SQUARE_LUT`: the low seven bits squared, negative for indices from 128 (R36, R160). -/
def squareLut (i : Byte) : Int :=
  if i.toNat < 128 then (i.toNat : Int) * i.toNat
  else -(((i.toNat : Int) - 128) * ((i.toNat : Int) - 128))

/-- Column of quadrant or pixel index `q` (its bit 0) and row (its bit 1) (R10). -/
def quadCol (q : Nat) : Nat := q % 2
def quadRow (q : Nat) : Nat := q / 2

/-- Top-left pixel of a block: 16 pixels a macroblock, 8 a block (R130, R137). -/
def BlockPos.x (p : BlockPos) : Nat := p.mx * 16 + quadCol p.b.val * 8
def BlockPos.y (p : BlockPos) : Nat := p.my * 16 + quadRow p.b.val * 8

/-- Top-left pixel of sub-block `q` of a block (R142). -/
def BlockPos.subX (p : BlockPos) (q : Fin 4) : Nat := p.x + quadCol q.val * 4
def BlockPos.subY (p : BlockPos) (q : Fin 4) : Nat := p.y + quadRow q.val * 4

/-- The block after this one in a frame `width` pixels wide: the other blocks of the macroblock, then the macroblocks left
to right and top to bottom (R130, R137). -/
def BlockPos.next (p : BlockPos) (width : Nat) : BlockPos :=
  if p.b.val < 3 then ⟨p.my, p.mx, p.b + 1⟩
  else if p.mx + 1 < width / 16 then ⟨p.my, p.mx + 1, 0⟩
  else ⟨p.my + 1, 0, 0⟩

end Sys2Proof.Machine
end

