-- ==== Sys2Proof/Machine/Ops.lean ====
section
/-! DEFINITION. The named operations over memory and registers: pixel memories, the two reads `SrcRead` and `PayRead`,
taking a fault, ending a command with an event (spec/00_scope.md R9, spec/20_memory.md, spec/60_exceptions.md R194). -/

namespace Sys2Proof.Machine

/-! ## Pixel memories -/

/-- `DEFAULT_PIXEL`: all bits zero in both formats (R114). It is what an unlisted element reads as. -/
def defaultPixel : Pixel := 0#32

/-- Read of one element (R55, R56). -/
def PixMem.read : PixMem → Nat → Pixel
  | [], _ => defaultPixel
  | (b, w) :: t, a => if a = b then w else PixMem.read t a

/-- Puts an entry before the first one with a larger offset. -/
def PixMem.insert (a : Nat) (v : Pixel) : PixMem → PixMem
  | [] => [(a, v)]
  | (b, w) :: t => if a < b then (a, v) :: (b, w) :: t else (b, w) :: PixMem.insert a v t

/-- Takes out what is listed at one offset. -/
def PixMem.erase (m : PixMem) (a : Nat) : PixMem := m.filter fun e => e.1 != a

/-- Write of one element; writing `DEFAULT_PIXEL` takes the entry out (log 6). -/
def PixMem.write (m : PixMem) (a : Nat) (v : Pixel) : PixMem :=
  if v = defaultPixel then m.erase a else (m.erase a).insert a v

/-- Writes `f 0 .. f (n-1)` at offsets `a .. a+n-1`, in that order. -/
def PixMem.writeRow (m : PixMem) (a : Nat) (f : Nat → Pixel) : Nat → PixMem
  | 0 => m
  | n + 1 => (PixMem.writeRow m a f n).write (a + n) (f n)

/-- Writes the first `h` rows of `n` elements: `f j i` to column `x + i` of row `y + j`, the rows `stride` elements
apart (R55). -/
def PixMem.writeRows (m : PixMem) (stride x y n : Nat) (f : Nat → Nat → Pixel) : Nat → PixMem
  | 0 => m
  | h + 1 => (PixMem.writeRows m stride x y n f h).writeRow ((y + h) * stride + x) (f h) n

/-- A lane-wise copy into the `n`×`n` square with top-left element (x, y): lane (j, i) takes `f j i`. Every blit of the
block is one of these (spec/42_codebook.md and spec/43_video_frame.md, packed-operation summaries). -/
def PixMem.blit (m : PixMem) (stride x y n : Nat) (f : Nat → Nat → Pixel) : PixMem :=
  m.writeRows stride x y n f n

/-- Copies elements 0 .. n-1 of `src` over those of `dst`, offset for offset (R133). -/
def PixMem.copyFirst (n : Nat) (src dst : PixMem) : PixMem :=
  (src.filter fun e => decide (e.1 < n)) ++ (dst.filter fun e => decide (n ≤ e.1))

/-- The canonical form: offsets strictly rising, no entry equal to `DEFAULT_PIXEL` (log 6). -/
def PixMem.wf : PixMem → Bool
  | [] => true
  | [(_, v)] => v != defaultPixel
  | (a, v) :: (b, w) :: t => v != defaultPixel && decide (a < b) && PixMem.wf ((b, w) :: t)

/-! ## Frame buffers -/

/-- Pixels of one frame buffer: none while `DIM_VALID` = 0, else `WIDTH*HEIGHT` (R31). -/
def State.fbLen (s : State) : Nat := if s.dimValid then s.width.toNat * s.height.toNat else 0

/-- `FB[i]` (R31). -/
def State.fb (s : State) (i : Fin 2) : PixMem := if i = 0 then s.fb0 else s.fb1

/-- `FB[i] <- m`, the other buffer as before. -/
def State.setFb (s : State) (i : Fin 2) (m : PixMem) : State :=
  { s with fb0 := if i = 0 then m else s.fb0, fb1 := if i = 0 then s.fb1 else m }

/-- The current buffer's index, `FRAME_CNT & 1` (R132). -/
def State.cur (s : State) : Fin 2 := if s.frameCnt % 2 = 0 then 0 else 1

/-- The previous buffer's index, `cur ^ 1` (R132). -/
def State.prev (s : State) : Fin 2 := if s.cur = 0 then 1 else 0

/-- Element (column `c`, row `r`) of 2×2 cell `i` (R29, R56). -/
def State.cell2 (s : State) (i : Byte) (r c : Nat) : Pixel := s.cb2.read ((2 * i.toNat + r) * 2 + c)

/-- Element (column `c`, row `r`) of 4×4 cell `i` (R30, R56). -/
def State.cell4 (s : State) (i : Byte) (r c : Nat) : Pixel := s.cb4.read ((4 * i.toNat + r) * 4 + c)

/-- Element (row `r`, column `c`) of the 4×4 square whose quadrant `q` is 2×2 cell `ix q`, the quadrants top-left,
top-right, bottom-left, bottom-right (R123, R146). -/
def State.quadCells (s : State) (ix : Nat → Byte) (r c : Nat) : Pixel :=
  s.cell2 (ix (r / 2 * 2 + c / 2)) (r % 2) (c % 2)

/-- The index byte of quadrant `q` among four (R77, R146). -/
def indexOf (i0 i1 i2 i3 : Byte) (q : Nat) : Byte :=
  if q = 0 then i0 else if q = 1 then i1 else if q = 2 then i2 else i3

/-- Writes an `n`×`n` square of the current buffer at pixel (x, y): pixel (x + i, y + j) takes `f j i` (R55). -/
def State.drawBlock (s : State) (x y n : Nat) (f : Nat → Nat → Pixel) : State :=
  s.setFb s.cur ((s.fb s.cur).blit s.width.toNat x y n f)

/-! ## Results, faults, diagnostics -/

/-- `raise X(info)`: the fault record is written, `ST` becomes `FAULT`, the host command ends and hands the fault to the
host; everything else stays as it is (R194, R198). -/
def takeFault (c : Cause) (s : State) : State :=
  { s with faultCode := c.code, faultInfo := c.info, st := .fault, ctl := .idle,
           results := s.results ++ [.fault c] }

/-- `emit E`: the host command ends and hands event `E` to the host (R9, R172). -/
def emit (e : Event) (s : State) : State :=
  { s with ctl := .idle, results := s.results ++ [.event e] }

/-- `log K`: appends a diagnostic record; execution continues (R9, R200). -/
def logRecord (r : LogRec) (s : State) : State := { s with log := s.log ++ [r] }

/-- The end of the stream: `ST` becomes `FINISHED` and `EndOfFile` is emitted (R176). -/
def endStream (s : State) : State := emit .endOfFile { s with st := .finished }

/-- What a part of a chunk's rule comes to: it goes on with a value, or it raises a fault. The state is the one reached
either way (R198). -/
inductive Res (α : Type) where
  | ok (a : α) (s : State)
  | raised (c : Cause) (s : State)

/-- Goes on with the next part where the first did not raise. -/
def Res.bind {α β : Type} (r : Res α) (k : α → State → Res β) : Res β :=
  match r with
  | .ok a s     => k a s
  | .raised c s => .raised c s

/-- The end of a command: go on as `k` says, or take the fault raised. Both are next states (R194). -/
def Res.settle {α : Type} (r : Res α) (k : α → State → State) : Host.Outcome State Fault Refusal :=
  match r with
  | .ok a s     => .next (k a s)
  | .raised c s => .next (takeFault c s)

/-- `for i in a .. a+n-1: f i`, stopping at the first fault (R9). -/
def forFrom (f : Nat → State → Res Unit) : Nat → Nat → State → Res Unit
  | 0, _, s => .ok () s
  | n + 1, a, s => (f a s).bind fun _ t => forFrom f n (a + 1) t

/-! ## The two reads -/

/-- `PayRead(n)`: the next `n` payload bytes, or `IOError(PAYLOAD_UNDERRUN)` (R54). It also under-runs where `PAY` itself
holds fewer bytes, which no run reaches (log 12). -/
def payRead (n : Nat) (s : State) : Res (List Byte) :=
  if s.ppos + n ≤ s.chSize.toNat ∧ s.ppos + n ≤ s.pay.length then
    .ok ((s.pay.drop s.ppos).take n) { s with ppos := s.ppos + n }
  else .raised (.payloadUnderrun s.chId s.ppos) s

/-- The four answers of `SrcRead` (R52, U16). -/
inductive SrcRead where
  | ok (bytes : List Byte) (s : State)
  | short (s : State)
  | fail (s : State)
  | hang

/-- `SrcRead(n)`: the next `n` bytes of `SRC`, `Short` where they are not there, `Fail` where the source reports a
failure; `SrcRead(0)` asks the source nothing (R52, log 10). After `Short` the position is a free value (log 8). -/
def srcRead (n : Nat) (s : State) : SrcRead :=
  if n = 0 then .ok [] s
  else
    match s.srcAns with
    | .hang :: _ => .hang
    | .fail :: t => .fail { s with srcAns := t }
    | ans =>
        if s.spos + n ≤ s.src.length then
          .ok ((s.src.drop s.spos).take n) { s with srcAns := ans.tail, spos := s.spos + n }
        else
          .short { s with srcAns := ans.tail, spos := Config.sposAfterShort s.freeCtr, freeCtr := s.freeCtr + 1 }

/-! ## Chunks and block modes -/

/-- The chunk latches, written from a chunk header (R23, R100). -/
def latchHeader (id : Half) (size : Word) (arg : Half) (s : State) : State :=
  { s with chId := id, chSize := size, chArg := arg }

/-- What the dispatch of a chunk finds: its header in the latches, its payload in `PAY`, the cursor at 0 (R53, R100). -/
def loadChunk (id arg : Half) (payload : List Byte) (s : State) : State :=
  { latchHeader id (BitVec.ofNat 32 payload.length) arg s with pay := payload, ppos := 0 }

/-- GetMode: refills the cursor where no code is left, then takes the code at its high end (R136). -/
def getMode (s : State) : Res (BitVec 2) :=
  let take (t : State) : Res (BitVec 2) :=
    .ok (modeCode t.mbWord (t.mbLeft - 1)) { t with mbLeft := t.mbLeft - 1 }
  if s.mbLeft = 0 then
    (payRead 2 s).bind fun b t => take { t with mbWord := le16 (b.getD 0 0) (b.getD 1 0), mbLeft := 8 }
  else take s

/-- A command at depth 8×8: at the block the pass has reached, if it lies inside the frame; `k` gets its top-left pixel.
`go` says where the pass goes on (R138). -/
def atBlock8 (s : State) (go : BlockPos → Ctl) (k : Nat → Nat → State → State) :
    Host.Outcome State Fault Refusal :=
  match s.ctl with
  | .block p =>
      if p.x + 8 ≤ s.width.toNat ∧ p.y + 8 ≤ s.height.toNat then
        .next { k p.x p.y s with ctl := go p }
      else .fault .blockOutsideFrame
  | _ => .refused .noBlockSelected

/-- Where a pass goes on after a whole block. -/
def afterBlock (s : State) (p : BlockPos) : Ctl := .block (p.next s.width.toNat)

/-- Where a pass goes on after sub-block `q` (R142). -/
def afterSub (s : State) (p : BlockPos) (q : Fin 4) : Ctl :=
  if q.val < 3 then .sub p (q + 1) else afterBlock s p

/-- A command at depth 4×4, at the sub-block the pass has reached (R142). -/
def atBlock4 (s : State) (k : Nat → Nat → State → State) : Host.Outcome State Fault Refusal :=
  match s.ctl with
  | .sub p q =>
      if p.subX q + 4 ≤ s.width.toNat ∧ p.subY q + 4 ≤ s.height.toNat then
        .next { k (p.subX q) (p.subY q) s with ctl := afterSub s p q }
      else .fault .blockOutsideFrame
  | _ => .refused .noBlockSelected

/-- The source block's top-left corner passes the bounds test, inclusive at both ends (R147). -/
def motionInBounds (s : State) (n : Nat) (sx sy : Int) : Bool :=
  decide (0 ≤ sx) && decide (sx ≤ (s.width.toNat : Int) - n) &&
  decide (0 ≤ sy) && decide (sy ≤ (s.height.toNat : Int) - n)

/-- MotionCopy: the `n`×`n` block at (px, py) of the current buffer takes the block displaced by the motion vector from the
previous buffer, or, out of bounds, a log record is appended and no pixel changes (R147). -/
def motionCopy (n : Nat) (b : Byte) (px py : Nat) (s : State) : State :=
  let dx := motionX b s.argX
  let dy := motionY b s.argY
  let sx := (px : Int) + dx
  let sy := (py : Int) + dy
  if motionInBounds s n sx sy then
    s.drawBlock px py n fun j i =>
      (s.fb s.prev).read ((sy.toNat + j) * s.width.toNat + (sx.toNat + i))
  else logRecord (.oobMotion n px py dx dy) s

end Sys2Proof.Machine
end

