-- ==== Sys2Proof/Machine/Audio.lean ====
section
/-! DEFINITION. SND_MONO and SND_STEREO, the DPCM decoder (spec/44_audio_dpcm.md). -/

namespace Sys2Proof.Machine

/-- `AUD_BUF[j] <- v` (R57, R164). -/
def writeSample (j : Nat) (v : Half) (s : State) : State :=
  { s with audBuf := s.audBuf.take j ++ v :: s.audBuf.drop (j + 1) }

/-- `ACC[channel]` (R34): channel 0 is mono or left, 1 is right. -/
def State.acc (s : State) (channel : Fin 2) : Half := if channel = 0 then s.acc0 else s.acc1
def State.setAcc (s : State) (channel : Fin 2) (v : Half) : State :=
  { s with acc0 := if channel = 0 then v else s.acc0, acc1 := if channel = 0 then s.acc1 else v }

/-- One payload byte of one channel: the accumulator takes its delta and the sum is sample `j`; `k` is the sample's index in
its channel, recorded by an overflow fault (R161 to R163, R195). -/
def decodeSample (channel : Fin 2) (k j : Nat) (s : State) : Res Unit :=
  (payRead 1 s).bind fun b t =>
  match add16 t.params.accOverflow (t.acc channel) (squareLut (b.getD 0 0#8)) with
  | some a => .ok () (writeSample j a (t.setAcc channel a))
  | none   => .raised (.accOverflow channel.val k) t

/-- What SND_MONO and SND_STEREO do first: the accumulators seeded (R165), channel and sample count set, and the buffer resized:
samples beyond the new count are gone (R35, R164, log 13). -/
def beginSound (channels : BitVec 2) (len : Nat) (seed0 seed1 : Half) (s : State) : State :=
  { s with acc0 := seed0, acc1 := seed1, audCh := channels, audLen := len, audBuf := s.audBuf.take len }

/-- The end of a sound chunk: one `Audio` event with the channel count and the `AUD_LEN` samples (R164, R166). -/
def endSound (s : State) : State := emit (.audio s.audCh (s.audBuf.take s.audLen)) s

/-- The start of a chunk, between its fetch and its own rule: both accumulators are seeded from `CH_ARG` at the start of every sound
chunk, so that nothing is carried over (R34, R211). R162 seeds both, and R161 `ACC[0]`; what is left to do here is `ACC[1]` of a
mono chunk, with a free value, since no rule states it (log 27). -/
def startChunk (s : State) : State :=
  { s with acc1 := if s.chId = 0x1020#16 then Config.monoRightSeed (monoSeed s.params.monoSeed s.chArg) else s.acc1 }

/-- SND_MONO: `ACC[0]`, the one accumulator of its one channel, takes the mono seed (R83, R165), then one sample a payload byte (R161).
`ACC[1]`, which serves the right channel, is not among what R161 writes: the chunk's start has seeded it (`startChunk`, log 27). -/
def execSndMono (arg : Half) (payload : List Byte) (s : State) : Host.Outcome State Fault Refusal :=
  let s := loadChunk 0x1020#16 arg payload s
  let seed := monoSeed s.params.monoSeed s.chArg
  let s := beginSound 1#2 s.chSize.toNat seed s.acc1 s
  (forFrom (fun i => decodeSample 0 i i) s.chSize.toNat 0 s).settle fun _ t => endSound t

/-- One byte pair: left, then right (R162). -/
def decodePair (i : Nat) (s : State) : Res Unit :=
  (decodeSample 0 i (2 * i) s).bind fun _ t => decodeSample 1 i (2 * i + 1) t

/-- SND_STEREO: `floor(size / 2)` byte pairs, interleaved (R162). -/
def execSndStereo (arg : Half) (payload : List Byte) (s : State) : Host.Outcome State Fault Refusal :=
  let s := loadChunk 0x1021#16 arg payload s
  let n := s.chSize.toNat / 2
  let s := beginSound 2#2 (2 * n) (seedOfByte (highByte s.chArg)) (seedOfByte (lowByte s.chArg)) s
  (forFrom decodePair n 0 s).settle fun _ t => endSound t

end Sys2Proof.Machine
end

