-- ==== Sys2Proof/Machine/Colourspace.lean ====
section
/-! DEFINITION. The colourspace converter: the two packings and the conversion (spec/41_colorspace.md). -/

namespace Sys2Proof.Machine

/-- `clamp8` (R113). -/
def clamp8 (v : Int) : Byte := if v < 0 then 0#8 else if 255 < v then 255#8 else BitVec.ofInt 8 v

/-- The (R, G, B) of `CSC_DEFAULT`: full-range BT.601 in 16.16 fixed point, `>> 16` the floor of a division by 65536
(R8, R113). -/
def cscDefaultRgb (y cb cr : Byte) : Byte × Byte × Byte :=
  let yv  : Int := y.toNat
  let cbv : Int := (cb.toNat : Int) - 128
  let crv : Int := (cr.toNat : Int) - 128
  (clamp8 (yv + 91881 * crv / 65536),
   clamp8 (yv - (22554 * cbv + 46802 * crv) / 65536),
   clamp8 (yv + 116130 * cbv / 65536))

/-- The (R, G, B, A) that `CSC` gives: `CSC_DEFAULT` passes alpha through (R113, R115), any other is free in all four (D4,
log 4). -/
def cscRgba (csc : Csc) (y cb cr a : Byte) : Byte × Byte × Byte × Byte :=
  match csc with
  | .cscDefault => let (r, g, b) := cscDefaultRgb y cb cr; (r, g, b, a)
  | .other k    => Config.cscOther k y cb cr a

/-- `BGR565`: R[7:3] in bits 15:11, G[7:2] in 10:5, B[7:3] in 4:0, alpha dropped; the 16 bits above are zero (R111). -/
def packBgr565 (r g b : Byte) : Pixel :=
  0#16 ++ r.extractLsb' 3 5 ++ g.extractLsb' 2 6 ++ b.extractLsb' 3 5

/-- `RGBA8888`: A, B, G, R from bits 31:24 down (R112). -/
def packRgba8888 (r g b a : Byte) : Pixel := a ++ b ++ g ++ r

/-- `pack(PIXFMT, R, G, B, A)` (R111, R112). -/
def pack (f : PixFmt) (c : Byte × Byte × Byte × Byte) : Pixel :=
  match f, c with
  | .bgr565,   (r, g, b, _) => packBgr565 r g b
  | .rgba8888, (r, g, b, a) => packRgba8888 r g b a

/-- `Pix(Y, Cb, Cr, A)`, the pixel in the instance's format: `pack` of what its `CSC` gives (R110, D4). -/
def pix (p : Params) (y cb cr a : Byte) : Pixel := pack p.pixFmt (cscRgba p.csc y cb cr a)

end Sys2Proof.Machine
end

