-- ==== Sys2Proof/Machine/Codebook.lean ====
section
/-! DEFINITION. CODEBOOK, the codebook unpacker (spec/42_codebook.md). -/

namespace Sys2Proof.Machine

/-- Y and A samples of pixel `k` in the luma bytes of a CELL2 record: interleaved with alpha, else A is 255 (R76, R122). -/
def lumaOf (hasAlpha : Bool) (luma : List Byte) (k : Nat) : Byte :=
  if hasAlpha then luma.getD (2 * k) 0#8 else luma.getD k 0#8
def alphaOf (hasAlpha : Bool) (luma : List Byte) (k : Nat) : Byte :=
  if hasAlpha then luma.getD (2 * k + 1) 0#8 else 255#8

/-- Pixel `k` of the 2×2 cell a CELL2 record spells (R122). -/
def cell2Pixel (p : Params) (hasAlpha : Bool) (luma : List Byte) (cb cr : Byte) (k : Nat) : Pixel :=
  pix p (lumaOf hasAlpha luma k) cb cr (alphaOf hasAlpha luma k)

/-- Unpack2(i): three reads, then the four pixels of `CB2[i]`, pixel `k` at column `k & 1`, row `k >> 1` (R122). -/
def unpack2 (i : Nat) (s : State) : Res Unit :=
  (payRead (if s.hasAlpha then 8 else 4) s).bind fun luma s1 =>
  (payRead 1 s1).bind fun cb s2 =>
  (payRead 1 s2).bind fun cr s3 =>
  .ok () { s3 with
    cb2 := s3.cb2.blit 2 0 (2 * i) 2 fun r c =>
      cell2Pixel s.params s.hasAlpha luma (cb.getD 0 0#8) (cr.getD 0 0#8) (2 * r + c) }

/-- Assemble4(i): four index bytes, then the 16 pixels of `CB4[i]` gathered from `CB2` as it stands (R123, R126). -/
def assemble4 (i : Nat) (s : State) : Res Unit :=
  (payRead 4 s).bind fun ix t =>
  .ok () { t with cb4 := t.cb4.blit 4 0 (4 * i) 4 (s.quadCells fun q => ix.getD q 0#8) }

/-- CODEBOOK: all 2×2 cells, then the 4×4 cells; no event, `NEXT` goes on (R120, R180). -/
def execCodebook (arg : Half) (payload : List Byte) (s : State) : Host.Outcome State Fault Refusal :=
  let s := loadChunk 0x1002#16 arg payload s
  let n4 := count4 s.chArg s.chSize s.hasAlpha
  ((forFrom unpack2 (count2 s.chArg) 0 s).bind fun _ t => forFrom assemble4 n4 0 t).settle
    fun _ t => { t with ctl := .fetch }

end Sys2Proof.Machine
end

