-- ==== Sys2Proof/Machine/Driver.lean ====
section
/-! DEFINITION. The stream driver: the host commands OPEN, NEXT, DROP, the stream header SIG, and the chunks INFO and CUSTOM
(spec/45_stream_driver.md). -/

namespace Sys2Proof.Machine

/-- A host command runs between commands, on an instance that still exists (R178, R220). -/
def atIdle (s : State) (k : Host.Outcome State Fault Refusal) : Host.Outcome State Fault Refusal :=
  match s.ctl with
  | .idle    => k
  | .dropped => .refused .instanceDropped
  | _        => .refused .commandsOverlap

/-- OPEN(src): the byte source is taken over and the stream header is read next (R171, R182). -/
def execHostOpen (source : ByteSource) (s : State) : Host.Outcome State Fault Refusal :=
  atIdle s <|
    if s.st = .uninit then
      .next { s with src := source.bytes, srcAns := source.answers, spos := 0, ctl := .header }
    else .refused .openOutsideUninit

/-- SIG: the stream header, once read: `ParseError(BAD_MAGIC)`, or the frame rate is kept and `PLAYING` begins (R171). -/
def execSig (signature : Half) (_pad : List Byte) (framerate : Half) (s : State) :
    Host.Outcome State Fault Refusal :=
  if signature = s.params.streamMagic then
    .next { s with framerate := framerate, st := .playing, ctl := .idle, results := s.results ++ [.opened] }
  else .next (takeFault (.badMagic signature) s)

/-- NEXT: the loop of chunk fetches begins (R172, R182). -/
def execHostNext (s : State) : Host.Outcome State Fault Refusal :=
  atIdle s <|
    if s.st = .playing then .next { s with ctl := .fetch } else .refused .nextOutsidePlaying

/-- DROP: the instance and all its state are gone, the byte source is released; what was handed to the host stays the host's
(R43, R178, log 14). -/
def execHostDrop (s : State) : Host.Outcome State Fault Refusal :=
  atIdle s <|
    .next { State.resetWith s.params with
      ctl := .dropped, host := s.host, results := s.results, freeCtr := s.freeCtr }

/-- INFO, from its four payload bytes: dimensions, alpha flag, both frame buffers all `DEFAULT_PIXEL`, `InitVideo` (R174). -/
def setDimensions (width height : Half) (s : State) : State :=
  emit (.initVideo width height (alphaFlag s.chArg))
    { s with width := width, height := height, hasAlpha := alphaFlag s.chArg,
             fb0 := [], fb1 := [], dimValid := true }

/-- INFO: refused once dimensions are known, and for dimensions this spec does not define (R174, U2, U3). -/
def execInfo (arg : Half) (payload : List Byte) (s : State) : Host.Outcome State Fault Refusal :=
  if s.dimValid then .refused .secondInfo
  else
    match payRead 4 (loadChunk 0x1001#16 arg payload s) with
    | .raised c t => .next (takeFault c t)
    | .ok b t =>
        let width := le16 (b.getD 0 0#8) (b.getD 1 0#8)
        let height := le16 (b.getD 2 0#8) (b.getD 3 0#8)
        if legalDimension width && legalDimension height then .next (setDimensions width height t)
        else .refused .illegalDimensions

/-- CUSTOM: logged, and handed to the host as it is (R175). -/
def execCustom (id arg : Half) (payload : List Byte) (s : State) : Host.Outcome State Fault Refusal :=
  let s := loadChunk id arg payload s
  .next (emit (.custom s.chId s.chArg s.pay) (logRecord (.unknownChunk s.chId s.chArg s.chSize) s))

end Sys2Proof.Machine
end

