-- ==== Sys2Proof/Machine/Frame.lean ====
section
/-! DEFINITION. FRAME and the eight block modes (spec/43_video_frame.md). -/

namespace Sys2Proof.Machine

/-- The frame-1 copy: before block decode of frame 1, and only then, the previous buffer goes over the current one (R133). -/
def frameOneCopy (s : State) : State :=
  if s.frameCnt = 1 then s.setFb s.cur (PixMem.copyFirst s.fbLen (s.fb s.prev) (s.fb s.cur)) else s

/-- The start of a pass: the frame-1 copy, the base offset, the mode cursor at 0, the first block next (R130, R133 to R135). -/
def beginPass (s : State) : State :=
  { frameOneCopy s with
      argX := baseX s.chArg, argY := baseY s.chArg, mbWord := 0, mbLeft := 0, ctl := .block ⟨0, 0, 0⟩ }

/-- FRAME: without dimensions a contract violation, else the pass begins; its blocks are the next steps (R130, R131). -/
def execFrame (arg : Half) (payload : List Byte) (s : State) : Host.Outcome State Fault Refusal :=
  let s := loadChunk 0x1011#16 arg payload s
  if s.dimValid then .next (beginPass s) else .next (takeFault .frameBeforeInfo s)

/-- The end of a pass: the frame counter advances and `Video` hands over the buffer that was current (R148). -/
def endPass (s : State) : State :=
  emit (.video s.cur (s.fb s.cur)) { s with frameCnt := s.frameCnt + 1 }

/-- MOT8: no pixel changes (R139). -/
def execMot8 (s : State) : Host.Outcome State Fault Refusal :=
  atBlock8 s (afterBlock s) fun _ _ s => s

/-- FCC8: motion copy of the 8×8 block (R140). -/
def execFcc8 (b : Byte) (s : State) : Host.Outcome State Fault Refusal :=
  atBlock8 s (afterBlock s) (motionCopy 8 b)

/-- SDL8: the 4×4 cell, each pixel over a 2×2 footprint (R141). -/
def execSdl8 (c : Byte) (s : State) : Host.Outcome State Fault Refusal :=
  atBlock8 s (afterBlock s) fun x y s => s.drawBlock x y 8 fun j i => s.cell4 c (j / 2) (i / 2)

/-- CCC8: the block's four sub-blocks come next (R142). -/
def execCcc8 (s : State) : Host.Outcome State Fault Refusal :=
  atBlock8 s (fun p => .sub p 0) fun _ _ s => s

/-- MOT4: no pixel changes (R143). -/
def execMot4 (s : State) : Host.Outcome State Fault Refusal :=
  atBlock4 s fun _ _ s => s

/-- FCC4: motion copy of the 4×4 sub-block (R144). -/
def execFcc4 (b : Byte) (s : State) : Host.Outcome State Fault Refusal :=
  atBlock4 s (motionCopy 4 b)

/-- SDL4: the 4×4 cell as it is (R145). -/
def execSdl4 (c : Byte) (s : State) : Host.Outcome State Fault Refusal :=
  atBlock4 s fun x y s => s.drawBlock x y 4 fun j i => s.cell4 c j i

/-- CCC4: four 2×2 cells at the quadrants, as `CB2` stands now (R146). -/
def execCcc4 (i0 i1 i2 i3 : Byte) (s : State) : Host.Outcome State Fault Refusal :=
  atBlock4 s fun x y s => s.drawBlock x y 4 (s.quadCells (indexOf i0 i1 i2 i3))

end Sys2Proof.Machine
end

