-- ==== Sys2Proof/Machine/Dispatch.lean ====
section
/-! DEFINITION. Dispatch: one arm per command. -/

namespace Sys2Proof.Machine

def exec (i : Instr) (s : State) : Host.Outcome State Fault Refusal :=
  match i with
  | .sig signature pad framerate => Sys2Proof.Machine.execSig signature pad framerate s
  | .info arg payload => Sys2Proof.Machine.execInfo arg payload s
  | .codebook arg payload => Sys2Proof.Machine.execCodebook arg payload s
  | .frame arg payload => Sys2Proof.Machine.execFrame arg payload s
  | .sndMono arg payload => Sys2Proof.Machine.execSndMono arg payload s
  | .sndStereo arg payload => Sys2Proof.Machine.execSndStereo arg payload s
  | .custom id arg payload => Sys2Proof.Machine.execCustom id arg payload s
  | .mot8 => Sys2Proof.Machine.execMot8 s
  | .fcc8 b => Sys2Proof.Machine.execFcc8 b s
  | .sdl8 c => Sys2Proof.Machine.execSdl8 c s
  | .ccc8 => Sys2Proof.Machine.execCcc8 s
  | .mot4 => Sys2Proof.Machine.execMot4 s
  | .fcc4 b => Sys2Proof.Machine.execFcc4 b s
  | .sdl4 c => Sys2Proof.Machine.execSdl4 c s
  | .ccc4 i0 i1 i2 i3 => Sys2Proof.Machine.execCcc4 i0 i1 i2 i3 s
  | .hostOpen source => Sys2Proof.Machine.execHostOpen source s
  | .hostNext => Sys2Proof.Machine.execHostNext s
  | .hostDrop => Sys2Proof.Machine.execHostDrop s

end Sys2Proof.Machine
end

