-- ==== Sys2Proof/Machine/Fetch.lean ====
section
/-! DEFINITION. Fetching the next command: a host command from the queue, the stream header, a chunk, a block mode with its
operand bytes (spec/40_chunk_reader.md, R71, R136, R171, R172). -/

namespace Sys2Proof.Machine

/-- What a fetch comes to. -/
inductive Fetched where
  /-- A command was read; it runs in the state the reads have reached. -/
  | run (i : Instr) (s : State)
  /-- The step is over without a command: idle, end of stream, end of a pass, or a fault taken. -/
  | settled (s : State)
  /-- The machine has no next state. -/
  | stuck (f : Fault)

/-- The command the host has issued (R170). -/
def HostCmd.instr : HostCmd → Instr
  | .openSource source => .hostOpen source
  | .next              => .hostNext
  | .drop              => .hostDrop

/-- Takes the next command off the host's queue; with none pending the block keeps all its state (R206). -/
def fetchHost (s : State) : Fetched :=
  match s.host with
  | []        => .settled s
  | c :: rest => .run c.instr { s with host := rest }

/-- The stream header: one read of `4 + HDR_PAD` bytes; `Short` and `Fail` are `IOError(OPEN_READ)` (R105, R171). -/
def fetchHeader (s : State) : Fetched :=
  match srcRead (4 + s.params.hdrPad) s with
  | .hang     => .stuck .sourceNeverAnswers
  | .short t  => .settled (takeFault .openRead t)
  | .fail t   => .settled (takeFault .openRead t)
  | .ok b t   =>
      match decodeStreamHeader s.params.hdrPad b with
      | .ok (i, _) => .run i t
      | .error _   => .settled (takeFault .openRead t)

/-- FetchChunk: the header read, where `Short` is the end of the stream and `Fail` is `IOError(HEADER_READ)`; then the payload
read, where both are `IOError(PAYLOAD_READ)` with the latches written (R100 to R102). -/
def fetchChunk (s : State) : Fetched :=
  match srcRead 8 s with
  | .hang    => .stuck .sourceNeverAnswers
  | .short t => .settled (endStream t)
  | .fail t  => .settled (takeFault .headerRead t)
  | .ok b t  =>
      match decodeChunkHeader b with
      | .error _ => .settled (endStream t)
      | .ok (h, _) =>
          let u := latchHeader h.id h.size h.arg t
          match srcRead h.size.toNat u with
          | .hang    => .stuck .sourceNeverAnswers
          | .short v => .settled (takeFault (.payloadRead h.id h.size) v)
          | .fail v  => .settled (takeFault (.payloadRead h.id h.size) v)
          | .ok pay v => .run (chunkOf h.id h.arg pay) v

/-- One round of `NEXT`'s loop up to the dispatch: FetchChunk, then the start of the chunk fetched (R172, R34). -/
def fetchNext (s : State) : Fetched :=
  match fetchChunk s with
  | .run i t   => .run i (startChunk t)
  | .settled t => .settled t
  | .stuck f   => .stuck f

/-- A block mode at a depth: GetMode, then the operand bytes of the command selected (R136, R138, R142). -/
def fetchMode (d : Depth) (s : State) : Fetched :=
  match (getMode s).bind fun code t => (payRead (operandBytes d code) t).bind fun ops u => .ok (code, ops) u with
  | .raised c t => .settled (takeFault c t)
  | .ok (code, ops) u =>
      match decodeMode d code ops with
      | .ok (i, _) => .run i u
      | .error _   => .settled (takeFault (.payloadUnderrun u.chId u.ppos) u)

/-- The next block's mode, or the end of the pass once every macroblock row is done (R130, R137, R148). -/
def fetchBlock (p : BlockPos) (s : State) : Fetched :=
  if p.my < s.height.toNat / 16 then fetchMode .d8 s else .settled (endPass s)

/-- The fetch at the point where the block stands. -/
def fetch (s : State) : Fetched :=
  match s.ctl with
  | .idle    => fetchHost s
  | .dropped => fetchHost s
  | .header  => fetchHeader s
  | .fetch   => fetchNext s
  | .block p => fetchBlock p s
  | .sub _ _ => fetchMode .d4 s

/-- Places the row's word as the stream header, at the start of `SRC` (log 20). -/
def placeHeader (w : Nat) (s : State) : State :=
  { s with ctl := .header, st := .uninit, src := tableStreamHeader s.params.hdrPad w, srcAns := [], spos := 0 }

/-- Places the row's word as the next chunk, at `SPOS` (log 20). -/
def placeChunk (w : Nat) (s : State) : State :=
  { s with ctl := .fetch, st := .playing, src := List.replicate s.spos 0#8 ++ tableChunk w, srcAns := [] }

/-- Places the row's word as the next mode code of a FRAME pass at the first block of a 16×16 frame, with operand bytes of
zero (log 20). -/
def placeMode (w : Nat) (s : State) : State :=
  { s with ctl := .block ⟨0, 0, 0⟩, st := .playing, dimValid := true, width := 16, height := 16,
           mbWord := BitVec.ofNat 2 w ++ 0#14, mbLeft := 8, chSize := 4, pay := List.replicate 4 0#8, ppos := 0 }

/-- `s` with the word of an opcode-table row where the next fetch reads it: a mode code, the stream header, or a chunk, as
`decodeTableWord` tells them apart (log 19, log 20). -/
def placeTableWord (nbits w : Nat) (s : State) : State :=
  let v := w % 2 ^ nbits
  if nbits ≤ 8 then placeMode v s
  else if BitVec.ofNat 16 v = Params.default.streamMagic then placeHeader v s
  else placeChunk v s

end Sys2Proof.Machine
end

