-- ==== Sys2Proof/Machine/Step.lean ====
section
/-! DEFINITION. One step: fetch the next command and run it. -/

namespace Sys2Proof.Machine

/-- One step: the command fetched runs; where the fetch itself ends the step, that is its outcome (R11). -/
def step (s : State) : Host.Outcome State Fault Refusal :=
  match fetch s with
  | .run i t   => exec i t
  | .settled t => .next t
  | .stuck f   => .fault f

/-- `s` with the word of an opcode-table row stored where `step` fetches its next command. -/
def State.withFetchWord (s : State) (nbits w : Nat) : State := placeTableWord nbits w s

end Sys2Proof.Machine
end

