-- ==== Sys2Proof/Safety.lean ====
section
/-! DEFINITION. What claims about runs are stated in: the invariant of the machine, a source that answers, a run. -/

namespace Sys2Proof.Machine

/-- A pixel has `PW` bits (R5). -/
def pixelFits (f : PixFmt) (v : Pixel) : Prop :=
  match f with
  | .bgr565   => v.toNat < 2 ^ 16
  | .rgba8888 => True

/-- A pixel memory of `n` elements: canonical, nothing listed beyond its end, every pixel of the format's width. -/
structure PixMem.Sound (m : PixMem) (f : PixFmt) (n : Nat) : Prop where
  canonical : m.wf = true
  inside    : ∀ e ∈ m, e.1 < n
  fits      : ∀ e ∈ m, pixelFits f e.2

/-- A block a FRAME pass may stand at in a frame of the given size: a block of a macroblock of the frame, or the end of the
pass, past the last macroblock row (R137). -/
def BlockPos.Legal (p : BlockPos) (width height : Half) : Prop :=
  (p.my < height.toNat / 16 ∧ p.mx < width.toNat / 16) ∨ (p.my = height.toNat / 16 ∧ p.mx = 0 ∧ p.b = 0)

/-- The control point agrees with `ST` and with the dimensions (R130, R142, R172, R177). -/
def State.CtlLegal (s : State) : Prop :=
  match s.ctl with
  | .idle    => True
  | .header  => s.st = .uninit
  | .fetch   => s.st = .playing
  | .block p => s.st = .playing ∧ s.dimValid = true ∧ p.Legal s.width s.height
  | .sub p _ => s.st = .playing ∧ s.dimValid = true ∧ p.my < s.height.toNat / 16 ∧ p.mx < s.width.toNat / 16
  | .dropped => s.st = .uninit

/-- The invariant of the machine. -/
structure State.Inv (s : State) : Prop where
  /-- `CB2`, `CB4`, `FB[0]`, `FB[1]` are sound memories of their sizes (R29 to R31). -/
  cb2       : s.cb2.Sound s.params.pixFmt 1024
  cb4       : s.cb4.Sound s.params.pixFmt 4096
  fb0       : s.fb0.Sound s.params.pixFmt s.fbLen
  fb1       : s.fb1.Sound s.params.pixFmt s.fbLen
  /-- Dimensions, once known, are positive multiples of 16 (R26). -/
  dims      : s.dimValid = true → legalDimension s.width = true ∧ legalDimension s.height = true
  /-- Before INFO the dimensions and the frame counter have their reset values (R42). -/
  noDims    : s.dimValid = false → s.width = 0 ∧ s.height = 0 ∧ s.hasAlpha = false ∧ s.frameCnt = 0
  /-- `MB_LEFT` is 0 to 8 (R32). -/
  cursor    : s.mbLeft.toNat ≤ 8
  /-- `PAY` holds `CH_SIZE` bytes, but after a fault (R53), and `PPOS` does not pass its end (R54). -/
  payload   : s.st ≠ .fault → s.pay.length = s.chSize.toNat
  payCursor : s.ppos ≤ s.pay.length
  /-- `ST` is `FAULT` exactly when a fault is recorded (R194). -/
  faulted   : s.st = .fault ↔ s.faultCode ≠ 0
  /-- Before `OPEN` succeeds nothing is read past the header and no dimensions are known (R42). -/
  unopened  : s.st = .uninit → s.dimValid = false ∧ s.spos = 0
  /-- While playing, the stream position is inside `SRC` or at its end (R22, R52). -/
  position  : s.st = .playing → s.spos ≤ s.src.length
  /-- No sample is held beyond `AUD_LEN` (R35). -/
  samples   : s.audBuf.length ≤ s.audLen
  control   : s.CtlLegal

/-- The byte source answers every read still to come (R222; U16 calls the contrary stuck). -/
def State.SourceAnswers (s : State) : Prop := ∀ a ∈ s.srcAns, a ≠ .hang

/-- The byte source serves its next `n` reads; what it does with later ones is open (R52; the answers are the model's, log 10). -/
def State.ServesNext (s : State) (n : Nat) : Prop := ∀ a ∈ s.srcAns.take n, a = .serve

/-- A conversion of the form R115 requires: alpha comes out as it went in, and the colours do not depend on it. -/
def PassesAlpha (csc : Csc) : Prop :=
  ∃ rgb : Byte → Byte → Byte → Byte × Byte × Byte, ∀ y cb cr a,
    cscRgba csc y cb cr a = ((rgb y cb cr).1, (rgb y cb cr).2.1, (rgb y cb cr).2.2, a)

/-- `k` steps lead from `s` to `t`. -/
def RunsTo (k : Nat) (s t : State) : Prop := Sys2Proof.core.run k s = .next t

/-- No host command is running: the block is between commands or gone (R206). -/
def State.AtRest (s : State) : Prop := s.ctl = .idle ∨ s.ctl = .dropped

/-- `t` is `s` with the `n`×`n` square of the current buffer at pixel (x, y) drawn, pixel (x + i, y + j) taking `f j i`, and
the control point at `c`: every other element of both buffers and every other field is as before. -/
structure DrawsBlock (s t : State) (x y n : Nat) (f : Nat → Nat → Pixel) (c : Ctl) : Prop where
  drawn    : ∀ i j, i < n → j < n → (t.fb s.cur).read ((y + j) * s.width.toNat + (x + i)) = f j i
  outside  : ∀ a, (∀ i j, i < n → j < n → a ≠ (y + j) * s.width.toNat + (x + i)) →
    (t.fb s.cur).read a = (s.fb s.cur).read a
  previous : ∀ a, (t.fb s.prev).read a = (s.fb s.prev).read a
  frame    : t = { s with fb0 := t.fb0, fb1 := t.fb1, ctl := c }

/-- The samples of one channel: sample `i` stands at index `stride * i + off` of `out`, is decoded from the payload byte at
the same index, and starts from the sample before it, or from the seed (R161, R162). -/
def ChannelDecodes (mode : AccOverflow) (seed : Half) (stride off n : Nat) (payload : List Byte)
    (out : List Half) : Prop :=
  ∀ i, i < n →
    add16 mode (if i = 0 then seed else out.getD (stride * (i - 1) + off) 0#16)
      (squareLut (payload.getD (stride * i + off) 0#8)) = some (out.getD (stride * i + off) 0#16)

/-- Pixel `k` of the 2×2 cell whose CELL2 record starts at byte `at_` of the payload (R76, R122). -/
def recordPixel (p : Params) (hasAlpha : Bool) (payload : List Byte) (at_ k : Nat) : Pixel :=
  if hasAlpha then
    pix p (payload.getD (at_ + 2 * k) 0#8) (payload.getD (at_ + 8) 0#8) (payload.getD (at_ + 9) 0#8)
      (payload.getD (at_ + 2 * k + 1) 0#8)
  else
    pix p (payload.getD (at_ + k) 0#8) (payload.getD (at_ + 4) 0#8) (payload.getD (at_ + 5) 0#8) 255#8

/-- `PPOS` where a CODEBOOK payload of `len` bytes under-runs: the start of the read that does not fit. In a 2×2 cell, a record of
`bpc` bytes, that is the read of the luma bytes, or of Cb or Cr, which follow them; past the 2×2 cells it is the four index
bytes of a 4×4 cell (R122, R123, R125). -/
def codebookUnderrunAt (len n2 bpc : Nat) : Nat :=
  if n2 * bpc ≤ len then n2 * bpc + (len - n2 * bpc) / 4 * 4
  else len / bpc * bpc + if len % bpc < bpc - 2 then 0 else len % bpc

/-- The position of a block in raster order: macroblocks row by row, four blocks each (R137, R138). -/
def BlockPos.index (p : BlockPos) (width : Nat) : Nat := (p.my * (width / 16) + p.mx) * 4 + p.b.val

end Sys2Proof.Machine
end

