-- ==== Sys2Proof/Certificates/Slice0/Obligations.lean ====
section
/-! DEFINITION. The statements about the RoQ frame reconstructor, one definition each. `log <n>` is a row of notes/assumptions/. -/

open Sys2Proof Sys2Proof.Machine

/-! ## Encoding -/

/-- Decoding an encoded well-formed command, with any bytes after it, gives it back with those bytes left (R71, R72, R81). -/
def Obligations.DecodeAfterEncode : Prop :=
  ∀ (p : Params) (i : Instr) (e : Encoded) (rest : List Byte),
    i.wf p = true → encode i = some e → decode p.hdrPad i.level (e.followedBy rest) = .ok (i, rest)

/-- What decodes was the encoding of a well-formed command of that level, with the bytes left standing after it: each word
has one meaning (R73, R81, R86). -/
def Obligations.EncodeAfterDecode : Prop :=
  ∀ (p : Params) (lvl : Level) (e : Encoded) (i : Instr) (rest : List Byte),
    decode p.hdrPad lvl e = .ok (i, rest) →
      i.level = lvl ∧ i.wf p = true ∧ ∃ e', encode i = some e' ∧ e = e'.followedBy rest

/-- R86: there is no illegal encoding at either level: every chunk whose header and payload are complete decodes, and every
mode code decodes at both depths once its operand bytes are there, taking exactly those bytes. -/
def Obligations.NoIllegalEncoding : Prop :=
  (∀ (h : ChunkHeader) (bytes rest : List Byte), decodeChunkHeader bytes = .ok (h, rest) →
      h.size.toNat ≤ rest.length → ∃ i, decodeChunk bytes = .ok (i, rest.drop h.size.toNat)) ∧
  (∀ bytes : List Byte, 8 ≤ bytes.length → ∃ h, decodeChunkHeader bytes = .ok (h, bytes.drop 8)) ∧
  (∀ (d : Depth) (code : BitVec 2) (bytes : List Byte), operandBytes d code ≤ bytes.length →
      ∃ i, i.level = .block d ∧ decodeMode d code bytes = .ok (i, bytes.drop (operandBytes d code)))

/-- Words written out from the formats of spec/30_encoding.md decode to the commands they stand for (sanity). -/
def Obligations.SampleWordsDecode : Prop :=
  decodeChunk [0x01#8, 0x10#8, 0x04#8, 0#8, 0#8, 0#8, 0#8, 0#8, 0x10#8, 0#8, 0x20#8, 0#8, 0x77#8]
    = .ok (.info 0#16 [0x10#8, 0#8, 0x20#8, 0#8], [0x77#8]) ∧
  decodeChunk [0x34#8, 0x12#8, 0x02#8, 0#8, 0#8, 0#8, 0xEF#8, 0xBE#8, 0xAA#8, 0xBB#8]
    = .ok (.custom 0x1234#16 0xBEEF#16 [0xAA#8, 0xBB#8], []) ∧
  decodeStreamHeader 4 [0x84#8, 0x10#8, 0xFF#8, 0xFF#8, 0xFF#8, 0xFF#8, 0x1E#8, 0#8]
    = .ok (.sig 0x1084#16 [0xFF#8, 0xFF#8, 0xFF#8, 0xFF#8] 30#16, []) ∧
  decodeMode .d8 1#2 [0x48#8] = .ok (.fcc8 0x48#8, []) ∧
  decodeMode .d4 3#2 [1#8, 0#8, 0#8, 1#8] = .ok (.ccc4 1#8 0#8 0#8 1#8, [])

/-! ## Reads -/

/-- R54: `PayRead(n)` under-runs exactly where `PPOS + n` exceeds `CH_SIZE`, changing nothing; otherwise it gives the `n` bytes of
`PAY` at `PPOS` and advances `PPOS` by `n`, changing nothing else. The premise is R53's: `PAY` holds `CH_SIZE` bytes. -/
def Obligations.PayReadRule : Prop :=
  ∀ (s : State) (n : Nat), s.pay.length = s.chSize.toNat →
    (s.ppos + n > s.chSize.toNat → payRead n s = .raised (.payloadUnderrun s.chId s.ppos) s) ∧
    (s.ppos + n ≤ s.chSize.toNat →
      ∃ b, payRead n s = .ok b { s with ppos := s.ppos + n } ∧ b.length = n ∧
        ∀ k, k < n → b[k]? = s.pay[s.ppos + k]?)

/-- R52: `SrcRead(n)`: `SrcRead(0)` gives no bytes and moves nothing; a failing source gives `Fail`; too few bytes give `Short`;
otherwise the `n` bytes at `SPOS` come and `SPOS` advances by `n`. `SPOS` after `Short` is a free value (log 8); that a source
that never answers is told apart, that each read takes one answer, and that `Fail` leaves `SPOS` is the model's choice (log 10). -/
def Obligations.SrcReadRule : Prop :=
  ∀ (s : State) (n : Nat),
    srcRead 0 s = .ok [] s ∧
    (∀ rest, 0 < n → s.srcAns = .fail :: rest → srcRead n s = .fail { s with srcAns := rest }) ∧
    (∀ rest, 0 < n → s.srcAns = .hang :: rest → srcRead n s = .hang) ∧
    (0 < n → s.ServesNext 1 → s.src.length < s.spos + n →
      ∃ q k, srcRead n s = .short { s with srcAns := s.srcAns.tail, spos := q, freeCtr := k }) ∧
    (0 < n → s.ServesNext 1 → s.spos + n ≤ s.src.length →
      ∃ b, srcRead n s = .ok b { s with srcAns := s.srcAns.tail, spos := s.spos + n } ∧ b.length = n ∧
        ∀ k, k < n → b[k]? = s.src[s.spos + k]?)

/-- R136: GetMode refills the cursor from two payload bytes, low byte first, exactly when no code is left; it takes the code at
the high end of what remains and counts it off. -/
def Obligations.GetModeRule : Prop :=
  ∀ s : State,
    (s.mbLeft ≠ 0 → s.mbLeft.toNat ≤ 8 →
      ∃ code t, getMode s = .ok code t ∧ t = { s with mbLeft := t.mbLeft } ∧
        t.mbLeft.toNat = s.mbLeft.toNat - 1 ∧ code.toNat = s.mbWord.toNat / 4 ^ t.mbLeft.toNat % 4) ∧
    (∀ b0 b1 t, s.mbLeft = 0 → payRead 2 s = .ok [b0, b1] t →
      ∃ code u, getMode s = .ok code u ∧ u = { t with mbWord := u.mbWord, mbLeft := 7 } ∧
        u.mbWord.toNat = b0.toNat + 256 * b1.toNat ∧ code.toNat = u.mbWord.toNat / 4 ^ 7) ∧
    (∀ c t, s.mbLeft = 0 → payRead 2 s = .raised c t → getMode s = .raised c t)

/-! ## A step runs the command it fetches -/

/-- At the top of `NEXT`'s loop, with a source that serves the reads of this step: where the bytes at `SPOS` decode to a chunk, the step is that
chunk's own effect in the state in which the chunk's bytes have been passed and its header stands in the latches (R100, R104,
R172), and in which the start of a mono sound chunk has seeded `ACC[1]` too (R34, R211; SND_MONO itself seeds `ACC[0]`, SND_STEREO both).
How many answers of the source are used up is the model's (log 10), and so is that this seeding comes before SND_MONO's own rule, with a
free value of the mono seed (log 27). -/
def Obligations.StepRunsTheChunkAtTheStreamPosition : Prop :=
  ∀ (s : State) (i : Instr) (h : ChunkHeader) (body rest : List Byte),
    s.ctl = .fetch → s.ServesNext (if h.size = 0 then 1 else 2) →
    decodeChunkHeader (s.src.drop s.spos) = .ok (h, body) →
    decodeChunk (s.src.drop s.spos) = .ok (i, rest) →
      step s = exec i { s with
        srcAns := s.srcAns.drop (if h.size = 0 then 1 else 2), spos := s.spos + 8 + h.size.toNat,
        chId := h.id, chSize := h.size, chArg := h.arg,
        acc1 := if h.id = 0x1020#16 then Config.monoRightSeed (monoSeed s.params.monoSeed h.arg) else s.acc1 }

/-- Inside `OPEN`: with a source that serves its read, where the bytes at `SPOS` decode to a stream header, the step is the header's own
effect with `4 + HDR_PAD` bytes passed; where fewer bytes are there, or the source fails, it takes `IOError(OPEN_READ)`, and nothing
else of the block changes (R71, R105, R171). How answers of the source are used up is the model's (log 10). -/
def Obligations.StepReadsTheStreamHeader : Prop :=
  ∀ s : State, s.ctl = .header →
    (∀ i rest, s.ServesNext 1 → decodeStreamHeader s.params.hdrPad (s.src.drop s.spos) = .ok (i, rest) →
      step s = exec i { s with srcAns := s.srcAns.tail, spos := s.spos + (4 + s.params.hdrPad) }) ∧
    (((s.ServesNext 1 ∧ s.src.length < s.spos + (4 + s.params.hdrPad)) ∨ ∃ rest, s.srcAns = .fail :: rest) →
      ∃ t, step s = .next t ∧ t.results = s.results ++ [.fault .openRead] ∧
        t = { s with st := .fault, faultCode := 2, faultInfo := 1, ctl := .idle, results := t.results,
                     spos := t.spos, srcAns := t.srcAns, freeCtr := t.freeCtr })

/-- Inside a FRAME pass, at both depths: where GetMode gives a code and the payload bytes that follow decode at this depth, the step
is that block mode's own effect with its operand bytes passed; where a mode word or the operand bytes under-run, the step takes that
fault with nothing drawn (R79, R136, R138, R142, R150). -/
def Obligations.StepRunsTheBlockModeSelected : Prop :=
  ∀ (s : State) (d : Depth),
    ((d = .d8 ∧ ∃ p, s.ctl = .block p ∧ p.my < s.height.toNat / 16) ∨ (d = .d4 ∧ ∃ p q, s.ctl = .sub p q)) →
    (∀ t u code ops i, getMode s = .ok code t → payRead (operandBytes d code) t = .ok ops u →
      decodeMode d code ops = .ok (i, []) → step s = exec i u) ∧
    (∀ c t, getMode s = .raised c t → step s = .next (takeFault c t)) ∧
    (∀ t u code c, getMode s = .ok code t → payRead (operandBytes d code) t = .raised c u →
      step s = .next (takeFault c u))

/-- Between commands the step runs the host's next command, taken off its queue; with none pending the block keeps all its
state (R170, R206; the queue is the model's, log 2). -/
def Obligations.StepRunsTheHostCommand : Prop :=
  ∀ s : State, s.AtRest →
    (s.host = [] → step s = .next s) ∧
    (∀ c rest, s.host = c :: rest → step s = exec c.instr { s with host := rest })

/-- R101, R102, R176, R195: a chunk header that comes short ends the stream, with `EndOfFile` and the latches as they were; a payload
read that comes short, or that fails after the header was served, is `IOError(PAYLOAD_READ)` with the latches written and no
dispatch; a failing header read is `IOError(HEADER_READ)`. That `SPOS` stands where a failing read began, which the spec leaves open,
and that each read takes one answer of the source, is the model's choice (log 10); `SPOS` after a short read is free (log 8). -/
def Obligations.FetchEndsOrFaults : Prop :=
  ∀ s : State, s.ctl = .fetch →
    (s.ServesNext 1 → s.src.length < s.spos + 8 →
      ∃ t, step s = .next t ∧ t.st = .finished ∧ t.results = s.results ++ [.event .endOfFile] ∧
        t = { s with st := .finished, ctl := .idle, results := t.results, spos := t.spos,
                     srcAns := t.srcAns, freeCtr := t.freeCtr }) ∧
    (∀ h body, s.ServesNext 2 → decodeChunkHeader (s.src.drop s.spos) = .ok (h, body) →
      body.length < h.size.toNat →
      ∃ t, step s = .next t ∧ t.st = .fault ∧ t.faultCode = 2 ∧ t.faultInfo = 3 ∧
        t.results = s.results ++ [.fault (.payloadRead h.id h.size)] ∧
        t = { s with chId := h.id, chSize := h.size, chArg := h.arg, st := .fault, faultCode := 2,
                     faultInfo := 3, ctl := .idle, results := t.results, spos := t.spos,
                     srcAns := t.srcAns, freeCtr := t.freeCtr }) ∧
    (∀ h body rest, s.srcAns = .serve :: .fail :: rest →
      decodeChunkHeader (s.src.drop s.spos) = .ok (h, body) → h.size ≠ 0 →
      ∃ t, step s = .next t ∧ t.results = s.results ++ [.fault (.payloadRead h.id h.size)] ∧
        t = { s with chId := h.id, chSize := h.size, chArg := h.arg, st := .fault, faultCode := 2,
                     faultInfo := 3, ctl := .idle, results := t.results, spos := s.spos + 8,
                     srcAns := rest }) ∧
    (∀ rest, s.srcAns = .fail :: rest →
      ∃ t, step s = .next t ∧ t.results = s.results ++ [.fault .headerRead] ∧
        t = { s with st := .fault, faultCode := 2, faultInfo := 2, ctl := .idle, results := t.results,
                     srcAns := rest })

/-! ## Reset and the invariant -/

/-- The reset values R42 and R210 give, for every parameter setting. The values of the registers R42 calls unspecified are the
model's (log 7) and are not stated. -/
def Obligations.ResetValues : Prop :=
  ∀ p : Params,
    let s := State.resetWith p
    s.st = .uninit ∧ s.spos = 0 ∧ s.pay = [] ∧ s.ppos = 0 ∧ s.width = 0 ∧ s.height = 0 ∧
    s.dimValid = false ∧ s.hasAlpha = false ∧ s.frameCnt = 0 ∧ (∀ a, s.cb2.read a = 0) ∧
    (∀ a, s.cb4.read a = 0) ∧ s.fbLen = 0 ∧ s.fb0 = [] ∧ s.fb1 = [] ∧ s.mbWord = 0 ∧ s.mbLeft = 0 ∧
    s.audLen = 0 ∧ s.audBuf = [] ∧ s.faultCode = 0 ∧ s.faultInfo = 0 ∧ s.log = []

/-- The invariant holds of a newly created instance, whatever its parameters (R42, R210). Its clause that `PAY` holds `CH_SIZE` bytes
holds there because `CH_SIZE` is zero, which is the model's choice: R42 calls that value unspecified (log 7). -/
def Obligations.ResetMeetsTheInvariant : Prop := ∀ p : Params, (State.resetWith p).Inv

/-- Every step keeps the invariant: sound pixel memories of the right sizes and widths, legal dimensions, a cursor of at most 8
codes, a payload of `CH_SIZE` bytes, a fault record exactly in `FAULT`, a stream position inside `SRC`, a control point inside the
frame (R26, R29 to R32, R53 to R55, R194). -/
def Obligations.EveryStepKeepsTheInvariant : Prop :=
  ∀ s t : State, s.Inv → step s = .next t → t.Inv

/-- From a state that meets the invariant no step is stopped by the model's own checks: no block lies outside the frame (R55), no
block mode runs outside a pass (R70), no two commands overlap (R220). -/
def Obligations.InternalStopsAreUnreachable : Prop :=
  ∀ s : State, s.Inv →
    step s ≠ .fault .blockOutsideFrame ∧ step s ≠ .refused .noBlockSelected ∧
    step s ≠ .refused .commandsOverlap

/-! ## Host commands and the stream header -/

/-- OPEN completes between commands while `ST` is `UNINIT`: the source is taken over, reading starts at its first byte, and the
stream header comes next; nothing else changes (R171). -/
def Obligations.OpenTakesTheSource : Prop :=
  ∀ (s : State) (source : ByteSource), s.ctl = .idle → s.st = .uninit →
    exec (.hostOpen source) s =
      .next { s with src := source.bytes, srcAns := source.answers, spos := 0, ctl := .header }

/-- The stream header completes `OPEN` where its signature is `STREAM_MAGIC`: `FRAMERATE` takes its second field, `ST` becomes
`PLAYING`, and nothing else of the block changes (R171). -/
def Obligations.StreamHeaderStartsPlaying : Prop :=
  ∀ (s : State) (pad : List Byte) (framerate : Half),
    exec (.sig s.params.streamMagic pad framerate) s =
      .next { s with framerate := framerate, st := .playing, ctl := .idle, results := s.results ++ [.opened] }

/-- A stream header with any other signature is `ParseError(BAD_MAGIC)`: `FAULT_CODE` 1, `FAULT_INFO` 1, `ST` = `FAULT`, nothing else
changes and `FRAMERATE` is not written (R171, R191, R194). -/
def Obligations.WrongMagicIsAParseError : Prop :=
  ∀ (s : State) (signature framerate : Half) (pad : List Byte), signature ≠ s.params.streamMagic →
    exec (.sig signature pad framerate) s =
      .next { s with faultCode := 1, faultInfo := 1, st := .fault, ctl := .idle,
                     results := s.results ++ [.fault (.badMagic signature)] }

/-- NEXT completes between commands while `ST` is `PLAYING`: the chunk at `SPOS` comes next; nothing else changes (R172). -/
def Obligations.NextStartsFetching : Prop :=
  ∀ s : State, s.ctl = .idle → s.st = .playing → exec .hostNext s = .next { s with ctl := .fetch }

/-- DROP completes between commands in every state of `ST`: no block state survives, and no event and no fault is handed over
(R43, R178). That the registers then stand at their reset values is the model's reading of "no state survives" (log 14). -/
def Obligations.DropEndsTheInstance : Prop :=
  ∀ s : State, s.ctl = .idle →
    exec .hostDrop s = .next { State.resetWith s.params with
      ctl := .dropped, host := s.host, results := s.results, freeCtr := s.freeCtr }

/-- R182: `NEXT` has no result unless `ST` is `PLAYING`, `OPEN` none unless `ST` is `UNINIT`, and no command has one on a dropped
instance (R178). -/
def Obligations.CommandsOutsideTheirStateAreRefused : Prop :=
  ∀ (s : State) (source : ByteSource),
    (s.ctl = .idle → s.st ≠ .playing → exec .hostNext s = .refused .nextOutsidePlaying) ∧
    (s.ctl = .idle → s.st ≠ .uninit → exec (.hostOpen source) s = .refused .openOutsideUninit) ∧
    (s.ctl = .dropped → exec .hostNext s = .refused .instanceDropped ∧
      exec (.hostOpen source) s = .refused .instanceDropped ∧ exec .hostDrop s = .refused .instanceDropped)

/-! ## INFO and CUSTOM -/

/-- INFO completes before dimensions are known, for a payload of at least four bytes whose width and height are positive multiples of
16: the fields, the alpha flag and `DIM_VALID` are set, both buffers get `WIDTH*HEIGHT` pixels of `DEFAULT_PIXEL`, `InitVideo` is
emitted; codebooks, frame counter and everything else stay (R174). -/
def Obligations.InfoSetsTheDimensions : Prop :=
  ∀ (s : State) (arg : Half) (b0 b1 b2 b3 : Byte) (more : List Byte),
    s.dimValid = false → more.length + 4 < 2 ^ 32 →
    legalDimension (le16 b0 b1) = true → legalDimension (le16 b2 b3) = true →
    ∃ t, exec (.info arg (b0 :: b1 :: b2 :: b3 :: more)) s = .next t ∧
      t.width.toNat = b0.toNat + 256 * b1.toNat ∧ t.height.toNat = b2.toNat + 256 * b3.toNat ∧
      (t.hasAlpha = true ↔ arg ≠ 0) ∧ t.dimValid = true ∧ t.fbLen = t.width.toNat * t.height.toNat ∧
      (∀ i a, (t.fb i).read a = 0) ∧
      t.results = s.results ++ [.event (.initVideo t.width t.height t.hasAlpha)] ∧
      t = { s with width := t.width, height := t.height, hasAlpha := t.hasAlpha, dimValid := true,
                   fb0 := t.fb0, fb1 := t.fb1, chId := 0x1001, chSize := BitVec.ofNat 32 (more.length + 4),
                   chArg := arg, pay := b0 :: b1 :: b2 :: b3 :: more, ppos := 4, ctl := .idle,
                   results := t.results }

/-- INFO where it does not complete: fewer than four payload bytes under-run (R174, R74); a second INFO and dimensions that are not
positive multiples of 16 are refused (R174, D16, D17). -/
def Obligations.InfoFaultsAndRefusals : Prop :=
  ∀ (s : State) (arg : Half) (payload : List Byte),
    (s.dimValid = true → exec (.info arg payload) s = .refused .secondInfo) ∧
    (s.dimValid = false → payload.length < 4 →
      exec (.info arg payload) s =
        .next { s with chId := 0x1001, chSize := BitVec.ofNat 32 payload.length, chArg := arg, pay := payload,
                       ppos := 0, faultCode := 2, faultInfo := 4, st := .fault, ctl := .idle,
                       results := s.results ++ [.fault (.payloadUnderrun 0x1001 0)] }) ∧
    (∀ b0 b1 b2 b3 more, s.dimValid = false → payload = b0 :: b1 :: b2 :: b3 :: more →
      payload.length < 2 ^ 32 →
      (legalDimension (le16 b0 b1) = false ∨ legalDimension (le16 b2 b3) = false) →
      exec (.info arg payload) s = .refused .illegalDimensions)

/-- R175: CUSTOM appends one `UnknownChunk` record and emits `Custom` with id, argument and payload; but for the fetch registers
nothing else changes. -/
def Obligations.CustomHandsTheChunkOver : Prop :=
  ∀ (s : State) (id arg : Half) (payload : List Byte),
    exec (.custom id arg payload) s =
      .next { s with chId := id, chSize := BitVec.ofNat 32 payload.length, chArg := arg, pay := payload,
                     ppos := 0, log := s.log ++ [.unknownChunk id arg (BitVec.ofNat 32 payload.length)],
                     ctl := .idle, results := s.results ++ [.event (.custom id arg payload)] }

/-! ## Codebook -/

/-- R121: the 2×2 count is the high byte, 0 meaning 256; the 4×4 count is the low byte, and where that is 0 it is 256 if the size
exceeds what the 2×2 cells take (10 bytes a cell with alpha, 6 without), else 0. So at least one 2×2 cell is always updated, and no
4×4 cell exactly when the low byte is 0 and the size does not exceed that. -/
def Obligations.CodebookCounts : Prop :=
  ∀ (arg : Half) (size : Word) (alpha : Bool),
    let c2 := arg.toNat / 256
    let c4 := arg.toNat % 256
    let bpc := if alpha then 10 else 6
    count2 arg = (if c2 = 0 then 256 else c2) ∧ bytesPerCell2 alpha = bpc ∧
    count4 arg size alpha = (if c4 ≠ 0 then c4 else if size.toNat > count2 arg * bpc then 256 else 0) ∧
    1 ≤ count2 arg ∧ (count4 arg size alpha = 0 ↔ c4 = 0 ∧ size.toNat ≤ count2 arg * bpc)

/-- CODEBOOK completes where the payload holds the bytes its counts need: 2×2 cells 0 .. n2-1 take the converted pixels of their
records, 4×4 cells 0 .. n4-1 the pixels of the four 2×2 cells they name, as those stand after the 2×2 cells are written; all other
cells and everything else stay, no event is emitted and the next chunk is fetched (R120 to R124, R126). -/
def Obligations.CodebookRebuildsThePrefix : Prop :=
  ∀ (s : State) (arg : Half) (payload : List Byte),
    payload.length < 2 ^ 32 →
    let n2 := count2 arg
    let bpc := bytesPerCell2 s.hasAlpha
    let n4 := count4 arg (BitVec.ofNat 32 payload.length) s.hasAlpha
    n2 * bpc + 4 * n4 ≤ payload.length →
    ∃ t, exec (.codebook arg payload) s = .next t ∧
      (∀ i k, i < n2 → k < 4 →
        t.cb2.read (4 * i + k) = recordPixel s.params s.hasAlpha payload (i * bpc) k) ∧
      (∀ a, 4 * n2 ≤ a → t.cb2.read a = s.cb2.read a) ∧
      (∀ i r c, i < n4 → r < 4 → c < 4 →
        t.cb4.read (16 * i + 4 * r + c) =
          t.cb2.read (4 * (payload.getD (n2 * bpc + 4 * i + (r / 2 * 2 + c / 2)) 0#8).toNat
            + (r % 2 * 2 + c % 2))) ∧
      (∀ a, 16 * n4 ≤ a → t.cb4.read a = s.cb4.read a) ∧
      t = { s with cb2 := t.cb2, cb4 := t.cb4, chId := 0x1002,
                   chSize := BitVec.ofNat 32 payload.length, chArg := arg, pay := payload,
                   ppos := n2 * bpc + 4 * n4, ctl := .fetch }

/-- R125: where the payload is shorter than the counts need, CODEBOOK takes `IOError(PAYLOAD_UNDERRUN)`; the cells read whole before
that point keep their new contents, the cell being read and all later ones are not written. `PPOS` stands at the start of the read
that does not fit, and the fault records it (R54, R195). -/
def Obligations.CodebookUnderrunKeepsWholeCells : Prop :=
  ∀ (s : State) (arg : Half) (payload : List Byte),
    payload.length < 2 ^ 32 →
    let n2 := count2 arg
    let bpc := bytesPerCell2 s.hasAlpha
    let n4 := count4 arg (BitVec.ofNat 32 payload.length) s.hasAlpha
    let w2 := min n2 (payload.length / bpc)
    let w4 := (payload.length - n2 * bpc) / 4
    let at_ := codebookUnderrunAt payload.length n2 bpc
    payload.length < n2 * bpc + 4 * n4 →
    ∃ t, exec (.codebook arg payload) s = .next t ∧
      t.st = .fault ∧ t.faultCode = 2 ∧ t.faultInfo = 4 ∧
      t.results = s.results ++ [.fault (.payloadUnderrun 0x1002 at_)] ∧
      (∀ i k, i < w2 → k < 4 →
        t.cb2.read (4 * i + k) = recordPixel s.params s.hasAlpha payload (i * bpc) k) ∧
      (∀ a, 4 * w2 ≤ a → t.cb2.read a = s.cb2.read a) ∧
      (∀ i r c, i < w4 → r < 4 → c < 4 →
        t.cb4.read (16 * i + 4 * r + c) =
          t.cb2.read (4 * (payload.getD (n2 * bpc + 4 * i + (r / 2 * 2 + c / 2)) 0#8).toNat
            + (r % 2 * 2 + c % 2))) ∧
      (∀ a, 16 * w4 ≤ a → t.cb4.read a = s.cb4.read a) ∧
      t = { s with cb2 := t.cb2, cb4 := t.cb4, chId := 0x1002,
                   chSize := BitVec.ofNat 32 payload.length, chArg := arg, pay := payload, ppos := at_,
                   st := .fault, faultCode := 2, faultInfo := 4, ctl := .idle, results := t.results }

/-- R127: a 4×4 cell assembled from four identical 2×2 cells of solid colour C is a solid 4×4 block of colour C. -/
def Obligations.SolidCellAssemblesSolid : Prop :=
  ∀ (s t : State) (i : Nat) (j : Byte) (colour : Pixel),
    (∀ k, k < 4 → s.cb2.read (4 * j.toNat + k) = colour) →
    payRead 4 s = .ok [j, j, j, j] t →
    ∃ u, assemble4 i s = .ok () u ∧ ∀ k, k < 16 → u.cb4.read (16 * i + k) = colour

/-! ## FRAME and the block modes -/

/-- FRAME completes its start while dimensions are known: base offset from the argument, mode cursor at 0, first block next; in frame 1
every pixel of `FB[0]` is copied to `FB[1]`, in every other frame no pixel changes; everything else stays (R130, R133 to R135). -/
def Obligations.FrameBeginsAPass : Prop :=
  ∀ (s : State) (arg : Half) (payload : List Byte), s.dimValid = true →
    ∃ t, exec (.frame arg payload) s = .next t ∧
      t.argX.toNat = arg.toNat / 256 ∧ t.argY.toNat = arg.toNat % 256 ∧
      (∀ a, t.fb0.read a = s.fb0.read a) ∧
      (∀ a, t.fb1.read a =
        if s.frameCnt = 1 ∧ a < s.width.toNat * s.height.toNat then s.fb0.read a else s.fb1.read a) ∧
      t = { s with fb0 := t.fb0, fb1 := t.fb1, chId := 0x1011,
                   chSize := BitVec.ofNat 32 payload.length, chArg := arg, pay := payload, ppos := 0,
                   argX := t.argX, argY := t.argY, mbWord := 0, mbLeft := 0, ctl := .block ⟨0, 0, 0⟩ }

/-- R131: a FRAME chunk while `DIM_VALID` = 0 takes `ContractViolation(FRAME_BEFORE_INFO)` before any other effect, whatever its
payload. -/
def Obligations.FrameBeforeInfoFaults : Prop :=
  ∀ (s : State) (arg : Half) (payload : List Byte), s.dimValid = false →
    exec (.frame arg payload) s =
      .next { s with chId := 0x1011, chSize := BitVec.ofNat 32 payload.length, chArg := arg, pay := payload,
                     ppos := 0, faultCode := 3, faultInfo := 1, st := .fault, ctl := .idle,
                     results := s.results ++ [.fault .frameBeforeInfo] }

/-- MOT8, MOT4 and CCC8 complete at a block inside the frame and change nothing but where the pass stands, no pixel and no register:
after MOT the next block or sub-block comes, after CCC8 the first of the block's four sub-blocks (R139, R142, R143). -/
def Obligations.MotAndCcc8OnlyMoveThePass : Prop :=
  ∀ (s : State) (p : BlockPos) (q : Fin 4),
    (s.ctl = .block p → p.x + 8 ≤ s.width.toNat → p.y + 8 ≤ s.height.toNat →
      exec .mot8 s = .next { s with ctl := afterBlock s p } ∧ exec .ccc8 s = .next { s with ctl := .sub p 0 }) ∧
    (s.ctl = .sub p q → p.subX q + 4 ≤ s.width.toNat → p.subY q + 4 ≤ s.height.toNat →
      exec .mot4 s = .next { s with ctl := afterSub s p q })

/-- SDL8 completes at a block inside the frame: each pixel of 4×4 cell `c` fills a 2×2 footprint of the 8×8 block, and nothing else
changes (R141). -/
def Obligations.Sdl8UpsamplesTheCell : Prop :=
  ∀ (s : State) (p : BlockPos) (c : Byte),
    s.ctl = .block p → p.x + 8 ≤ s.width.toNat → p.y + 8 ≤ s.height.toNat →
    ∃ t, exec (.sdl8 c) s = .next t ∧
      DrawsBlock s t p.x p.y 8 (fun j i => s.cb4.read (16 * c.toNat + (j / 2 * 4 + i / 2))) (afterBlock s p)

/-- SDL4 completes at a sub-block inside the frame: the 4×4 cell `c` is copied as it is, and nothing else changes (R145). -/
def Obligations.Sdl4CopiesTheCell : Prop :=
  ∀ (s : State) (p : BlockPos) (q : Fin 4) (c : Byte),
    s.ctl = .sub p q → p.subX q + 4 ≤ s.width.toNat → p.subY q + 4 ≤ s.height.toNat →
    ∃ t, exec (.sdl4 c) s = .next t ∧
      DrawsBlock s t (p.subX q) (p.subY q) 4 (fun j i => s.cb4.read (16 * c.toNat + (j * 4 + i))) (afterSub s p q)

/-- CCC4 completes at a sub-block inside the frame: pixel `k` of the 2×2 cell named for quadrant `q'` goes to column `k & 1`, row
`k >> 1` of that quadrant, with `CB2` as it stands now, and nothing else changes (R146). -/
def Obligations.Ccc4AssemblesFourCells : Prop :=
  ∀ (s : State) (p : BlockPos) (q : Fin 4) (i0 i1 i2 i3 : Byte),
    s.ctl = .sub p q → p.subX q + 4 ≤ s.width.toNat → p.subY q + 4 ≤ s.height.toNat →
    ∃ t, exec (.ccc4 i0 i1 i2 i3) s = .next t ∧
      DrawsBlock s t (p.subX q) (p.subY q) 4
        (fun j i => s.cb2.read (4 * ([i0, i1, i2, i3].getD (j / 2 * 2 + i / 2) 0#8).toNat + (j % 2 * 2 + i % 2)))
        (afterSub s p q)

/-- FCC8 and FCC4 complete at a block inside the frame where the displaced source block is inside the frame, edges included: every
pixel comes from the previous buffer at the motion vector's offset, no record is logged, and nothing else changes (R140, R144,
R147). -/
def Obligations.FccCopiesFromThePreviousBuffer : Prop :=
  ∀ (s : State) (p : BlockPos) (q : Fin 4) (b : Byte) (sx sy : Nat),
    (s.ctl = .block p → p.x + 8 ≤ s.width.toNat → p.y + 8 ≤ s.height.toNat →
      (sx : Int) = p.x + (8 - (b.toNat / 16 : Nat) - s.argX.toInt) →
      (sy : Int) = p.y + (8 - (b.toNat % 16 : Nat) - s.argY.toInt) →
      sx + 8 ≤ s.width.toNat → sy + 8 ≤ s.height.toNat →
      ∃ t, exec (.fcc8 b) s = .next t ∧
        DrawsBlock s t p.x p.y 8 (fun j i => (s.fb s.prev).read ((sy + j) * s.width.toNat + (sx + i)))
          (afterBlock s p)) ∧
    (s.ctl = .sub p q → p.subX q + 4 ≤ s.width.toNat → p.subY q + 4 ≤ s.height.toNat →
      (sx : Int) = p.subX q + (8 - (b.toNat / 16 : Nat) - s.argX.toInt) →
      (sy : Int) = p.subY q + (8 - (b.toNat % 16 : Nat) - s.argY.toInt) →
      sx + 4 ≤ s.width.toNat → sy + 4 ≤ s.height.toNat →
      ∃ t, exec (.fcc4 b) s = .next t ∧
        DrawsBlock s t (p.subX q) (p.subY q) 4
          (fun j i => (s.fb s.prev).read ((sy + j) * s.width.toNat + (sx + i))) (afterSub s p q))

/-- FCC8 and FCC4 complete at a block inside the frame where the displaced source block is not inside the frame: one `OobMotion` record
is logged, no pixel and nothing else changes (R147, R200, R201). -/
def Obligations.FccOutOfBoundsIsLogged : Prop :=
  ∀ (s : State) (p : BlockPos) (q : Fin 4) (b : Byte),
    let dx : Int := 8 - (b.toNat / 16 : Nat) - s.argX.toInt
    let dy : Int := 8 - (b.toNat % 16 : Nat) - s.argY.toInt
    (s.ctl = .block p → p.x + 8 ≤ s.width.toNat → p.y + 8 ≤ s.height.toNat →
      ¬ (0 ≤ p.x + dx ∧ p.x + dx ≤ (s.width.toNat : Int) - 8 ∧ 0 ≤ p.y + dy ∧ p.y + dy ≤ (s.height.toNat : Int) - 8) →
      exec (.fcc8 b) s =
        .next { s with log := s.log ++ [.oobMotion 8 p.x p.y dx dy], ctl := afterBlock s p }) ∧
    (s.ctl = .sub p q → p.subX q + 4 ≤ s.width.toNat → p.subY q + 4 ≤ s.height.toNat →
      ¬ (0 ≤ p.subX q + dx ∧ p.subX q + dx ≤ (s.width.toNat : Int) - 4 ∧
         0 ≤ p.subY q + dy ∧ p.subY q + dy ≤ (s.height.toNat : Int) - 4) →
      exec (.fcc4 b) s =
        .next { s with log := s.log ++ [.oobMotion 4 (p.subX q) (p.subY q) dx dy], ctl := afterSub s p q })

/-- R82: the motion vector of a MOTION byte: 8 minus the high nibble minus `ARG_X`, 8 minus the low nibble minus `ARG_Y`, both in
-134..136; 0x88 with a zero argument is the stationary copy. -/
def Obligations.MotionVectorRule : Prop :=
  (∀ (b : Byte) (ax ay : BitVec 8),
    motionX b ax = 8 - (b.toNat / 16 : Nat) - ax.toInt ∧ motionY b ay = 8 - (b.toNat % 16 : Nat) - ay.toInt ∧
    -134 ≤ motionX b ax ∧ motionX b ax ≤ 136 ∧ -134 ≤ motionY b ay ∧ motionY b ay ≤ 136) ∧
  motionX 0x88#8 0 = 0 ∧ motionY 0x88#8 0 = 0

/-- R134: `ARG_X` is the high byte of the argument and `ARG_Y` the low byte, each read as signed, with the rule's examples. -/
def Obligations.BaseOffsetRule : Prop :=
  (∀ arg : Half, (baseX arg).toInt = Int.bmod (arg.toNat / 256) 256 ∧
    (baseY arg).toInt = Int.bmod (arg.toNat % 256) 256) ∧
  (baseX 0x01FF#16).toInt = 1 ∧ (baseY 0x01FF#16).toInt = -1 ∧ (baseX 0x8000#16).toInt = -128 ∧
  (baseY 0x8000#16).toInt = 0 ∧ (baseX 0x7F80#16).toInt = 127 ∧ (baseY 0x7F80#16).toInt = -128

/-- R10, R130, R137, R138, R142: block `b` of macroblock (mx, my) lies at column half `b & 1` and row half `b >> 1` of the 16×16 pixels
at (16·mx, 16·my), and sub-block `q` so in its block. After a block comes the next one in raster order, four to a macroblock, and after
the last macroblock the end of the pass; a block's four sub-blocks come in quadrant order. -/
def Obligations.BlocksComeInRasterOrder : Prop :=
  ∀ (s : State) (p : BlockPos) (q : Fin 4), p.my < s.height.toNat / 16 → p.mx < s.width.toNat / 16 →
    (p.next s.width.toNat).index s.width.toNat = p.index s.width.toNat + 1 ∧
    (p.next s.width.toNat).Legal s.width s.height ∧
    afterSub s p q = (if q = 3 then .block (p.next s.width.toNat) else .sub p (q + 1)) ∧
    p.x = 16 * p.mx + 8 * (p.b.val % 2) ∧ p.y = 16 * p.my + 8 * (p.b.val / 2) ∧
    p.subX q = p.x + 4 * (q.val % 2) ∧ p.subY q = p.y + 4 * (q.val / 2) ∧
    p.x + 8 ≤ s.width.toNat ∧ p.y + 8 ≤ s.height.toNat ∧
    p.subX q + 4 ≤ s.width.toNat ∧ p.subY q + 4 ≤ s.height.toNat

/-- R148: past the last macroblock row the step ends the pass: `FRAME_CNT` advances by one and `Video` hands over the buffer that was
current; no pixel and nothing else changes, and the two buffers change roles. No other step of the machine, one that takes a fault
included, hands over a `Video` event, or changes `FRAME_CNT` while the instance lives. -/
def Obligations.PassEndsWithVideo : Prop :=
  (∀ (s : State) (p : BlockPos), s.ctl = .block p → ¬ p.my < s.height.toNat / 16 →
    ∃ t, step s = .next t ∧
      t = { s with frameCnt := s.frameCnt + 1, ctl := .idle,
                   results := s.results ++ [.event (.video s.cur (s.fb s.cur))] } ∧
      t.cur = s.prev ∧ t.prev = s.cur) ∧
  (∀ (s t : State),
    (∀ p, s.ctl = .block p → p.my < s.height.toNat / 16) → step s = .next t →
    (t.ctl ≠ .dropped → t.frameCnt = s.frameCnt) ∧
    (∀ buffer pixels, t.results ≠ s.results ++ [.event (.video buffer pixels)]))

/-- R153: one FRAME chunk on a 16×16 frame whose every block uses SDL naming a 4×4 cell of solid colour C decodes to a full 16×16
buffer of C and one `Video` event, whatever the four mode codes left unused and the payload bytes left over (R137). -/
def Obligations.SolidFrameDecodesSolid : Prop :=
  ∀ (s : State) (arg : Half) (unused c : Byte) (more : List Byte) (colour : Pixel),
    more.length + 6 < 2 ^ 32 → s.dimValid = true → s.width = 16 → s.height = 16 →
    (∀ k, k < 16 → s.cb4.read (16 * c.toNat + k) = colour) →
    ∃ t u, exec (.frame arg (unused :: 0xAA#8 :: c :: c :: c :: c :: more)) s = .next t ∧ RunsTo 5 t u ∧
      u.ctl = .idle ∧ u.frameCnt = s.frameCnt + 1 ∧
      u.results = s.results ++ [.event (.video s.cur (u.fb s.cur))] ∧
      ∀ a, a < 256 → (u.fb s.cur).read a = colour

/-! ## Audio -/

/-- R160: `SQUARE_LUT[i]` is `i*i` for `i` up to 127 and `-(i-128)*(i-128)` from 128 on, with the source's three checks; every entry is
in -16129..16129. -/
def Obligations.SquareTable : Prop :=
  (∀ i : Byte, squareLut i = if i.toNat ≤ 127 then (i.toNat : Int) ^ 2 else -((i.toNat : Int) - 128) ^ 2) ∧
  (∀ i : Byte, -16129 ≤ squareLut i ∧ squareLut i ≤ 16129) ∧
  squareLut 5#8 = 25 ∧ squareLut 128#8 = 0 ∧ squareLut 131#8 = -9

/-- R163: `add16` on the exact sum: wrap-around modulo 2^16, clamping, or a fault exactly outside -32768..32767; inside that range the
three agree. -/
def Obligations.AccumulatorStep : Prop :=
  ∀ (a : Half) (d : Int),
    let sum := a.toInt + d
    (∃ r, add16 .wrap a d = some r ∧ r.toInt = Int.bmod sum 65536) ∧
    (∃ r, add16 .saturate a d = some r ∧ r.toInt = max (-32768) (min 32767 sum)) ∧
    (add16 .fault a d = none ↔ sum < -32768 ∨ 32767 < sum) ∧
    (-32768 ≤ sum → sum ≤ 32767 → ∀ mode, ∃ r, add16 mode a d = some r ∧ r.toInt = sum)

/-- R165: a seed byte becomes the high byte of the accumulator; mono takes the low byte of the argument so, or the whole argument,
as `MONO_SEED` says. -/
def Obligations.SeedRule : Prop :=
  ∀ arg : Half,
    (monoSeed .lowByteShifted arg).toNat = arg.toNat % 256 * 256 ∧ monoSeed .wholeArg arg = arg ∧
    (seedOfByte (highByte arg)).toNat = arg.toNat / 256 * 256 ∧
    (seedOfByte (lowByte arg)).toNat = arg.toNat % 256 * 256

/-- SND_MONO completes, under `ACC_OVERFLOW` = `fault` where the samples decode without overflow: one sample a payload byte, each the
accumulator after its addition, from the mono seed; one `Audio` event; no video state and nothing else changes (R161, R164, R166). That
`ACC[1]` is among what stays is R161's list of the state written: R34's seeding of it is at the chunk's start, before SND_MONO's own
rule, which is the model's reading (log 27; StepRunsTheChunkAtTheStreamPosition). -/
def Obligations.SndMonoDecodesEveryByte : Prop :=
  ∀ (s : State) (arg : Half) (payload : List Byte),
    let seed := monoSeed s.params.monoSeed arg
    let Decodes (out : List Half) : Prop := out.length = payload.length ∧
      ChannelDecodes s.params.accOverflow seed 1 0 payload.length payload out
    payload.length < 2 ^ 32 → (s.params.accOverflow = .fault → ∃ out, Decodes out) →
    ∃ t out, exec (.sndMono arg payload) s = .next t ∧ Decodes out ∧
      t = { s with acc0 := out.getLastD seed, audBuf := out, audLen := payload.length, audCh := 1,
                   chId := 0x1020, chSize := BitVec.ofNat 32 payload.length, chArg := arg, pay := payload,
                   ppos := payload.length, ctl := .idle, results := s.results ++ [.event (.audio 1 out)] }

/-- SND_STEREO completes, under `ACC_OVERFLOW` = `fault` where the samples decode without overflow: `floor(size/2)` interleaved pairs, left
from the even bytes and right from the odd ones, each channel from its own seed byte; an odd last byte is not decoded; one `Audio`
event; nothing else changes (R162, R164, R166). -/
def Obligations.SndStereoDecodesPairs : Prop :=
  ∀ (s : State) (arg : Half) (payload : List Byte),
    let n := payload.length / 2
    let Decodes (out : List Half) : Prop := out.length = 2 * n ∧
      ChannelDecodes s.params.accOverflow (seedOfByte (highByte arg)) 2 0 n payload out ∧
      ChannelDecodes s.params.accOverflow (seedOfByte (lowByte arg)) 2 1 n payload out
    payload.length < 2 ^ 32 → (s.params.accOverflow = .fault → ∃ out, Decodes out) →
    ∃ t out, exec (.sndStereo arg payload) s = .next t ∧ Decodes out ∧
      (n = 0 → t.acc0 = seedOfByte (highByte arg) ∧ t.acc1 = seedOfByte (lowByte arg)) ∧
      (0 < n → some t.acc0 = out[2 * n - 2]? ∧ some t.acc1 = out[2 * n - 1]?) ∧
      t = { s with acc0 := t.acc0, acc1 := t.acc1, audBuf := out, audLen := 2 * n, audCh := 2,
                   chId := 0x1021, chSize := BitVec.ofNat 32 payload.length, chArg := arg, pay := payload,
                   ppos := 2 * n, ctl := .idle, results := s.results ++ [.event (.audio 2 out)] }

/-- SND_MONO under `ACC_OVERFLOW` = `fault`: at the first sample `k` whose sum overflows, `ContractViolation(ACC_OVERFLOW)` is taken; the
samples before it stay written, and no event is emitted (R161, R163, R198). That `ACC[1]` stays is R161's list of
the state written; R34's seeding of it is at the chunk's start (log 27). -/
def Obligations.SndMonoOverflowFaults : Prop :=
  ∀ (s : State) (arg : Half) (payload : List Byte) (out : List Half),
    let seed := monoSeed s.params.monoSeed arg
    let k := out.length
    payload.length < 2 ^ 32 → s.params.accOverflow = .fault → k < payload.length →
    ChannelDecodes .fault seed 1 0 k payload out →
    add16 .fault (out.getLastD seed) (squareLut (payload.getD k 0#8)) = none →
    ∃ t, exec (.sndMono arg payload) s = .next t ∧
      t.st = .fault ∧ t.faultCode = 3 ∧ t.faultInfo = 2 ∧ t.acc0 = out.getLastD seed ∧
      t.audBuf.take k = out ∧ t.results = s.results ++ [.fault (.accOverflow 0 k)] ∧
      t = { s with acc0 := t.acc0, audBuf := t.audBuf,
                   audLen := payload.length, audCh := 1,
                   chId := 0x1020, chSize := BitVec.ofNat 32 payload.length, chArg := arg, pay := payload,
                   ppos := k + 1, st := .fault, faultCode := 3, faultInfo := 2, ctl := .idle,
                   results := t.results }

/-- SND_STEREO under `ACC_OVERFLOW` = `fault`: where the `k` samples before decode and sample `k` of the interleaved order overflows,
`ContractViolation(ACC_OVERFLOW)` is taken with its channel `k % 2`; the samples and sums before it stay written, and no event is
emitted (R162, R163, R195, R198). The sample index recorded is `k / 2`, the index within the channel: R195 says only "sample index",
and that reading is the model's choice (log 17). -/
def Obligations.SndStereoOverflowFaults : Prop :=
  ∀ (s : State) (arg : Half) (payload : List Byte) (out : List Half),
    let left := seedOfByte (highByte arg)
    let right := seedOfByte (lowByte arg)
    let k := out.length
    let l := if k = 0 then left else out.getD ((k - 1) / 2 * 2) 0#16
    let r := if k < 2 then right else out.getD ((k / 2 - 1) * 2 + 1) 0#16
    payload.length < 2 ^ 32 → s.params.accOverflow = .fault → k < 2 * (payload.length / 2) →
    ChannelDecodes .fault left 2 0 ((k + 1) / 2) payload out →
    ChannelDecodes .fault right 2 1 (k / 2) payload out →
    add16 .fault (if k % 2 = 0 then l else r) (squareLut (payload.getD k 0#8)) = none →
    ∃ t, exec (.sndStereo arg payload) s = .next t ∧
      t.st = .fault ∧ t.audBuf.take k = out ∧
      t.results = s.results ++ [.fault (.accOverflow (k % 2) (k / 2))] ∧
      t = { s with acc0 := l, acc1 := r, audBuf := t.audBuf, audLen := 2 * (payload.length / 2), audCh := 2,
                   chId := 0x1021, chSize := BitVec.ofNat 32 payload.length, chArg := arg, pay := payload,
                   ppos := k + 1, st := .fault, faultCode := 3, faultInfo := 2, ctl := .idle,
                   results := t.results }

/-! ## Colourspace -/

/-- R115, for every `CSC` of the form it requires, `CSC_DEFAULT` among them: in `RGBA8888` the alpha input stands unchanged in bits
31:24 and does not touch the other bits; in `BGR565` it has no effect. A `CSC` of another form is open (D4, log 4). Whatever the `CSC`,
what it gives is packed as R111 and R112 lay it out: R[7:3], G[7:2], B[7:3] from bit 15 down with alpha dropped, or A, B, G, R from
bit 31 down. -/
def Obligations.AlphaPassesThrough : Prop :=
  PassesAlpha .cscDefault ∧
  (∀ (p : Params) (y cb cr a a' : Byte), PassesAlpha p.csc →
    (p.pixFmt = .rgba8888 →
      (pix p y cb cr a).toNat / 2 ^ 24 = a.toNat ∧
      (pix p y cb cr a).toNat % 2 ^ 24 = (pix p y cb cr a').toNat % 2 ^ 24) ∧
    (p.pixFmt = .bgr565 → pix p y cb cr a = pix p y cb cr a')) ∧
  (∀ r g b a : Byte,
    (pack .bgr565 (r, g, b, a)).toNat = r.toNat / 8 * 2 ^ 11 + g.toNat / 4 * 2 ^ 5 + b.toNat / 8 ∧
    (pack .rgba8888 (r, g, b, a)).toNat = a.toNat * 2 ^ 24 + b.toNat * 2 ^ 16 + g.toNat * 2 ^ 8 + r.toNat) ∧
  (∀ (p : Params) (y cb cr a : Byte), pix p y cb cr a = pack p.pixFmt (cscRgba p.csc y cb cr a)) ∧
  (∀ (p : Params) (y cb cr a : Byte), p.pixFmt = .bgr565 → (pix p y cb cr a).toNat < 2 ^ 16)

/-- R113's corner case under `CSC_DEFAULT`: with Cb = Cr = 128, R = G = B = Y exactly; and its colour example (81, 90, 240). -/
def Obligations.NeutralChromaIsGrey : Prop :=
  (∀ y : Byte, cscDefaultRgb y 128#8 128#8 = (y, y, y)) ∧
  cscDefaultRgb 81#8 90#8 240#8 = (238#8, 15#8, 13#8)

/-! ## Rules of the whole machine -/

/-- R194, R198: taking a fault writes `FAULT_CODE` and `FAULT_INFO` as R195 numbers the fault, sets `ST` to `FAULT`, ends the command and
hands the fault to the host; it changes nothing else. -/
def Obligations.FaultEntry : Prop :=
  ∀ (c : Cause) (s : State),
    takeFault c s = { s with faultCode := c.code, faultInfo := c.info, st := .fault, ctl := .idle,
                             results := s.results ++ [.fault c] } ∧
    (c.code, c.info) = (match c with
      | .badMagic _          => (1#2, 1#4)
      | .openRead            => (2#2, 1#4)
      | .headerRead          => (2#2, 2#4)
      | .payloadRead _ _     => (2#2, 3#4)
      | .payloadUnderrun _ _ => (2#2, 4#4)
      | .frameBeforeInfo     => (3#2, 1#4)
      | .accOverflow _ _     => (3#2, 2#4))

/-- R197: after a fault the only command with a result is `DROP`: a step between commands either keeps the whole state, with no command
pending, or runs `DROP`. -/
def Obligations.AfterAFaultOnlyDrop : Prop :=
  ∀ s t : State, s.ctl = .idle → s.st = .fault → step s = .next t →
    (s.host = [] ∧ t = s) ∨ (∃ rest, s.host = .drop :: rest ∧ t.ctl = .dropped)

/-- Who writes what (R22, R25, R26, R29 to R31, R104): a command that completes changes `CB2` and `CB4` only if it is CODEBOOK, the
dimensions only if it is INFO, `FRAMERATE` only if it is the stream header, `SPOS` only if it is `OPEN`, and the buffers only if it is
INFO, FRAME or one of the modes that draw; `DROP` ends all of it. -/
def Obligations.WhoWritesWhat : Prop :=
  ∀ (i : Instr) (s t : State), exec i s = .next t → i ≠ .hostDrop →
    ((∀ arg payload, i ≠ .codebook arg payload) → t.cb2 = s.cb2 ∧ t.cb4 = s.cb4) ∧
    ((∀ arg payload, i ≠ .info arg payload) →
      t.width = s.width ∧ t.height = s.height ∧ t.hasAlpha = s.hasAlpha ∧ t.dimValid = s.dimValid) ∧
    ((∀ g pad f, i ≠ .sig g pad f) → t.framerate = s.framerate) ∧
    ((∀ source, i ≠ .hostOpen source) → t.spos = s.spos) ∧
    ((∀ arg payload, i ≠ .info arg payload ∧ i ≠ .frame arg payload) →
      (∀ b, i ≠ .fcc8 b ∧ i ≠ .sdl8 b ∧ i ≠ .fcc4 b ∧ i ≠ .sdl4 b) → (∀ a b c d, i ≠ .ccc4 a b c d) →
      t.fb0 = s.fb0 ∧ t.fb1 = s.fb1) ∧
    ((∀ arg payload, i ≠ .info arg payload) → t.fb s.prev = s.fb s.prev)

/-- R26: dimensions, once set, are fixed for the stream's lifetime: no step of the machine changes them while the instance lives. -/
def Obligations.DimensionsAreFixedOnceSet : Prop :=
  ∀ s t : State, s.dimValid = true → step s = .next t → t.ctl ≠ .dropped →
    t.dimValid = true ∧ t.width = s.width ∧ t.height = s.height ∧ t.hasAlpha = s.hasAlpha

/-- R6 and R5: no step changes a parameter of the instance, `PIXFMT` among them. -/
def Obligations.ParametersNeverChange : Prop :=
  ∀ s t : State, step s = .next t → t.params = s.params

/-- R22: while the block plays, `SPOS` never moves backwards. -/
def Obligations.StreamPositionOnlyIncreases : Prop :=
  ∀ s t : State, s.st = .playing → step s = .next t → t.st = .playing → s.spos ≤ t.spos

/-- R38 and R181: a step appends to `LOG` and to what the host has been handed, and takes nothing away; it hands over at most one
result, and only where it ends a command. `DROP` clears `LOG`. -/
def Obligations.OutputsAreAppended : Prop :=
  ∀ s t : State, step s = .next t →
    (t.ctl = .dropped ∨ ∃ l, t.log = s.log ++ l) ∧
    (t.results = s.results ∨ (t.ctl = .idle ∧ ∃ r, t.results = s.results ++ [r]))

/-- R25, R38: no rule of the block reads `LOG` or `FRAMERATE`: two states that differ in nothing else take steps that differ in nothing
else. -/
def Obligations.LogAndFramerateAreNeverRead : Prop :=
  ∀ (s : State) (l : List LogRec) (f : Half),
    match step s, step { s with log := l, framerate := f } with
    | .next t, .next t'       => { t' with log := t.log, framerate := t.framerate } = t
    | .fault a, .fault b      => a = b
    | .refused a, .refused b  => a = b
    | _, _                    => False

/-- R172, R181, R222: every host command ends: from any state the invariant admits, with a source that answers its reads, finitely many
steps lead to rest with exactly one result handed over, or to an INFO chunk the spec gives no meaning (R174). -/
def Obligations.EveryCommandEnds : Prop :=
  ∀ s : State, s.Inv → s.SourceAnswers → ¬ s.AtRest →
    ∃ k, (∃ t, RunsTo k s t ∧ t.ctl = .idle ∧ ∃ r, t.results = s.results ++ [r]) ∨
      Sys2Proof.core.run k s = .refused .secondInfo ∨ Sys2Proof.core.run k s = .refused .illegalDimensions
end

