-- ==== Sys2Proof/Laws/Codec.lean ====
section
/-! SUPPORT. The byte helpers of the decoder and the encoder undo one another. -/

namespace Sys2Proof

@[simp] theorem le16_bytes (v : Half) : le16 (byteAt v 0) (byteAt v 1) = v := by
  unfold le16 byteAt
  ext i hi
  simp only [BitVec.getElem_append, BitVec.getElem_extractLsb']
  split
  · simp [BitVec.getLsbD_eq_getElem hi]
  · next h => simp [show 8 * 1 + (i - 8) = i by omega, BitVec.getLsbD_eq_getElem hi]

@[simp] theorem le32_bytes (v : Word) : le32 (byteAt v 0) (byteAt v 1) (byteAt v 2) (byteAt v 3) = v := by
  unfold le32 byteAt
  ext i hi
  simp only [BitVec.getElem_append, BitVec.getElem_extractLsb']
  split
  · simp [BitVec.getLsbD_eq_getElem hi]
  · split
    · next h h' => simp [show 8 * 1 + (i - 8) = i by omega, BitVec.getLsbD_eq_getElem hi]
    · split
      · next h h' h'' => simp [show 8 * 2 + (i - 8 - 8) = i by omega, BitVec.getLsbD_eq_getElem hi]
      · next h h' h'' => simp [show 8 * 3 + (i - 8 - 8 - 8) = i by omega, BitVec.getLsbD_eq_getElem hi]

theorem le16_toNat (b0 b1 : Byte) : (le16 b0 b1).toNat = b0.toNat + 256 * b1.toNat := by
  unfold le16
  rw [BitVec.toNat_append, Nat.shiftLeft_eq, Nat.mul_comm, ← Nat.two_pow_add_eq_or_of_lt (by omega)]
  omega

theorem lowByte_toNat (v : Half) : (lowByte v).toNat = v.toNat % 256 := by
  simp [lowByte, byteAt]

theorem highByte_toNat (v : Half) : (highByte v).toNat = v.toNat / 256 := by
  simp only [highByte, byteAt, BitVec.extractLsb'_toNat, Nat.shiftRight_eq_div_pow]
  have := v.isLt
  omega

@[simp] theorem byteAt_le16_zero (b0 b1 : Byte) : byteAt (le16 b0 b1) 0 = b0 := by
  apply BitVec.eq_of_toNat_eq
  have := lowByte_toNat (le16 b0 b1)
  rw [lowByte, le16_toNat] at this
  omega

@[simp] theorem byteAt_le16_one (b0 b1 : Byte) : byteAt (le16 b0 b1) 1 = b1 := by
  apply BitVec.eq_of_toNat_eq
  have := highByte_toNat (le16 b0 b1)
  rw [highByte, le16_toNat] at this
  omega

theorem bytes16_le16 (b0 b1 : Byte) : bytes16 (le16 b0 b1) = [b0, b1] := by
  simp [bytes16]

theorem bytes32_le32 (b0 b1 b2 b3 : Byte) : bytes32 (le32 b0 b1 b2 b3) = [b0, b1, b2, b3] := by
  have e : (le32 b0 b1 b2 b3).toNat =
      b0.toNat + 256 * b1.toNat + 65536 * b2.toNat + 16777216 * b3.toNat := by
    unfold le32
    simp only [BitVec.toNat_append, Nat.shiftLeft_eq]
    rw [Nat.mul_comm (b3.toNat), ← Nat.two_pow_add_eq_or_of_lt (by omega), Nat.mul_comm _ (2 ^ 8),
      ← Nat.two_pow_add_eq_or_of_lt (by omega), Nat.mul_comm _ (2 ^ 8), ← Nat.two_pow_add_eq_or_of_lt (by omega)]
    omega
  simp only [bytes32, List.cons.injEq, and_true]
  refine ⟨?_, ?_, ?_, ?_⟩ <;>
  · apply BitVec.eq_of_toNat_eq
    simp only [byteAt, BitVec.extractLsb'_toNat, e, Nat.shiftRight_eq_div_pow]
    omega

/-- A chunk header decodes to its fields. -/
theorem decodeChunkHeader_encode (id arg : Half) (size : Word) (rest : List Byte) :
    decodeChunkHeader (bytes16 id ++ bytes32 size ++ bytes16 arg ++ rest) = .ok (⟨id, size, arg⟩, rest) := by
  simp [bytes16, bytes32, decodeChunkHeader]

/-- A whole chunk decodes to its type, argument and payload, with what stands after it. -/
theorem decodeChunk_encode (id arg : Half) (payload rest : List Byte) (h : payload.length < 2 ^ 32) :
    decodeChunk (encodeChunk id arg payload ++ rest) = .ok (chunkOf id arg payload, rest) := by
  have hs : (BitVec.ofNat 32 payload.length).toNat = payload.length := by
    rw [BitVec.toNat_ofNat, Nat.mod_eq_of_lt h]
  unfold decodeChunk encodeChunk
  rw [List.append_assoc, decodeChunkHeader_encode]
  simp [hs]

/-- What decodes as a chunk header has eight bytes, and they alone decode to it. -/
theorem decodeChunkHeader_inv {bytes body : List Byte} {h : ChunkHeader} (e : decodeChunkHeader bytes = .ok (h, body)) :
    8 ≤ bytes.length ∧ body = bytes.drop 8 ∧ decodeChunkHeader (bytes.take 8) = .ok (h, []) := by
  rcases bytes with _ | ⟨b0, _ | ⟨b1, _ | ⟨b2, _ | ⟨b3, _ | ⟨b4, _ | ⟨b5, _ | ⟨b6, _ | ⟨b7, t⟩⟩⟩⟩⟩⟩⟩⟩ <;>
    simp only [decodeChunkHeader, reduceCtorEq] at e
  cases e
  exact ⟨by simp, rfl, rfl⟩

/-- A mode decodes to a command of its depth. -/
theorem decodeMode_level {d : Depth} {code : BitVec 2} {bytes rest : List Byte} {i : Instr}
    (h : decodeMode d code bytes = .ok (i, rest)) : i.level = .block d := by
  unfold decodeMode at h
  split_ifs at h <;> cases d <;> rcases bytes with _ | ⟨b0, _ | ⟨b1, _ | ⟨b2, _ | ⟨b3, t⟩⟩⟩⟩ <;> cases h <;> rfl

/-- The operand bytes a mode needs are enough for it. -/
theorem decodeMode_total (d : Depth) (code : BitVec 2) (ops : List Byte) (h : ops.length = operandBytes d code) :
    ∃ i, decodeMode d code ops = .ok (i, []) := by
  unfold operandBytes at h
  unfold decodeMode
  rcases ops with _ | ⟨b0, _ | ⟨b1, _ | ⟨b2, _ | ⟨b3, _ | ⟨b4, t⟩⟩⟩⟩⟩ <;> cases d <;> split_ifs at h ⊢ <;> simp_all

end Sys2Proof
end

