-- ==== Sys2Proof/Laws/State.lean ====
section
/-! SUPPORT. One lemma per field per named update of State, so that no later proof unfolds a record update. -/

namespace Sys2Proof.Machine

variable (s : State)

/-! ## State.setFb -/

@[simp] theorem State.setFb_params (i : Fin 2) (m : PixMem) : (s.setFb i m).params = s.params := rfl
@[simp] theorem State.setFb_src (i : Fin 2) (m : PixMem) : (s.setFb i m).src = s.src := rfl
@[simp] theorem State.setFb_srcAns (i : Fin 2) (m : PixMem) : (s.setFb i m).srcAns = s.srcAns := rfl
@[simp] theorem State.setFb_ctl (i : Fin 2) (m : PixMem) : (s.setFb i m).ctl = s.ctl := rfl
@[simp] theorem State.setFb_host (i : Fin 2) (m : PixMem) : (s.setFb i m).host = s.host := rfl
@[simp] theorem State.setFb_results (i : Fin 2) (m : PixMem) : (s.setFb i m).results = s.results := rfl
@[simp] theorem State.setFb_freeCtr (i : Fin 2) (m : PixMem) : (s.setFb i m).freeCtr = s.freeCtr := rfl
@[simp] theorem State.setFb_st (i : Fin 2) (m : PixMem) : (s.setFb i m).st = s.st := rfl
@[simp] theorem State.setFb_spos (i : Fin 2) (m : PixMem) : (s.setFb i m).spos = s.spos := rfl
@[simp] theorem State.setFb_chId (i : Fin 2) (m : PixMem) : (s.setFb i m).chId = s.chId := rfl
@[simp] theorem State.setFb_chSize (i : Fin 2) (m : PixMem) : (s.setFb i m).chSize = s.chSize := rfl
@[simp] theorem State.setFb_chArg (i : Fin 2) (m : PixMem) : (s.setFb i m).chArg = s.chArg := rfl
@[simp] theorem State.setFb_pay (i : Fin 2) (m : PixMem) : (s.setFb i m).pay = s.pay := rfl
@[simp] theorem State.setFb_ppos (i : Fin 2) (m : PixMem) : (s.setFb i m).ppos = s.ppos := rfl
@[simp] theorem State.setFb_framerate (i : Fin 2) (m : PixMem) : (s.setFb i m).framerate = s.framerate := rfl
@[simp] theorem State.setFb_width (i : Fin 2) (m : PixMem) : (s.setFb i m).width = s.width := rfl
@[simp] theorem State.setFb_height (i : Fin 2) (m : PixMem) : (s.setFb i m).height = s.height := rfl
@[simp] theorem State.setFb_dimValid (i : Fin 2) (m : PixMem) : (s.setFb i m).dimValid = s.dimValid := rfl
@[simp] theorem State.setFb_hasAlpha (i : Fin 2) (m : PixMem) : (s.setFb i m).hasAlpha = s.hasAlpha := rfl
@[simp] theorem State.setFb_frameCnt (i : Fin 2) (m : PixMem) : (s.setFb i m).frameCnt = s.frameCnt := rfl
@[simp] theorem State.setFb_cb2 (i : Fin 2) (m : PixMem) : (s.setFb i m).cb2 = s.cb2 := rfl
@[simp] theorem State.setFb_cb4 (i : Fin 2) (m : PixMem) : (s.setFb i m).cb4 = s.cb4 := rfl
@[simp] theorem State.setFb_fb0 (i : Fin 2) (m : PixMem) : (s.setFb i m).fb0 = if i = 0 then m else s.fb0 := rfl
@[simp] theorem State.setFb_fb1 (i : Fin 2) (m : PixMem) : (s.setFb i m).fb1 = if i = 0 then s.fb1 else m := rfl
@[simp] theorem State.setFb_mbWord (i : Fin 2) (m : PixMem) : (s.setFb i m).mbWord = s.mbWord := rfl
@[simp] theorem State.setFb_mbLeft (i : Fin 2) (m : PixMem) : (s.setFb i m).mbLeft = s.mbLeft := rfl
@[simp] theorem State.setFb_argX (i : Fin 2) (m : PixMem) : (s.setFb i m).argX = s.argX := rfl
@[simp] theorem State.setFb_argY (i : Fin 2) (m : PixMem) : (s.setFb i m).argY = s.argY := rfl
@[simp] theorem State.setFb_acc0 (i : Fin 2) (m : PixMem) : (s.setFb i m).acc0 = s.acc0 := rfl
@[simp] theorem State.setFb_acc1 (i : Fin 2) (m : PixMem) : (s.setFb i m).acc1 = s.acc1 := rfl
@[simp] theorem State.setFb_audBuf (i : Fin 2) (m : PixMem) : (s.setFb i m).audBuf = s.audBuf := rfl
@[simp] theorem State.setFb_audLen (i : Fin 2) (m : PixMem) : (s.setFb i m).audLen = s.audLen := rfl
@[simp] theorem State.setFb_audCh (i : Fin 2) (m : PixMem) : (s.setFb i m).audCh = s.audCh := rfl
@[simp] theorem State.setFb_faultCode (i : Fin 2) (m : PixMem) : (s.setFb i m).faultCode = s.faultCode := rfl
@[simp] theorem State.setFb_faultInfo (i : Fin 2) (m : PixMem) : (s.setFb i m).faultInfo = s.faultInfo := rfl
@[simp] theorem State.setFb_log (i : Fin 2) (m : PixMem) : (s.setFb i m).log = s.log := rfl

/-! ## takeFault -/

@[simp] theorem takeFault_params (c : Cause) : (takeFault c s).params = s.params := rfl
@[simp] theorem takeFault_src (c : Cause) : (takeFault c s).src = s.src := rfl
@[simp] theorem takeFault_srcAns (c : Cause) : (takeFault c s).srcAns = s.srcAns := rfl
@[simp] theorem takeFault_ctl (c : Cause) : (takeFault c s).ctl = .idle := rfl
@[simp] theorem takeFault_host (c : Cause) : (takeFault c s).host = s.host := rfl
@[simp] theorem takeFault_results (c : Cause) : (takeFault c s).results = s.results ++ [.fault c] := rfl
@[simp] theorem takeFault_freeCtr (c : Cause) : (takeFault c s).freeCtr = s.freeCtr := rfl
@[simp] theorem takeFault_st (c : Cause) : (takeFault c s).st = .fault := rfl
@[simp] theorem takeFault_spos (c : Cause) : (takeFault c s).spos = s.spos := rfl
@[simp] theorem takeFault_chId (c : Cause) : (takeFault c s).chId = s.chId := rfl
@[simp] theorem takeFault_chSize (c : Cause) : (takeFault c s).chSize = s.chSize := rfl
@[simp] theorem takeFault_chArg (c : Cause) : (takeFault c s).chArg = s.chArg := rfl
@[simp] theorem takeFault_pay (c : Cause) : (takeFault c s).pay = s.pay := rfl
@[simp] theorem takeFault_ppos (c : Cause) : (takeFault c s).ppos = s.ppos := rfl
@[simp] theorem takeFault_framerate (c : Cause) : (takeFault c s).framerate = s.framerate := rfl
@[simp] theorem takeFault_width (c : Cause) : (takeFault c s).width = s.width := rfl
@[simp] theorem takeFault_height (c : Cause) : (takeFault c s).height = s.height := rfl
@[simp] theorem takeFault_dimValid (c : Cause) : (takeFault c s).dimValid = s.dimValid := rfl
@[simp] theorem takeFault_hasAlpha (c : Cause) : (takeFault c s).hasAlpha = s.hasAlpha := rfl
@[simp] theorem takeFault_frameCnt (c : Cause) : (takeFault c s).frameCnt = s.frameCnt := rfl
@[simp] theorem takeFault_cb2 (c : Cause) : (takeFault c s).cb2 = s.cb2 := rfl
@[simp] theorem takeFault_cb4 (c : Cause) : (takeFault c s).cb4 = s.cb4 := rfl
@[simp] theorem takeFault_fb0 (c : Cause) : (takeFault c s).fb0 = s.fb0 := rfl
@[simp] theorem takeFault_fb1 (c : Cause) : (takeFault c s).fb1 = s.fb1 := rfl
@[simp] theorem takeFault_mbWord (c : Cause) : (takeFault c s).mbWord = s.mbWord := rfl
@[simp] theorem takeFault_mbLeft (c : Cause) : (takeFault c s).mbLeft = s.mbLeft := rfl
@[simp] theorem takeFault_argX (c : Cause) : (takeFault c s).argX = s.argX := rfl
@[simp] theorem takeFault_argY (c : Cause) : (takeFault c s).argY = s.argY := rfl
@[simp] theorem takeFault_acc0 (c : Cause) : (takeFault c s).acc0 = s.acc0 := rfl
@[simp] theorem takeFault_acc1 (c : Cause) : (takeFault c s).acc1 = s.acc1 := rfl
@[simp] theorem takeFault_audBuf (c : Cause) : (takeFault c s).audBuf = s.audBuf := rfl
@[simp] theorem takeFault_audLen (c : Cause) : (takeFault c s).audLen = s.audLen := rfl
@[simp] theorem takeFault_audCh (c : Cause) : (takeFault c s).audCh = s.audCh := rfl
@[simp] theorem takeFault_faultCode (c : Cause) : (takeFault c s).faultCode = c.code := rfl
@[simp] theorem takeFault_faultInfo (c : Cause) : (takeFault c s).faultInfo = c.info := rfl
@[simp] theorem takeFault_log (c : Cause) : (takeFault c s).log = s.log := rfl

/-! ## emit -/

@[simp] theorem emit_params (e : Event) : (emit e s).params = s.params := rfl
@[simp] theorem emit_src (e : Event) : (emit e s).src = s.src := rfl
@[simp] theorem emit_srcAns (e : Event) : (emit e s).srcAns = s.srcAns := rfl
@[simp] theorem emit_ctl (e : Event) : (emit e s).ctl = .idle := rfl
@[simp] theorem emit_host (e : Event) : (emit e s).host = s.host := rfl
@[simp] theorem emit_results (e : Event) : (emit e s).results = s.results ++ [.event e] := rfl
@[simp] theorem emit_freeCtr (e : Event) : (emit e s).freeCtr = s.freeCtr := rfl
@[simp] theorem emit_st (e : Event) : (emit e s).st = s.st := rfl
@[simp] theorem emit_spos (e : Event) : (emit e s).spos = s.spos := rfl
@[simp] theorem emit_chId (e : Event) : (emit e s).chId = s.chId := rfl
@[simp] theorem emit_chSize (e : Event) : (emit e s).chSize = s.chSize := rfl
@[simp] theorem emit_chArg (e : Event) : (emit e s).chArg = s.chArg := rfl
@[simp] theorem emit_pay (e : Event) : (emit e s).pay = s.pay := rfl
@[simp] theorem emit_ppos (e : Event) : (emit e s).ppos = s.ppos := rfl
@[simp] theorem emit_framerate (e : Event) : (emit e s).framerate = s.framerate := rfl
@[simp] theorem emit_width (e : Event) : (emit e s).width = s.width := rfl
@[simp] theorem emit_height (e : Event) : (emit e s).height = s.height := rfl
@[simp] theorem emit_dimValid (e : Event) : (emit e s).dimValid = s.dimValid := rfl
@[simp] theorem emit_hasAlpha (e : Event) : (emit e s).hasAlpha = s.hasAlpha := rfl
@[simp] theorem emit_frameCnt (e : Event) : (emit e s).frameCnt = s.frameCnt := rfl
@[simp] theorem emit_cb2 (e : Event) : (emit e s).cb2 = s.cb2 := rfl
@[simp] theorem emit_cb4 (e : Event) : (emit e s).cb4 = s.cb4 := rfl
@[simp] theorem emit_fb0 (e : Event) : (emit e s).fb0 = s.fb0 := rfl
@[simp] theorem emit_fb1 (e : Event) : (emit e s).fb1 = s.fb1 := rfl
@[simp] theorem emit_mbWord (e : Event) : (emit e s).mbWord = s.mbWord := rfl
@[simp] theorem emit_mbLeft (e : Event) : (emit e s).mbLeft = s.mbLeft := rfl
@[simp] theorem emit_argX (e : Event) : (emit e s).argX = s.argX := rfl
@[simp] theorem emit_argY (e : Event) : (emit e s).argY = s.argY := rfl
@[simp] theorem emit_acc0 (e : Event) : (emit e s).acc0 = s.acc0 := rfl
@[simp] theorem emit_acc1 (e : Event) : (emit e s).acc1 = s.acc1 := rfl
@[simp] theorem emit_audBuf (e : Event) : (emit e s).audBuf = s.audBuf := rfl
@[simp] theorem emit_audLen (e : Event) : (emit e s).audLen = s.audLen := rfl
@[simp] theorem emit_audCh (e : Event) : (emit e s).audCh = s.audCh := rfl
@[simp] theorem emit_faultCode (e : Event) : (emit e s).faultCode = s.faultCode := rfl
@[simp] theorem emit_faultInfo (e : Event) : (emit e s).faultInfo = s.faultInfo := rfl
@[simp] theorem emit_log (e : Event) : (emit e s).log = s.log := rfl

/-! ## logRecord -/

@[simp] theorem logRecord_params (r : LogRec) : (logRecord r s).params = s.params := rfl
@[simp] theorem logRecord_src (r : LogRec) : (logRecord r s).src = s.src := rfl
@[simp] theorem logRecord_srcAns (r : LogRec) : (logRecord r s).srcAns = s.srcAns := rfl
@[simp] theorem logRecord_ctl (r : LogRec) : (logRecord r s).ctl = s.ctl := rfl
@[simp] theorem logRecord_host (r : LogRec) : (logRecord r s).host = s.host := rfl
@[simp] theorem logRecord_results (r : LogRec) : (logRecord r s).results = s.results := rfl
@[simp] theorem logRecord_freeCtr (r : LogRec) : (logRecord r s).freeCtr = s.freeCtr := rfl
@[simp] theorem logRecord_st (r : LogRec) : (logRecord r s).st = s.st := rfl
@[simp] theorem logRecord_spos (r : LogRec) : (logRecord r s).spos = s.spos := rfl
@[simp] theorem logRecord_chId (r : LogRec) : (logRecord r s).chId = s.chId := rfl
@[simp] theorem logRecord_chSize (r : LogRec) : (logRecord r s).chSize = s.chSize := rfl
@[simp] theorem logRecord_chArg (r : LogRec) : (logRecord r s).chArg = s.chArg := rfl
@[simp] theorem logRecord_pay (r : LogRec) : (logRecord r s).pay = s.pay := rfl
@[simp] theorem logRecord_ppos (r : LogRec) : (logRecord r s).ppos = s.ppos := rfl
@[simp] theorem logRecord_framerate (r : LogRec) : (logRecord r s).framerate = s.framerate := rfl
@[simp] theorem logRecord_width (r : LogRec) : (logRecord r s).width = s.width := rfl
@[simp] theorem logRecord_height (r : LogRec) : (logRecord r s).height = s.height := rfl
@[simp] theorem logRecord_dimValid (r : LogRec) : (logRecord r s).dimValid = s.dimValid := rfl
@[simp] theorem logRecord_hasAlpha (r : LogRec) : (logRecord r s).hasAlpha = s.hasAlpha := rfl
@[simp] theorem logRecord_frameCnt (r : LogRec) : (logRecord r s).frameCnt = s.frameCnt := rfl
@[simp] theorem logRecord_cb2 (r : LogRec) : (logRecord r s).cb2 = s.cb2 := rfl
@[simp] theorem logRecord_cb4 (r : LogRec) : (logRecord r s).cb4 = s.cb4 := rfl
@[simp] theorem logRecord_fb0 (r : LogRec) : (logRecord r s).fb0 = s.fb0 := rfl
@[simp] theorem logRecord_fb1 (r : LogRec) : (logRecord r s).fb1 = s.fb1 := rfl
@[simp] theorem logRecord_mbWord (r : LogRec) : (logRecord r s).mbWord = s.mbWord := rfl
@[simp] theorem logRecord_mbLeft (r : LogRec) : (logRecord r s).mbLeft = s.mbLeft := rfl
@[simp] theorem logRecord_argX (r : LogRec) : (logRecord r s).argX = s.argX := rfl
@[simp] theorem logRecord_argY (r : LogRec) : (logRecord r s).argY = s.argY := rfl
@[simp] theorem logRecord_acc0 (r : LogRec) : (logRecord r s).acc0 = s.acc0 := rfl
@[simp] theorem logRecord_acc1 (r : LogRec) : (logRecord r s).acc1 = s.acc1 := rfl
@[simp] theorem logRecord_audBuf (r : LogRec) : (logRecord r s).audBuf = s.audBuf := rfl
@[simp] theorem logRecord_audLen (r : LogRec) : (logRecord r s).audLen = s.audLen := rfl
@[simp] theorem logRecord_audCh (r : LogRec) : (logRecord r s).audCh = s.audCh := rfl
@[simp] theorem logRecord_faultCode (r : LogRec) : (logRecord r s).faultCode = s.faultCode := rfl
@[simp] theorem logRecord_faultInfo (r : LogRec) : (logRecord r s).faultInfo = s.faultInfo := rfl
@[simp] theorem logRecord_log (r : LogRec) : (logRecord r s).log = s.log ++ [r] := rfl

/-! ## latchHeader -/

@[simp] theorem latchHeader_params (id : Half) (size : Word) (arg : Half) : (latchHeader id size arg s).params = s.params := rfl
@[simp] theorem latchHeader_src (id : Half) (size : Word) (arg : Half) : (latchHeader id size arg s).src = s.src := rfl
@[simp] theorem latchHeader_srcAns (id : Half) (size : Word) (arg : Half) : (latchHeader id size arg s).srcAns = s.srcAns := rfl
@[simp] theorem latchHeader_ctl (id : Half) (size : Word) (arg : Half) : (latchHeader id size arg s).ctl = s.ctl := rfl
@[simp] theorem latchHeader_host (id : Half) (size : Word) (arg : Half) : (latchHeader id size arg s).host = s.host := rfl
@[simp] theorem latchHeader_results (id : Half) (size : Word) (arg : Half) : (latchHeader id size arg s).results = s.results := rfl
@[simp] theorem latchHeader_freeCtr (id : Half) (size : Word) (arg : Half) : (latchHeader id size arg s).freeCtr = s.freeCtr := rfl
@[simp] theorem latchHeader_st (id : Half) (size : Word) (arg : Half) : (latchHeader id size arg s).st = s.st := rfl
@[simp] theorem latchHeader_spos (id : Half) (size : Word) (arg : Half) : (latchHeader id size arg s).spos = s.spos := rfl
@[simp] theorem latchHeader_chId (id : Half) (size : Word) (arg : Half) : (latchHeader id size arg s).chId = id := rfl
@[simp] theorem latchHeader_chSize (id : Half) (size : Word) (arg : Half) : (latchHeader id size arg s).chSize = size := rfl
@[simp] theorem latchHeader_chArg (id : Half) (size : Word) (arg : Half) : (latchHeader id size arg s).chArg = arg := rfl
@[simp] theorem latchHeader_pay (id : Half) (size : Word) (arg : Half) : (latchHeader id size arg s).pay = s.pay := rfl
@[simp] theorem latchHeader_ppos (id : Half) (size : Word) (arg : Half) : (latchHeader id size arg s).ppos = s.ppos := rfl
@[simp] theorem latchHeader_framerate (id : Half) (size : Word) (arg : Half) : (latchHeader id size arg s).framerate = s.framerate := rfl
@[simp] theorem latchHeader_width (id : Half) (size : Word) (arg : Half) : (latchHeader id size arg s).width = s.width := rfl
@[simp] theorem latchHeader_height (id : Half) (size : Word) (arg : Half) : (latchHeader id size arg s).height = s.height := rfl
@[simp] theorem latchHeader_dimValid (id : Half) (size : Word) (arg : Half) : (latchHeader id size arg s).dimValid = s.dimValid := rfl
@[simp] theorem latchHeader_hasAlpha (id : Half) (size : Word) (arg : Half) : (latchHeader id size arg s).hasAlpha = s.hasAlpha := rfl
@[simp] theorem latchHeader_frameCnt (id : Half) (size : Word) (arg : Half) : (latchHeader id size arg s).frameCnt = s.frameCnt := rfl
@[simp] theorem latchHeader_cb2 (id : Half) (size : Word) (arg : Half) : (latchHeader id size arg s).cb2 = s.cb2 := rfl
@[simp] theorem latchHeader_cb4 (id : Half) (size : Word) (arg : Half) : (latchHeader id size arg s).cb4 = s.cb4 := rfl
@[simp] theorem latchHeader_fb0 (id : Half) (size : Word) (arg : Half) : (latchHeader id size arg s).fb0 = s.fb0 := rfl
@[simp] theorem latchHeader_fb1 (id : Half) (size : Word) (arg : Half) : (latchHeader id size arg s).fb1 = s.fb1 := rfl
@[simp] theorem latchHeader_mbWord (id : Half) (size : Word) (arg : Half) : (latchHeader id size arg s).mbWord = s.mbWord := rfl
@[simp] theorem latchHeader_mbLeft (id : Half) (size : Word) (arg : Half) : (latchHeader id size arg s).mbLeft = s.mbLeft := rfl
@[simp] theorem latchHeader_argX (id : Half) (size : Word) (arg : Half) : (latchHeader id size arg s).argX = s.argX := rfl
@[simp] theorem latchHeader_argY (id : Half) (size : Word) (arg : Half) : (latchHeader id size arg s).argY = s.argY := rfl
@[simp] theorem latchHeader_acc0 (id : Half) (size : Word) (arg : Half) : (latchHeader id size arg s).acc0 = s.acc0 := rfl
@[simp] theorem latchHeader_acc1 (id : Half) (size : Word) (arg : Half) : (latchHeader id size arg s).acc1 = s.acc1 := rfl
@[simp] theorem latchHeader_audBuf (id : Half) (size : Word) (arg : Half) : (latchHeader id size arg s).audBuf = s.audBuf := rfl
@[simp] theorem latchHeader_audLen (id : Half) (size : Word) (arg : Half) : (latchHeader id size arg s).audLen = s.audLen := rfl
@[simp] theorem latchHeader_audCh (id : Half) (size : Word) (arg : Half) : (latchHeader id size arg s).audCh = s.audCh := rfl
@[simp] theorem latchHeader_faultCode (id : Half) (size : Word) (arg : Half) : (latchHeader id size arg s).faultCode = s.faultCode := rfl
@[simp] theorem latchHeader_faultInfo (id : Half) (size : Word) (arg : Half) : (latchHeader id size arg s).faultInfo = s.faultInfo := rfl
@[simp] theorem latchHeader_log (id : Half) (size : Word) (arg : Half) : (latchHeader id size arg s).log = s.log := rfl

/-! ## loadChunk -/

@[simp] theorem loadChunk_params (id arg : Half) (payload : List Byte) : (loadChunk id arg payload s).params = s.params := rfl
@[simp] theorem loadChunk_src (id arg : Half) (payload : List Byte) : (loadChunk id arg payload s).src = s.src := rfl
@[simp] theorem loadChunk_srcAns (id arg : Half) (payload : List Byte) : (loadChunk id arg payload s).srcAns = s.srcAns := rfl
@[simp] theorem loadChunk_ctl (id arg : Half) (payload : List Byte) : (loadChunk id arg payload s).ctl = s.ctl := rfl
@[simp] theorem loadChunk_host (id arg : Half) (payload : List Byte) : (loadChunk id arg payload s).host = s.host := rfl
@[simp] theorem loadChunk_results (id arg : Half) (payload : List Byte) : (loadChunk id arg payload s).results = s.results := rfl
@[simp] theorem loadChunk_freeCtr (id arg : Half) (payload : List Byte) : (loadChunk id arg payload s).freeCtr = s.freeCtr := rfl
@[simp] theorem loadChunk_st (id arg : Half) (payload : List Byte) : (loadChunk id arg payload s).st = s.st := rfl
@[simp] theorem loadChunk_spos (id arg : Half) (payload : List Byte) : (loadChunk id arg payload s).spos = s.spos := rfl
@[simp] theorem loadChunk_chId (id arg : Half) (payload : List Byte) : (loadChunk id arg payload s).chId = id := rfl
@[simp] theorem loadChunk_chSize (id arg : Half) (payload : List Byte) : (loadChunk id arg payload s).chSize = BitVec.ofNat 32 payload.length := rfl
@[simp] theorem loadChunk_chArg (id arg : Half) (payload : List Byte) : (loadChunk id arg payload s).chArg = arg := rfl
@[simp] theorem loadChunk_pay (id arg : Half) (payload : List Byte) : (loadChunk id arg payload s).pay = payload := rfl
@[simp] theorem loadChunk_ppos (id arg : Half) (payload : List Byte) : (loadChunk id arg payload s).ppos = 0 := rfl
@[simp] theorem loadChunk_framerate (id arg : Half) (payload : List Byte) : (loadChunk id arg payload s).framerate = s.framerate := rfl
@[simp] theorem loadChunk_width (id arg : Half) (payload : List Byte) : (loadChunk id arg payload s).width = s.width := rfl
@[simp] theorem loadChunk_height (id arg : Half) (payload : List Byte) : (loadChunk id arg payload s).height = s.height := rfl
@[simp] theorem loadChunk_dimValid (id arg : Half) (payload : List Byte) : (loadChunk id arg payload s).dimValid = s.dimValid := rfl
@[simp] theorem loadChunk_hasAlpha (id arg : Half) (payload : List Byte) : (loadChunk id arg payload s).hasAlpha = s.hasAlpha := rfl
@[simp] theorem loadChunk_frameCnt (id arg : Half) (payload : List Byte) : (loadChunk id arg payload s).frameCnt = s.frameCnt := rfl
@[simp] theorem loadChunk_cb2 (id arg : Half) (payload : List Byte) : (loadChunk id arg payload s).cb2 = s.cb2 := rfl
@[simp] theorem loadChunk_cb4 (id arg : Half) (payload : List Byte) : (loadChunk id arg payload s).cb4 = s.cb4 := rfl
@[simp] theorem loadChunk_fb0 (id arg : Half) (payload : List Byte) : (loadChunk id arg payload s).fb0 = s.fb0 := rfl
@[simp] theorem loadChunk_fb1 (id arg : Half) (payload : List Byte) : (loadChunk id arg payload s).fb1 = s.fb1 := rfl
@[simp] theorem loadChunk_mbWord (id arg : Half) (payload : List Byte) : (loadChunk id arg payload s).mbWord = s.mbWord := rfl
@[simp] theorem loadChunk_mbLeft (id arg : Half) (payload : List Byte) : (loadChunk id arg payload s).mbLeft = s.mbLeft := rfl
@[simp] theorem loadChunk_argX (id arg : Half) (payload : List Byte) : (loadChunk id arg payload s).argX = s.argX := rfl
@[simp] theorem loadChunk_argY (id arg : Half) (payload : List Byte) : (loadChunk id arg payload s).argY = s.argY := rfl
@[simp] theorem loadChunk_acc0 (id arg : Half) (payload : List Byte) : (loadChunk id arg payload s).acc0 = s.acc0 := rfl
@[simp] theorem loadChunk_acc1 (id arg : Half) (payload : List Byte) : (loadChunk id arg payload s).acc1 = s.acc1 := rfl
@[simp] theorem loadChunk_audBuf (id arg : Half) (payload : List Byte) : (loadChunk id arg payload s).audBuf = s.audBuf := rfl
@[simp] theorem loadChunk_audLen (id arg : Half) (payload : List Byte) : (loadChunk id arg payload s).audLen = s.audLen := rfl
@[simp] theorem loadChunk_audCh (id arg : Half) (payload : List Byte) : (loadChunk id arg payload s).audCh = s.audCh := rfl
@[simp] theorem loadChunk_faultCode (id arg : Half) (payload : List Byte) : (loadChunk id arg payload s).faultCode = s.faultCode := rfl
@[simp] theorem loadChunk_faultInfo (id arg : Half) (payload : List Byte) : (loadChunk id arg payload s).faultInfo = s.faultInfo := rfl
@[simp] theorem loadChunk_log (id arg : Half) (payload : List Byte) : (loadChunk id arg payload s).log = s.log := rfl

/-! ## State.setAcc -/

@[simp] theorem State.setAcc_params (ch : Fin 2) (v : Half) : (s.setAcc ch v).params = s.params := rfl
@[simp] theorem State.setAcc_src (ch : Fin 2) (v : Half) : (s.setAcc ch v).src = s.src := rfl
@[simp] theorem State.setAcc_srcAns (ch : Fin 2) (v : Half) : (s.setAcc ch v).srcAns = s.srcAns := rfl
@[simp] theorem State.setAcc_ctl (ch : Fin 2) (v : Half) : (s.setAcc ch v).ctl = s.ctl := rfl
@[simp] theorem State.setAcc_host (ch : Fin 2) (v : Half) : (s.setAcc ch v).host = s.host := rfl
@[simp] theorem State.setAcc_results (ch : Fin 2) (v : Half) : (s.setAcc ch v).results = s.results := rfl
@[simp] theorem State.setAcc_freeCtr (ch : Fin 2) (v : Half) : (s.setAcc ch v).freeCtr = s.freeCtr := rfl
@[simp] theorem State.setAcc_st (ch : Fin 2) (v : Half) : (s.setAcc ch v).st = s.st := rfl
@[simp] theorem State.setAcc_spos (ch : Fin 2) (v : Half) : (s.setAcc ch v).spos = s.spos := rfl
@[simp] theorem State.setAcc_chId (ch : Fin 2) (v : Half) : (s.setAcc ch v).chId = s.chId := rfl
@[simp] theorem State.setAcc_chSize (ch : Fin 2) (v : Half) : (s.setAcc ch v).chSize = s.chSize := rfl
@[simp] theorem State.setAcc_chArg (ch : Fin 2) (v : Half) : (s.setAcc ch v).chArg = s.chArg := rfl
@[simp] theorem State.setAcc_pay (ch : Fin 2) (v : Half) : (s.setAcc ch v).pay = s.pay := rfl
@[simp] theorem State.setAcc_ppos (ch : Fin 2) (v : Half) : (s.setAcc ch v).ppos = s.ppos := rfl
@[simp] theorem State.setAcc_framerate (ch : Fin 2) (v : Half) : (s.setAcc ch v).framerate = s.framerate := rfl
@[simp] theorem State.setAcc_width (ch : Fin 2) (v : Half) : (s.setAcc ch v).width = s.width := rfl
@[simp] theorem State.setAcc_height (ch : Fin 2) (v : Half) : (s.setAcc ch v).height = s.height := rfl
@[simp] theorem State.setAcc_dimValid (ch : Fin 2) (v : Half) : (s.setAcc ch v).dimValid = s.dimValid := rfl
@[simp] theorem State.setAcc_hasAlpha (ch : Fin 2) (v : Half) : (s.setAcc ch v).hasAlpha = s.hasAlpha := rfl
@[simp] theorem State.setAcc_frameCnt (ch : Fin 2) (v : Half) : (s.setAcc ch v).frameCnt = s.frameCnt := rfl
@[simp] theorem State.setAcc_cb2 (ch : Fin 2) (v : Half) : (s.setAcc ch v).cb2 = s.cb2 := rfl
@[simp] theorem State.setAcc_cb4 (ch : Fin 2) (v : Half) : (s.setAcc ch v).cb4 = s.cb4 := rfl
@[simp] theorem State.setAcc_fb0 (ch : Fin 2) (v : Half) : (s.setAcc ch v).fb0 = s.fb0 := rfl
@[simp] theorem State.setAcc_fb1 (ch : Fin 2) (v : Half) : (s.setAcc ch v).fb1 = s.fb1 := rfl
@[simp] theorem State.setAcc_mbWord (ch : Fin 2) (v : Half) : (s.setAcc ch v).mbWord = s.mbWord := rfl
@[simp] theorem State.setAcc_mbLeft (ch : Fin 2) (v : Half) : (s.setAcc ch v).mbLeft = s.mbLeft := rfl
@[simp] theorem State.setAcc_argX (ch : Fin 2) (v : Half) : (s.setAcc ch v).argX = s.argX := rfl
@[simp] theorem State.setAcc_argY (ch : Fin 2) (v : Half) : (s.setAcc ch v).argY = s.argY := rfl
@[simp] theorem State.setAcc_acc0 (ch : Fin 2) (v : Half) : (s.setAcc ch v).acc0 = if ch = 0 then v else s.acc0 := rfl
@[simp] theorem State.setAcc_acc1 (ch : Fin 2) (v : Half) : (s.setAcc ch v).acc1 = if ch = 0 then s.acc1 else v := rfl
@[simp] theorem State.setAcc_audBuf (ch : Fin 2) (v : Half) : (s.setAcc ch v).audBuf = s.audBuf := rfl
@[simp] theorem State.setAcc_audLen (ch : Fin 2) (v : Half) : (s.setAcc ch v).audLen = s.audLen := rfl
@[simp] theorem State.setAcc_audCh (ch : Fin 2) (v : Half) : (s.setAcc ch v).audCh = s.audCh := rfl
@[simp] theorem State.setAcc_faultCode (ch : Fin 2) (v : Half) : (s.setAcc ch v).faultCode = s.faultCode := rfl
@[simp] theorem State.setAcc_faultInfo (ch : Fin 2) (v : Half) : (s.setAcc ch v).faultInfo = s.faultInfo := rfl
@[simp] theorem State.setAcc_log (ch : Fin 2) (v : Half) : (s.setAcc ch v).log = s.log := rfl

/-! ## writeSample -/

@[simp] theorem writeSample_params (j : Nat) (v : Half) : (writeSample j v s).params = s.params := rfl
@[simp] theorem writeSample_src (j : Nat) (v : Half) : (writeSample j v s).src = s.src := rfl
@[simp] theorem writeSample_srcAns (j : Nat) (v : Half) : (writeSample j v s).srcAns = s.srcAns := rfl
@[simp] theorem writeSample_ctl (j : Nat) (v : Half) : (writeSample j v s).ctl = s.ctl := rfl
@[simp] theorem writeSample_host (j : Nat) (v : Half) : (writeSample j v s).host = s.host := rfl
@[simp] theorem writeSample_results (j : Nat) (v : Half) : (writeSample j v s).results = s.results := rfl
@[simp] theorem writeSample_freeCtr (j : Nat) (v : Half) : (writeSample j v s).freeCtr = s.freeCtr := rfl
@[simp] theorem writeSample_st (j : Nat) (v : Half) : (writeSample j v s).st = s.st := rfl
@[simp] theorem writeSample_spos (j : Nat) (v : Half) : (writeSample j v s).spos = s.spos := rfl
@[simp] theorem writeSample_chId (j : Nat) (v : Half) : (writeSample j v s).chId = s.chId := rfl
@[simp] theorem writeSample_chSize (j : Nat) (v : Half) : (writeSample j v s).chSize = s.chSize := rfl
@[simp] theorem writeSample_chArg (j : Nat) (v : Half) : (writeSample j v s).chArg = s.chArg := rfl
@[simp] theorem writeSample_pay (j : Nat) (v : Half) : (writeSample j v s).pay = s.pay := rfl
@[simp] theorem writeSample_ppos (j : Nat) (v : Half) : (writeSample j v s).ppos = s.ppos := rfl
@[simp] theorem writeSample_framerate (j : Nat) (v : Half) : (writeSample j v s).framerate = s.framerate := rfl
@[simp] theorem writeSample_width (j : Nat) (v : Half) : (writeSample j v s).width = s.width := rfl
@[simp] theorem writeSample_height (j : Nat) (v : Half) : (writeSample j v s).height = s.height := rfl
@[simp] theorem writeSample_dimValid (j : Nat) (v : Half) : (writeSample j v s).dimValid = s.dimValid := rfl
@[simp] theorem writeSample_hasAlpha (j : Nat) (v : Half) : (writeSample j v s).hasAlpha = s.hasAlpha := rfl
@[simp] theorem writeSample_frameCnt (j : Nat) (v : Half) : (writeSample j v s).frameCnt = s.frameCnt := rfl
@[simp] theorem writeSample_cb2 (j : Nat) (v : Half) : (writeSample j v s).cb2 = s.cb2 := rfl
@[simp] theorem writeSample_cb4 (j : Nat) (v : Half) : (writeSample j v s).cb4 = s.cb4 := rfl
@[simp] theorem writeSample_fb0 (j : Nat) (v : Half) : (writeSample j v s).fb0 = s.fb0 := rfl
@[simp] theorem writeSample_fb1 (j : Nat) (v : Half) : (writeSample j v s).fb1 = s.fb1 := rfl
@[simp] theorem writeSample_mbWord (j : Nat) (v : Half) : (writeSample j v s).mbWord = s.mbWord := rfl
@[simp] theorem writeSample_mbLeft (j : Nat) (v : Half) : (writeSample j v s).mbLeft = s.mbLeft := rfl
@[simp] theorem writeSample_argX (j : Nat) (v : Half) : (writeSample j v s).argX = s.argX := rfl
@[simp] theorem writeSample_argY (j : Nat) (v : Half) : (writeSample j v s).argY = s.argY := rfl
@[simp] theorem writeSample_acc0 (j : Nat) (v : Half) : (writeSample j v s).acc0 = s.acc0 := rfl
@[simp] theorem writeSample_acc1 (j : Nat) (v : Half) : (writeSample j v s).acc1 = s.acc1 := rfl
@[simp] theorem writeSample_audBuf (j : Nat) (v : Half) : (writeSample j v s).audBuf = s.audBuf.take j ++ v :: s.audBuf.drop (j + 1) := rfl
@[simp] theorem writeSample_audLen (j : Nat) (v : Half) : (writeSample j v s).audLen = s.audLen := rfl
@[simp] theorem writeSample_audCh (j : Nat) (v : Half) : (writeSample j v s).audCh = s.audCh := rfl
@[simp] theorem writeSample_faultCode (j : Nat) (v : Half) : (writeSample j v s).faultCode = s.faultCode := rfl
@[simp] theorem writeSample_faultInfo (j : Nat) (v : Half) : (writeSample j v s).faultInfo = s.faultInfo := rfl
@[simp] theorem writeSample_log (j : Nat) (v : Half) : (writeSample j v s).log = s.log := rfl

/-! ## beginSound -/

@[simp] theorem beginSound_params (ch : BitVec 2) (n : Nat) (l r : Half) : (beginSound ch n l r s).params = s.params := rfl
@[simp] theorem beginSound_src (ch : BitVec 2) (n : Nat) (l r : Half) : (beginSound ch n l r s).src = s.src := rfl
@[simp] theorem beginSound_srcAns (ch : BitVec 2) (n : Nat) (l r : Half) : (beginSound ch n l r s).srcAns = s.srcAns := rfl
@[simp] theorem beginSound_ctl (ch : BitVec 2) (n : Nat) (l r : Half) : (beginSound ch n l r s).ctl = s.ctl := rfl
@[simp] theorem beginSound_host (ch : BitVec 2) (n : Nat) (l r : Half) : (beginSound ch n l r s).host = s.host := rfl
@[simp] theorem beginSound_results (ch : BitVec 2) (n : Nat) (l r : Half) : (beginSound ch n l r s).results = s.results := rfl
@[simp] theorem beginSound_freeCtr (ch : BitVec 2) (n : Nat) (l r : Half) : (beginSound ch n l r s).freeCtr = s.freeCtr := rfl
@[simp] theorem beginSound_st (ch : BitVec 2) (n : Nat) (l r : Half) : (beginSound ch n l r s).st = s.st := rfl
@[simp] theorem beginSound_spos (ch : BitVec 2) (n : Nat) (l r : Half) : (beginSound ch n l r s).spos = s.spos := rfl
@[simp] theorem beginSound_chId (ch : BitVec 2) (n : Nat) (l r : Half) : (beginSound ch n l r s).chId = s.chId := rfl
@[simp] theorem beginSound_chSize (ch : BitVec 2) (n : Nat) (l r : Half) : (beginSound ch n l r s).chSize = s.chSize := rfl
@[simp] theorem beginSound_chArg (ch : BitVec 2) (n : Nat) (l r : Half) : (beginSound ch n l r s).chArg = s.chArg := rfl
@[simp] theorem beginSound_pay (ch : BitVec 2) (n : Nat) (l r : Half) : (beginSound ch n l r s).pay = s.pay := rfl
@[simp] theorem beginSound_ppos (ch : BitVec 2) (n : Nat) (l r : Half) : (beginSound ch n l r s).ppos = s.ppos := rfl
@[simp] theorem beginSound_framerate (ch : BitVec 2) (n : Nat) (l r : Half) : (beginSound ch n l r s).framerate = s.framerate := rfl
@[simp] theorem beginSound_width (ch : BitVec 2) (n : Nat) (l r : Half) : (beginSound ch n l r s).width = s.width := rfl
@[simp] theorem beginSound_height (ch : BitVec 2) (n : Nat) (l r : Half) : (beginSound ch n l r s).height = s.height := rfl
@[simp] theorem beginSound_dimValid (ch : BitVec 2) (n : Nat) (l r : Half) : (beginSound ch n l r s).dimValid = s.dimValid := rfl
@[simp] theorem beginSound_hasAlpha (ch : BitVec 2) (n : Nat) (l r : Half) : (beginSound ch n l r s).hasAlpha = s.hasAlpha := rfl
@[simp] theorem beginSound_frameCnt (ch : BitVec 2) (n : Nat) (l r : Half) : (beginSound ch n l r s).frameCnt = s.frameCnt := rfl
@[simp] theorem beginSound_cb2 (ch : BitVec 2) (n : Nat) (l r : Half) : (beginSound ch n l r s).cb2 = s.cb2 := rfl
@[simp] theorem beginSound_cb4 (ch : BitVec 2) (n : Nat) (l r : Half) : (beginSound ch n l r s).cb4 = s.cb4 := rfl
@[simp] theorem beginSound_fb0 (ch : BitVec 2) (n : Nat) (l r : Half) : (beginSound ch n l r s).fb0 = s.fb0 := rfl
@[simp] theorem beginSound_fb1 (ch : BitVec 2) (n : Nat) (l r : Half) : (beginSound ch n l r s).fb1 = s.fb1 := rfl
@[simp] theorem beginSound_mbWord (ch : BitVec 2) (n : Nat) (l r : Half) : (beginSound ch n l r s).mbWord = s.mbWord := rfl
@[simp] theorem beginSound_mbLeft (ch : BitVec 2) (n : Nat) (l r : Half) : (beginSound ch n l r s).mbLeft = s.mbLeft := rfl
@[simp] theorem beginSound_argX (ch : BitVec 2) (n : Nat) (l r : Half) : (beginSound ch n l r s).argX = s.argX := rfl
@[simp] theorem beginSound_argY (ch : BitVec 2) (n : Nat) (l r : Half) : (beginSound ch n l r s).argY = s.argY := rfl
@[simp] theorem beginSound_acc0 (ch : BitVec 2) (n : Nat) (l r : Half) : (beginSound ch n l r s).acc0 = l := rfl
@[simp] theorem beginSound_acc1 (ch : BitVec 2) (n : Nat) (l r : Half) : (beginSound ch n l r s).acc1 = r := rfl
@[simp] theorem beginSound_audBuf (ch : BitVec 2) (n : Nat) (l r : Half) : (beginSound ch n l r s).audBuf = s.audBuf.take n := rfl
@[simp] theorem beginSound_audLen (ch : BitVec 2) (n : Nat) (l r : Half) : (beginSound ch n l r s).audLen = n := rfl
@[simp] theorem beginSound_audCh (ch : BitVec 2) (n : Nat) (l r : Half) : (beginSound ch n l r s).audCh = ch := rfl
@[simp] theorem beginSound_faultCode (ch : BitVec 2) (n : Nat) (l r : Half) : (beginSound ch n l r s).faultCode = s.faultCode := rfl
@[simp] theorem beginSound_faultInfo (ch : BitVec 2) (n : Nat) (l r : Half) : (beginSound ch n l r s).faultInfo = s.faultInfo := rfl
@[simp] theorem beginSound_log (ch : BitVec 2) (n : Nat) (l r : Half) : (beginSound ch n l r s).log = s.log := rfl

@[simp] theorem startChunk_params : (startChunk s).params = s.params := rfl
@[simp] theorem startChunk_src : (startChunk s).src = s.src := rfl
@[simp] theorem startChunk_srcAns : (startChunk s).srcAns = s.srcAns := rfl
@[simp] theorem startChunk_ctl : (startChunk s).ctl = s.ctl := rfl
@[simp] theorem startChunk_host : (startChunk s).host = s.host := rfl
@[simp] theorem startChunk_results : (startChunk s).results = s.results := rfl
@[simp] theorem startChunk_freeCtr : (startChunk s).freeCtr = s.freeCtr := rfl
@[simp] theorem startChunk_st : (startChunk s).st = s.st := rfl
@[simp] theorem startChunk_spos : (startChunk s).spos = s.spos := rfl
@[simp] theorem startChunk_chId : (startChunk s).chId = s.chId := rfl
@[simp] theorem startChunk_chSize : (startChunk s).chSize = s.chSize := rfl
@[simp] theorem startChunk_chArg : (startChunk s).chArg = s.chArg := rfl
@[simp] theorem startChunk_pay : (startChunk s).pay = s.pay := rfl
@[simp] theorem startChunk_ppos : (startChunk s).ppos = s.ppos := rfl
@[simp] theorem startChunk_framerate : (startChunk s).framerate = s.framerate := rfl
@[simp] theorem startChunk_width : (startChunk s).width = s.width := rfl
@[simp] theorem startChunk_height : (startChunk s).height = s.height := rfl
@[simp] theorem startChunk_dimValid : (startChunk s).dimValid = s.dimValid := rfl
@[simp] theorem startChunk_hasAlpha : (startChunk s).hasAlpha = s.hasAlpha := rfl
@[simp] theorem startChunk_frameCnt : (startChunk s).frameCnt = s.frameCnt := rfl
@[simp] theorem startChunk_cb2 : (startChunk s).cb2 = s.cb2 := rfl
@[simp] theorem startChunk_cb4 : (startChunk s).cb4 = s.cb4 := rfl
@[simp] theorem startChunk_fb0 : (startChunk s).fb0 = s.fb0 := rfl
@[simp] theorem startChunk_fb1 : (startChunk s).fb1 = s.fb1 := rfl
@[simp] theorem startChunk_mbWord : (startChunk s).mbWord = s.mbWord := rfl
@[simp] theorem startChunk_mbLeft : (startChunk s).mbLeft = s.mbLeft := rfl
@[simp] theorem startChunk_argX : (startChunk s).argX = s.argX := rfl
@[simp] theorem startChunk_argY : (startChunk s).argY = s.argY := rfl
@[simp] theorem startChunk_acc0 : (startChunk s).acc0 = s.acc0 := rfl
@[simp] theorem startChunk_acc1 : (startChunk s).acc1 =
    if s.chId = 0x1020#16 then Config.monoRightSeed (monoSeed s.params.monoSeed s.chArg) else s.acc1 := rfl
@[simp] theorem startChunk_audBuf : (startChunk s).audBuf = s.audBuf := rfl
@[simp] theorem startChunk_audLen : (startChunk s).audLen = s.audLen := rfl
@[simp] theorem startChunk_audCh : (startChunk s).audCh = s.audCh := rfl
@[simp] theorem startChunk_faultCode : (startChunk s).faultCode = s.faultCode := rfl
@[simp] theorem startChunk_faultInfo : (startChunk s).faultInfo = s.faultInfo := rfl
@[simp] theorem startChunk_log : (startChunk s).log = s.log := rfl

/-! ## State.drawBlock -/

@[simp] theorem State.drawBlock_params (x y n : Nat) (f : Nat → Nat → Pixel) : (s.drawBlock x y n f).params = s.params := rfl
@[simp] theorem State.drawBlock_src (x y n : Nat) (f : Nat → Nat → Pixel) : (s.drawBlock x y n f).src = s.src := rfl
@[simp] theorem State.drawBlock_srcAns (x y n : Nat) (f : Nat → Nat → Pixel) : (s.drawBlock x y n f).srcAns = s.srcAns := rfl
@[simp] theorem State.drawBlock_ctl (x y n : Nat) (f : Nat → Nat → Pixel) : (s.drawBlock x y n f).ctl = s.ctl := rfl
@[simp] theorem State.drawBlock_host (x y n : Nat) (f : Nat → Nat → Pixel) : (s.drawBlock x y n f).host = s.host := rfl
@[simp] theorem State.drawBlock_results (x y n : Nat) (f : Nat → Nat → Pixel) : (s.drawBlock x y n f).results = s.results := rfl
@[simp] theorem State.drawBlock_freeCtr (x y n : Nat) (f : Nat → Nat → Pixel) : (s.drawBlock x y n f).freeCtr = s.freeCtr := rfl
@[simp] theorem State.drawBlock_st (x y n : Nat) (f : Nat → Nat → Pixel) : (s.drawBlock x y n f).st = s.st := rfl
@[simp] theorem State.drawBlock_spos (x y n : Nat) (f : Nat → Nat → Pixel) : (s.drawBlock x y n f).spos = s.spos := rfl
@[simp] theorem State.drawBlock_chId (x y n : Nat) (f : Nat → Nat → Pixel) : (s.drawBlock x y n f).chId = s.chId := rfl
@[simp] theorem State.drawBlock_chSize (x y n : Nat) (f : Nat → Nat → Pixel) : (s.drawBlock x y n f).chSize = s.chSize := rfl
@[simp] theorem State.drawBlock_chArg (x y n : Nat) (f : Nat → Nat → Pixel) : (s.drawBlock x y n f).chArg = s.chArg := rfl
@[simp] theorem State.drawBlock_pay (x y n : Nat) (f : Nat → Nat → Pixel) : (s.drawBlock x y n f).pay = s.pay := rfl
@[simp] theorem State.drawBlock_ppos (x y n : Nat) (f : Nat → Nat → Pixel) : (s.drawBlock x y n f).ppos = s.ppos := rfl
@[simp] theorem State.drawBlock_framerate (x y n : Nat) (f : Nat → Nat → Pixel) : (s.drawBlock x y n f).framerate = s.framerate := rfl
@[simp] theorem State.drawBlock_width (x y n : Nat) (f : Nat → Nat → Pixel) : (s.drawBlock x y n f).width = s.width := rfl
@[simp] theorem State.drawBlock_height (x y n : Nat) (f : Nat → Nat → Pixel) : (s.drawBlock x y n f).height = s.height := rfl
@[simp] theorem State.drawBlock_dimValid (x y n : Nat) (f : Nat → Nat → Pixel) : (s.drawBlock x y n f).dimValid = s.dimValid := rfl
@[simp] theorem State.drawBlock_hasAlpha (x y n : Nat) (f : Nat → Nat → Pixel) : (s.drawBlock x y n f).hasAlpha = s.hasAlpha := rfl
@[simp] theorem State.drawBlock_frameCnt (x y n : Nat) (f : Nat → Nat → Pixel) : (s.drawBlock x y n f).frameCnt = s.frameCnt := rfl
@[simp] theorem State.drawBlock_cb2 (x y n : Nat) (f : Nat → Nat → Pixel) : (s.drawBlock x y n f).cb2 = s.cb2 := rfl
@[simp] theorem State.drawBlock_cb4 (x y n : Nat) (f : Nat → Nat → Pixel) : (s.drawBlock x y n f).cb4 = s.cb4 := rfl
@[simp] theorem State.drawBlock_mbWord (x y n : Nat) (f : Nat → Nat → Pixel) : (s.drawBlock x y n f).mbWord = s.mbWord := rfl
@[simp] theorem State.drawBlock_mbLeft (x y n : Nat) (f : Nat → Nat → Pixel) : (s.drawBlock x y n f).mbLeft = s.mbLeft := rfl
@[simp] theorem State.drawBlock_argX (x y n : Nat) (f : Nat → Nat → Pixel) : (s.drawBlock x y n f).argX = s.argX := rfl
@[simp] theorem State.drawBlock_argY (x y n : Nat) (f : Nat → Nat → Pixel) : (s.drawBlock x y n f).argY = s.argY := rfl
@[simp] theorem State.drawBlock_acc0 (x y n : Nat) (f : Nat → Nat → Pixel) : (s.drawBlock x y n f).acc0 = s.acc0 := rfl
@[simp] theorem State.drawBlock_acc1 (x y n : Nat) (f : Nat → Nat → Pixel) : (s.drawBlock x y n f).acc1 = s.acc1 := rfl
@[simp] theorem State.drawBlock_audBuf (x y n : Nat) (f : Nat → Nat → Pixel) : (s.drawBlock x y n f).audBuf = s.audBuf := rfl
@[simp] theorem State.drawBlock_audLen (x y n : Nat) (f : Nat → Nat → Pixel) : (s.drawBlock x y n f).audLen = s.audLen := rfl
@[simp] theorem State.drawBlock_audCh (x y n : Nat) (f : Nat → Nat → Pixel) : (s.drawBlock x y n f).audCh = s.audCh := rfl
@[simp] theorem State.drawBlock_faultCode (x y n : Nat) (f : Nat → Nat → Pixel) : (s.drawBlock x y n f).faultCode = s.faultCode := rfl
@[simp] theorem State.drawBlock_faultInfo (x y n : Nat) (f : Nat → Nat → Pixel) : (s.drawBlock x y n f).faultInfo = s.faultInfo := rfl
@[simp] theorem State.drawBlock_log (x y n : Nat) (f : Nat → Nat → Pixel) : (s.drawBlock x y n f).log = s.log := rfl

/-! ## The frame buffers and the accumulators by index -/

@[simp] theorem State.fb_zero : s.fb 0 = s.fb0 := rfl
@[simp] theorem State.fb_one : s.fb 1 = s.fb1 := rfl

@[simp] theorem State.fb_setFb_self (i : Fin 2) (m : PixMem) : (s.setFb i m).fb i = m := by
  fin_cases i <;> rfl

@[simp] theorem State.fb_setFb_of_ne {i j : Fin 2} (h : j ≠ i) (m : PixMem) : (s.setFb i m).fb j = s.fb j := by
  fin_cases i <;> fin_cases j <;> first | rfl | exact absurd rfl h

theorem State.prev_ne_cur : s.prev ≠ s.cur := by
  unfold State.prev State.cur
  split <;> simp_all

@[simp] theorem State.fb_drawBlock_cur (x y n : Nat) (f : Nat → Nat → Pixel) :
    (s.drawBlock x y n f).fb s.cur = (s.fb s.cur).blit s.width.toNat x y n f :=
  State.fb_setFb_self ..

@[simp] theorem State.fb_drawBlock_prev (x y n : Nat) (f : Nat → Nat → Pixel) :
    (s.drawBlock x y n f).fb s.prev = s.fb s.prev :=
  State.fb_setFb_of_ne _ s.prev_ne_cur _

@[simp] theorem State.cur_drawBlock (x y n : Nat) (f : Nat → Nat → Pixel) : (s.drawBlock x y n f).cur = s.cur := rfl
@[simp] theorem State.prev_drawBlock (x y n : Nat) (f : Nat → Nat → Pixel) : (s.drawBlock x y n f).prev = s.prev := rfl

@[simp] theorem State.acc_setAcc_self (ch : Fin 2) (v : Half) : (s.setAcc ch v).acc ch = v := by
  fin_cases ch <;> rfl

@[simp] theorem State.acc_setAcc_of_ne {i j : Fin 2} (h : j ≠ i) (v : Half) : (s.setAcc i v).acc j = s.acc j := by
  fin_cases i <;> fin_cases j <;> first | rfl | exact absurd rfl h

end Sys2Proof.Machine
end

