-- ==== Sys2Proof/Laws/Memory.lean ====
section
/-! SUPPORT. The laws of pixel memories: read after write, the canonical form, and what a blit writes. -/

namespace Sys2Proof.Machine

/-! ## Read after write -/

@[simp] theorem PixMem.read_nil (a : Nat) : PixMem.read [] a = defaultPixel := rfl

theorem PixMem.read_cons (b : Nat) (w : Pixel) (t : PixMem) (a : Nat) :
    PixMem.read ((b, w) :: t) a = if a = b then w else PixMem.read t a := rfl

theorem PixMem.read_insert_self {m : PixMem} {a : Nat} (v : Pixel) (h : ∀ e ∈ m, e.1 ≠ a) :
    (PixMem.insert a v m).read a = v := by
  induction m with
  | nil => simp [PixMem.insert, PixMem.read]
  | cons e t ih =>
    have hb : a ≠ e.1 := fun hh => h e (by simp) hh.symm
    have ht := ih fun e he => h e (by simp [he])
    unfold PixMem.insert
    split <;> simp [PixMem.read, hb, ht]

theorem PixMem.read_insert_of_ne {a a' : Nat} (m : PixMem) (v : Pixel) (h : a' ≠ a) :
    (PixMem.insert a v m).read a' = m.read a' := by
  induction m with
  | nil => simp [PixMem.insert, PixMem.read, h]
  | cons e t ih =>
    unfold PixMem.insert
    split <;> simp [PixMem.read, h, ih]

theorem PixMem.mem_erase {m : PixMem} {a : Nat} {e : Nat × Pixel} : e ∈ m.erase a ↔ e ∈ m ∧ e.1 ≠ a := by
  simp [PixMem.erase]

theorem PixMem.read_erase_of_ne {a a' : Nat} (m : PixMem) (h : a' ≠ a) : (m.erase a).read a' = m.read a' := by
  induction m with
  | nil => rfl
  | cons e t ih =>
    unfold PixMem.erase at ih ⊢
    by_cases he : e.1 = a
    · have : a' ≠ e.1 := fun hh => h (hh.trans he)
      simp [he, ih, PixMem.read, h]
    · simp [he, ih, PixMem.read]

/-- An offset that is not listed reads as `DEFAULT_PIXEL`. -/
theorem PixMem.read_of_not_listed {m : PixMem} {a : Nat} (h : ∀ e ∈ m, e.1 ≠ a) : m.read a = defaultPixel := by
  induction m with
  | nil => rfl
  | cons e t ih =>
    have hb : a ≠ e.1 := fun hh => h e (by simp) hh.symm
    simp [PixMem.read, hb, ih fun e he => h e (by simp [he])]

theorem PixMem.read_write_self (m : PixMem) (a : Nat) (v : Pixel) : (m.write a v).read a = v := by
  unfold PixMem.write
  split
  · next h => exact h ▸ PixMem.read_of_not_listed fun e he => (PixMem.mem_erase.1 he).2
  · exact PixMem.read_insert_self v fun e he => (PixMem.mem_erase.1 he).2

theorem PixMem.read_write_of_ne {a a' : Nat} (m : PixMem) (v : Pixel) (h : a' ≠ a) :
    (m.write a v).read a' = m.read a' := by
  unfold PixMem.write
  split
  · exact PixMem.read_erase_of_ne m h
  · rw [PixMem.read_insert_of_ne _ _ h, PixMem.read_erase_of_ne m h]

/-- Read after write, in any memory. -/
theorem PixMem.read_write (m : PixMem) (a : Nat) (v : Pixel) (a' : Nat) :
    (m.write a v).read a' = if a' = a then v else m.read a' := by
  split
  · next h => exact h ▸ PixMem.read_write_self m a v
  · next h => exact PixMem.read_write_of_ne m v h

/-! ## What a blit writes -/

theorem PixMem.read_writeRow (m : PixMem) (a : Nat) (f : Nat → Pixel) (n a' : Nat) :
    (m.writeRow a f n).read a' = if a ≤ a' ∧ a' < a + n then f (a' - a) else m.read a' := by
  induction n with
  | zero => rw [if_neg (by omega)]; rfl
  | succ n ih =>
    rw [PixMem.writeRow, PixMem.read_write, ih]
    by_cases h : a' = a + n
    · subst h
      rw [if_pos rfl, if_pos (by omega), Nat.add_sub_cancel_left]
    · rw [if_neg h]
      by_cases h' : a ≤ a' ∧ a' < a + n
      · rw [if_pos h', if_pos (by omega)]
      · rw [if_neg h', if_neg (by omega)]

/-- Row and column of an offset that lies in a row of `stride` elements. -/
theorem offset_in_row {stride r c x n a : Nat} (hx : x + n ≤ stride) (h1 : r * stride + x ≤ a)
    (h2 : a < r * stride + x + n) (hc : c = a - r * stride) : a / stride = r ∧ a % stride = c := by
  have hlt : a - r * stride < stride := by omega
  have ha : a = (a - r * stride) + stride * r := by rw [Nat.mul_comm stride r]; omega
  have hpos : 0 < stride := by omega
  constructor
  · rw [ha, Nat.add_mul_div_left _ _ hpos, Nat.div_eq_of_lt hlt, Nat.zero_add]
  · rw [ha, Nat.add_mul_mod_self_left, Nat.mod_eq_of_lt hlt]; omega

/-- Row `r` of a square covers exactly the offsets with that row and a column of the square. -/
theorem row_covers_iff {stride r x n a : Nat} (hx : x + n ≤ stride) :
    (r * stride + x ≤ a ∧ a < r * stride + x + n) ↔ (a / stride = r ∧ x ≤ a % stride ∧ a % stride < x + n) := by
  constructor
  · rintro ⟨h1, h2⟩
    obtain ⟨hr, hc⟩ := offset_in_row hx h1 h2 rfl
    exact ⟨hr, by omega, by omega⟩
  · rintro ⟨hr, h1, h2⟩
    have := Nat.div_add_mod a stride
    rw [hr, Nat.mul_comm] at this
    omega

theorem PixMem.read_writeRows (m : PixMem) {stride x n : Nat} (y : Nat) (f : Nat → Nat → Pixel) (h a : Nat)
    (hx : x + n ≤ stride) :
    (m.writeRows stride x y n f h).read a =
      if x ≤ a % stride ∧ a % stride < x + n ∧ y ≤ a / stride ∧ a / stride < y + h
      then f (a / stride - y) (a % stride - x) else m.read a := by
  induction h with
  | zero => rw [if_neg (by omega)]; rfl
  | succ h ih =>
    rw [PixMem.writeRows, PixMem.read_writeRow, ih]
    by_cases hc : (y + h) * stride + x ≤ a ∧ a < (y + h) * stride + x + n
    · have hrc := (row_covers_iff hx).1 hc
      rw [if_pos hc, if_pos (by omega), hrc.1]
      have := Nat.div_add_mod a stride
      rw [hrc.1, Nat.mul_comm] at this
      congr 1 <;> omega
    · rw [if_neg hc]
      have hn : ¬ (a / stride = y + h ∧ x ≤ a % stride ∧ a % stride < x + n) :=
        fun hh => hc ((row_covers_iff hx).2 hh)
      by_cases hi : x ≤ a % stride ∧ a % stride < x + n ∧ y ≤ a / stride ∧ a / stride < y + h
      · rw [if_pos hi, if_pos (by omega)]
      · rw [if_neg hi, if_neg (by omega)]

/-- A blit writes the elements of its square and no other. -/
theorem PixMem.read_blit (m : PixMem) {stride x n : Nat} (y : Nat) (f : Nat → Nat → Pixel) (a : Nat)
    (hx : x + n ≤ stride) :
    (m.blit stride x y n f).read a =
      if x ≤ a % stride ∧ a % stride < x + n ∧ y ≤ a / stride ∧ a / stride < y + n
      then f (a / stride - y) (a % stride - x) else m.read a :=
  PixMem.read_writeRows m y f n a hx

/-- Inside its square, a blit writes what it is told. -/
theorem PixMem.read_blit_inside (m : PixMem) {stride x n : Nat} (y : Nat) (f : Nat → Nat → Pixel) {i j : Nat}
    (hx : x + n ≤ stride) (hi : i < n) (hj : j < n) :
    (m.blit stride x y n f).read ((y + j) * stride + (x + i)) = f j i := by
  have hpos : 0 < stride := by omega
  have h1 : ((y + j) * stride + (x + i)) / stride = y + j := by
    rw [Nat.add_comm, Nat.add_mul_div_right _ _ hpos, Nat.div_eq_of_lt (by omega), Nat.zero_add]
  have h2 : ((y + j) * stride + (x + i)) % stride = x + i := by
    rw [Nat.add_comm, Nat.add_mul_mod_self_right, Nat.mod_eq_of_lt (by omega)]
  rw [PixMem.read_blit m y f _ hx, h1, h2, if_pos (by omega)]
  congr 1 <;> omega

/-! ## The frame-1 copy -/

/-- Keeping the offsets that `p` holds of. -/
theorem PixMem.read_filter (m : PixMem) (p : Nat → Bool) (a : Nat) :
    PixMem.read (m.filter fun e => p e.1) a = if p a then m.read a else defaultPixel := by
  induction m with
  | nil => simp
  | cons e t ih =>
    by_cases he : p e.1
    · simp only [he, List.filter_cons_of_pos, PixMem.read, ih]
      by_cases ha : a = e.1
      · simp [ha, he]
      · simp [ha]
    · rw [List.filter_cons_of_neg (by simpa using he), ih]
      by_cases ha : p a
      · have : a ≠ e.1 := fun hh => he (hh ▸ ha)
        simp [ha, this, PixMem.read]
      · simp [ha]

theorem PixMem.read_append (m t : PixMem) (a : Nat) :
    PixMem.read (m ++ t) a = if (∀ e ∈ m, e.1 ≠ a) then t.read a else m.read a := by
  induction m with
  | nil => simp
  | cons e m ih =>
    by_cases ha : a = e.1
    · subst ha; simp [PixMem.read]
    · have : (∀ e' ∈ e :: m, e'.1 ≠ a) ↔ ∀ e' ∈ m, e'.1 ≠ a := by
        simp [Ne.symm ha]
      simp only [List.cons_append, PixMem.read, ha, if_false, ih, this]

/-- After the copy the first `n` elements read as in the source, the others as before. -/
theorem PixMem.read_copyFirst (n : Nat) (src dst : PixMem) (a : Nat) :
    (PixMem.copyFirst n src dst).read a = if a < n then src.read a else dst.read a := by
  unfold PixMem.copyFirst
  rw [PixMem.read_append, PixMem.read_filter dst fun b => decide (n ≤ b), PixMem.read_filter src fun b => decide (b < n)]
  by_cases ha : a < n
  · simp only [ha, decide_true, if_true, show ¬ n ≤ a by omega, decide_false]
    split
    · next h =>
      have := PixMem.read_of_not_listed h
      rw [PixMem.read_filter src fun b => decide (b < n), if_pos (by simpa using ha)] at this
      simpa using this.symm
    · rfl
  · rw [if_pos (by simp; omega)]
    simp [ha, show n ≤ a by omega]

/-! ## The canonical form -/

theorem PixMem.wf_cons (e : Nat × Pixel) (t : PixMem) :
    PixMem.wf (e :: t) = true ↔ e.2 ≠ defaultPixel ∧ (∀ e' ∈ t, e.1 < e'.1) ∧ PixMem.wf t = true := by
  induction t generalizing e with
  | nil => simp [PixMem.wf]
  | cons e2 t ih =>
    have h2 := ih e2
    simp only [PixMem.wf, Bool.and_eq_true, bne_iff_ne, decide_eq_true_eq, List.mem_cons, forall_eq_or_imp]
    constructor
    · rintro ⟨⟨hv, hlt⟩, hw⟩
      exact ⟨hv, ⟨hlt, fun e' he' => hlt.trans ((h2.1 hw).2.1 e' he')⟩, hw⟩
    · rintro ⟨hv, ⟨hlt, -⟩, hw⟩
      exact ⟨⟨hv, hlt⟩, hw⟩

/-- The canonical form in words: every entry is not the default, and offsets rise strictly. -/
theorem PixMem.wf_iff (m : PixMem) :
    m.wf = true ↔ (∀ e ∈ m, e.2 ≠ defaultPixel) ∧ m.Pairwise fun e e' => e.1 < e'.1 := by
  induction m with
  | nil => simp [PixMem.wf]
  | cons e t ih =>
    rw [PixMem.wf_cons, ih, List.pairwise_cons]
    simp only [List.mem_cons, forall_eq_or_imp]
    tauto

theorem PixMem.wf_filter {m : PixMem} (p : Nat × Pixel → Bool) (h : m.wf = true) : PixMem.wf (m.filter p) = true := by
  rw [PixMem.wf_iff] at h ⊢
  exact ⟨fun e he => h.1 e (List.mem_filter.1 he).1, h.2.filter p⟩

theorem PixMem.mem_insert {m : PixMem} {a : Nat} {v : Pixel} {e : Nat × Pixel} :
    e ∈ PixMem.insert a v m ↔ e = (a, v) ∨ e ∈ m := by
  induction m with
  | nil => simp [PixMem.insert]
  | cons e' t ih =>
    unfold PixMem.insert
    split
    · simp
    · simp only [List.mem_cons, ih]
      tauto

theorem PixMem.wf_insert {m : PixMem} {a : Nat} {v : Pixel} (h : m.wf = true) (hv : v ≠ defaultPixel)
    (ha : ∀ e ∈ m, e.1 ≠ a) : PixMem.wf (PixMem.insert a v m) = true := by
  induction m with
  | nil => simpa [PixMem.insert, PixMem.wf] using hv
  | cons e t ih =>
    have hw := (PixMem.wf_cons e t).1 h
    have hne : e.1 ≠ a := ha e (by simp)
    unfold PixMem.insert
    split
    · next hlt =>
      refine (PixMem.wf_cons _ _).2 ⟨hv, fun e' he' => ?_, h⟩
      rcases List.mem_cons.1 he' with rfl | he'
      · exact hlt
      · exact lt_trans hlt (hw.2.1 e' he')
    · next hge =>
      refine (PixMem.wf_cons _ _).2 ⟨hw.1, fun e' he' => ?_, ih hw.2.2 fun e' he' => ha e' (by simp [he'])⟩
      rcases PixMem.mem_insert.1 he' with rfl | he'
      · show e.1 < a
        have : ¬ a < e.1 := hge
        omega
      · exact hw.2.1 e' he'

/-- Every write keeps the canonical form. -/
theorem PixMem.wf_write {m : PixMem} (a : Nat) (v : Pixel) (h : m.wf = true) : (m.write a v).wf = true := by
  unfold PixMem.write
  split
  · exact PixMem.wf_filter _ h
  · next hv => exact PixMem.wf_insert (PixMem.wf_filter _ h) hv fun e he => (PixMem.mem_erase.1 he).2

/-- A property of entries that every entry of the old memory and every written entry has. -/
theorem PixMem.all_write {m : PixMem} {a : Nat} {v : Pixel} {P : Nat × Pixel → Prop} (h : ∀ e ∈ m, P e)
    (hv : P (a, v)) : ∀ e ∈ m.write a v, P e := by
  intro e he
  unfold PixMem.write at he
  split at he
  · exact h e (PixMem.mem_erase.1 he).1
  · rcases PixMem.mem_insert.1 he with rfl | he
    · exact hv
    · exact h e (PixMem.mem_erase.1 he).1

theorem PixMem.wf_writeRow {m : PixMem} (a : Nat) (f : Nat → Pixel) (n : Nat) (h : m.wf = true) :
    (m.writeRow a f n).wf = true := by
  induction n with
  | zero => exact h
  | succ n ih => exact PixMem.wf_write _ _ ih

theorem PixMem.wf_writeRows {m : PixMem} (stride x y n : Nat) (f : Nat → Nat → Pixel) (k : Nat) (h : m.wf = true) :
    (m.writeRows stride x y n f k).wf = true := by
  induction k with
  | zero => exact h
  | succ k ih => exact PixMem.wf_writeRow _ _ _ ih

/-- A blit keeps the canonical form. -/
theorem PixMem.wf_blit {m : PixMem} (stride x y n : Nat) (f : Nat → Nat → Pixel) (h : m.wf = true) :
    (m.blit stride x y n f).wf = true :=
  PixMem.wf_writeRows _ _ _ _ _ _ h

theorem PixMem.all_writeRow {m : PixMem} {a n : Nat} {f : Nat → Pixel} {P : Nat × Pixel → Prop} (h : ∀ e ∈ m, P e)
    (hf : ∀ i < n, P (a + i, f i)) : ∀ e ∈ m.writeRow a f n, P e := by
  induction n with
  | zero => exact h
  | succ n ih => exact PixMem.all_write (ih fun i hi => hf i (by omega)) (hf n (by omega))

theorem PixMem.all_writeRows {m : PixMem} {stride x y n k : Nat} {f : Nat → Nat → Pixel} {P : Nat × Pixel → Prop}
    (h : ∀ e ∈ m, P e) (hf : ∀ j < k, ∀ i < n, P ((y + j) * stride + x + i, f j i)) :
    ∀ e ∈ m.writeRows stride x y n f k, P e := by
  induction k with
  | zero => exact h
  | succ k ih =>
    exact PixMem.all_writeRow (ih fun j hj => hf j (by omega)) (hf k (by omega))

/-- A property of entries that a blit keeps. -/
theorem PixMem.all_blit {m : PixMem} {stride x y n : Nat} {f : Nat → Nat → Pixel} {P : Nat × Pixel → Prop}
    (h : ∀ e ∈ m, P e) (hf : ∀ j < n, ∀ i < n, P ((y + j) * stride + x + i, f j i)) :
    ∀ e ∈ m.blit stride x y n f, P e :=
  PixMem.all_writeRows h hf

/-- The frame-1 copy keeps the canonical form. -/
theorem PixMem.wf_copyFirst {src dst : PixMem} (n : Nat) (hs : src.wf = true) (hd : dst.wf = true) :
    (PixMem.copyFirst n src dst).wf = true := by
  rw [PixMem.wf_iff] at hs hd ⊢
  refine ⟨fun e he => ?_, List.pairwise_append.2 ⟨hs.2.filter _, hd.2.filter _, fun e he e' he' => ?_⟩⟩
  · rcases List.mem_append.1 he with he | he
    · exact hs.1 e (List.mem_filter.1 he).1
    · exact hd.1 e (List.mem_filter.1 he).1
  · have h1 := (List.mem_filter.1 he).2
    have h2 := (List.mem_filter.1 he').2
    simp only [decide_eq_true_eq] at h1 h2
    omega

theorem PixMem.all_copyFirst {src dst : PixMem} {n : Nat} {P : Nat × Pixel → Prop} (hs : ∀ e ∈ src, P e)
    (hd : ∀ e ∈ dst, P e) : ∀ e ∈ PixMem.copyFirst n src dst, P e := by
  intro e he
  rcases List.mem_append.1 he with he | he
  · exact hs e (List.mem_filter.1 he).1
  · exact hd e (List.mem_filter.1 he).1

/-- A read gives the default or a listed value. -/
theorem PixMem.read_default_or_listed (m : PixMem) (a : Nat) : m.read a = defaultPixel ∨ (a, m.read a) ∈ m := by
  induction m with
  | nil => exact .inl rfl
  | cons e t ih =>
    unfold PixMem.read
    split
    · next h => subst h; exact .inr (by simp)
    · exact ih.imp id (List.mem_cons_of_mem _)

end Sys2Proof.Machine
end

