-- ==== Sys2Proof/Laws/Operands.lean ====
section
/-! SUPPORT. The operand forms and the accumulator as numbers. -/

namespace Sys2Proof.Machine

theorem modeCode_toNat (word : Half) (left : BitVec 4) :
    (modeCode word left).toNat = word.toNat / 4 ^ left.toNat % 4 := by
  unfold modeCode
  rw [BitVec.extractLsb'_toNat, BitVec.toNat_ushiftRight]
  simp [Nat.shiftRight_eq_div_pow, Nat.pow_mul]

theorem highByte_eq_zero (arg : Half) : highByte arg = 0#8 ↔ arg.toNat / 256 = 0 := by
  rw [← highByte_toNat]; simp [BitVec.toNat_eq]

theorem lowByte_eq_zero (arg : Half) : lowByte arg = 0#8 ↔ arg.toNat % 256 = 0 := by
  rw [← lowByte_toNat]; simp [BitVec.toNat_eq]

theorem count2_le (arg : Half) : count2 arg ≤ 256 := by
  unfold count2
  split
  · omega
  · exact (highByte arg).isLt.le

theorem count4_le (arg : Half) (size : Word) (hasAlpha : Bool) : count4 arg size hasAlpha ≤ 256 := by
  unfold count4
  split
  · exact (lowByte arg).isLt.le
  · split <;> omega

theorem bytesPerCell2_eq (hasAlpha : Bool) : bytesPerCell2 hasAlpha = (if hasAlpha then 8 else 4) + 2 := by
  cases hasAlpha <;> rfl

theorem accOverflows_iff (sum : Int) : accOverflows sum = true ↔ sum < -32768 ∨ 32767 < sum := by
  simp only [accOverflows, Bool.or_eq_true, decide_eq_true_eq]

/-- Outside the mode `fault` an addition always gives a sample. -/
theorem add16_some {mode : AccOverflow} (h : mode ≠ .fault) (acc : Half) (delta : Int) :
    ∃ a, add16 mode acc delta = some a := by
  cases mode
  · exact ⟨_, rfl⟩
  · exact ⟨_, rfl⟩
  · exact absurd rfl h

theorem ofInt16_toInt {v : Int} (h1 : -32768 ≤ v) (h2 : v ≤ 32767) : (BitVec.ofInt 16 v).toInt = v := by
  rw [BitVec.toInt_ofInt]
  simp only [Int.bmod]
  omega

end Sys2Proof.Machine
end

