-- ==== Sys2Proof/Laws/Ops.lean ====
section
/-! SUPPORT. What each shared operation can do, once: the two reads, GetMode, loops, block commands. -/

namespace Sys2Proof.Machine

/-! ## Parts of a command -/

@[simp] theorem Res.bind_ok {α β : Type} (a : α) (s : State) (k : α → State → Res β) :
    (Res.ok a s).bind k = k a s := rfl
@[simp] theorem Res.bind_raised {α β : Type} (c : Cause) (s : State) (k : α → State → Res β) :
    (Res.raised c s : Res α).bind k = .raised c s := rfl
@[simp] theorem Res.settle_ok {α : Type} (a : α) (s : State) (k : α → State → State) :
    (Res.ok a s).settle k = .next (k a s) := rfl
@[simp] theorem Res.settle_raised {α : Type} (c : Cause) (s : State) (k : α → State → State) :
    (Res.raised c s : Res α).settle k = .next (takeFault c s) := rfl

/-- A part that holds at the state reached, whether it goes on or raises. -/
def Res.Holds {α : Type} (r : Res α) (P : State → Prop) : Prop :=
  match r with
  | .ok _ s     => P s
  | .raised _ s => P s

theorem Res.Holds.bind {α β : Type} {r : Res α} {k : α → State → Res β} {P : State → Prop}
    (hr : r.Holds P) (hk : ∀ a s, P s → (k a s).Holds P) : (r.bind k).Holds P := by
  cases r with
  | ok a s => exact hk a s hr
  | raised c s => exact hr

/-- The end of a command answers a next state always, and it is reached from a state of which the part's property holds. -/
theorem Res.Holds.settle {α : Type} {r : Res α} {k : α → State → State} {P Q : State → Prop}
    (hr : r.Holds P) (hk : ∀ a s, P s → Q (k a s)) (hf : ∀ c s, P s → Q (takeFault c s)) :
    ∃ t, r.settle k = .next t ∧ Q t := by
  cases r with
  | ok a s => exact ⟨_, rfl, hk a s hr⟩
  | raised c s => exact ⟨_, rfl, hf c s hr⟩

theorem Res.bind_assoc {α β γ : Type} (r : Res α) (k : α → State → Res β) (k' : β → State → Res γ) :
    (r.bind k).bind k' = r.bind fun a s => (k a s).bind k' := by
  cases r <;> rfl

/-! ## Loops -/

@[simp] theorem forFrom_zero (f : Nat → State → Res Unit) (a : Nat) (s : State) : forFrom f 0 a s = .ok () s := rfl

theorem forFrom_succ (f : Nat → State → Res Unit) (n a : Nat) (s : State) :
    forFrom f (n + 1) a s = (f a s).bind fun _ t => forFrom f n (a + 1) t := rfl

/-- A loop's last round taken apart. -/
theorem forFrom_snoc (f : Nat → State → Res Unit) (n a : Nat) (s : State) :
    forFrom f (n + 1) a s = (forFrom f n a s).bind fun _ t => f (a + n) t := by
  induction n generalizing a s with
  | zero =>
    simp only [forFrom_succ, forFrom_zero, Res.bind_ok, Nat.add_zero]
    cases f a s <;> rfl
  | succ n ih =>
    rw [forFrom_succ, forFrom_succ, Res.bind_assoc]
    congr 1
    funext _ t
    rw [ih, show a + 1 + n = a + (n + 1) by omega]

/-- A property every round keeps is kept by the loop. -/
theorem forFrom_holds {f : Nat → State → Res Unit} {P : State → Prop} (hf : ∀ i s, P s → (f i s).Holds P)
    (n a : Nat) (s : State) (h : P s) : (forFrom f n a s).Holds P := by
  induction n generalizing a s with
  | zero => exact h
  | succ n ih => exact (hf a s h).bind fun _ t ht => ih (a + 1) t ht

/-- The same where only the rounds of the loop keep it. -/
theorem forFrom_holds_of_lt {f : Nat → State → Res Unit} {P : State → Prop} (n a : Nat)
    (hf : ∀ i s, a ≤ i → i < a + n → P s → (f i s).Holds P) (s : State) (h : P s) : (forFrom f n a s).Holds P := by
  induction n generalizing a s with
  | zero => exact h
  | succ n ih =>
    exact (hf a s (by omega) (by omega) h).bind fun _ t ht =>
      ih (a + 1) (fun i s h1 h2 => hf i s (by omega) (by omega)) t ht

/-- Rounds that all succeed, each leading from `P i` to `P (i + 1)`. -/
theorem forFrom_ok {f : Nat → State → Res Unit} {P : Nat → State → Prop} {n : Nat} (a : Nat)
    (hf : ∀ i s, a ≤ i → i < a + n → P i s → ∃ t, f i s = .ok () t ∧ P (i + 1) t) {s : State} (h : P a s) :
    ∃ t, forFrom f n a s = .ok () t ∧ P (a + n) t := by
  induction n with
  | zero => exact ⟨s, rfl, h⟩
  | succ n ih =>
    obtain ⟨t, ht, hp⟩ := ih fun i s h1 h2 => hf i s h1 (by omega)
    obtain ⟨u, hu, hq⟩ := hf (a + n) t (by omega) (by omega) hp
    exact ⟨u, by rw [forFrom_snoc, ht, Res.bind_ok, hu], hq⟩

/-- A loop that raises in round `k`, the rounds before it succeeding. -/
theorem forFrom_raised {f : Nat → State → Res Unit} {n k a : Nat} {s t u : State} {c : Cause} (hk : k < n)
    (hok : forFrom f k a s = .ok () t) (hr : f (a + k) t = .raised c u) : forFrom f n a s = .raised c u := by
  induction n with
  | zero => omega
  | succ n ih =>
    rw [forFrom_snoc]
    by_cases h : k = n
    · subst h; rw [hok, Res.bind_ok, hr]
    · rw [ih (by omega), Res.bind_raised]

/-! ## PayRead -/

theorem payRead_of_fits {n : Nat} {s : State} (h1 : s.ppos + n ≤ s.chSize.toNat) (h2 : s.ppos + n ≤ s.pay.length) :
    payRead n s = .ok ((s.pay.drop s.ppos).take n) { s with ppos := s.ppos + n } := by
  rw [payRead, if_pos ⟨h1, h2⟩]

theorem payRead_of_short {n : Nat} {s : State} (h : ¬(s.ppos + n ≤ s.chSize.toNat ∧ s.ppos + n ≤ s.pay.length)) :
    payRead n s = .raised (.payloadUnderrun s.chId s.ppos) s := by
  rw [payRead, if_neg h]

/-- Everything `PayRead` can do. -/
theorem payRead_cases (n : Nat) (s : State) :
    (s.ppos + n ≤ s.chSize.toNat ∧ s.ppos + n ≤ s.pay.length ∧
      payRead n s = .ok ((s.pay.drop s.ppos).take n) { s with ppos := s.ppos + n } ∧
      ((s.pay.drop s.ppos).take n).length = n) ∨
    (payRead n s = .raised (.payloadUnderrun s.chId s.ppos) s) := by
  by_cases h : s.ppos + n ≤ s.chSize.toNat ∧ s.ppos + n ≤ s.pay.length
  · refine .inl ⟨h.1, h.2, payRead_of_fits h.1 h.2, ?_⟩
    rw [List.length_take, List.length_drop]; omega
  · exact .inr (payRead_of_short h)

theorem payRead_ok {n : Nat} {s t : State} {b : List Byte} (h : payRead n s = .ok b t) :
    t = { s with ppos := s.ppos + n } ∧ b = (s.pay.drop s.ppos).take n ∧ b.length = n ∧
      s.ppos + n ≤ s.chSize.toNat ∧ s.ppos + n ≤ s.pay.length := by
  rcases payRead_cases n s with ⟨h1, h2, he, hl⟩ | he
  · rw [he] at h
    cases h
    exact ⟨rfl, rfl, hl, h1, h2⟩
  · rw [he] at h; cases h

theorem payRead_raised {n : Nat} {s t : State} {c : Cause} (h : payRead n s = .raised c t) :
    t = s ∧ c = .payloadUnderrun s.chId s.ppos := by
  rcases payRead_cases n s with ⟨-, -, he, -⟩ | he <;> rw [he] at h <;> cases h
  exact ⟨rfl, rfl⟩

/-- A property that does not mention `PPOS` beyond the payload is kept by `PayRead`. -/
theorem payRead_holds {P : State → Prop} (n : Nat) {s : State} (h : P s)
    (hn : ∀ k, k ≤ s.pay.length → P { s with ppos := k }) : (payRead n s).Holds P := by
  rcases payRead_cases n s with ⟨_, h2, e, _⟩ | e <;> rw [e]
  · exact hn _ h2
  · exact h

/-- Byte `k` of a window of the payload. -/
theorem getD_window (l : List Byte) (a : Nat) {n k : Nat} (hk : k < n) (d : Byte) :
    ((l.drop a).take n).getD k d = l.getD (a + k) d := by
  simp [List.getD_eq_getElem?_getD, hk]

/-! ## SrcRead -/

@[simp] theorem srcRead_zero (s : State) : srcRead 0 s = .ok [] s := rfl

theorem srcRead_hang {n : Nat} {s : State} {t : List SrcAnswer} (hn : 0 < n) (h : s.srcAns = .hang :: t) :
    srcRead n s = .hang := by
  simp [srcRead, h, show n ≠ 0 by omega]

theorem srcRead_fail {n : Nat} {s : State} {t : List SrcAnswer} (hn : 0 < n) (h : s.srcAns = .fail :: t) :
    srcRead n s = .fail { s with srcAns := t } := by
  simp [srcRead, h, show n ≠ 0 by omega]

theorem srcRead_serve {n : Nat} {s : State} (hn : 0 < n) (h : s.srcAns = [] ∨ ∃ t, s.srcAns = .serve :: t) :
    srcRead n s =
      if s.spos + n ≤ s.src.length then
        .ok ((s.src.drop s.spos).take n) { s with srcAns := s.srcAns.tail, spos := s.spos + n }
      else
        .short { s with srcAns := s.srcAns.tail, spos := Config.sposAfterShort s.freeCtr, freeCtr := s.freeCtr + 1 } := by
  have hn : n ≠ 0 := by omega
  rcases h with h | ⟨t, h⟩ <;> simp [srcRead, h, hn]

theorem State.ServesNext.head {s : State} {n : Nat} (h : s.ServesNext (n + 1)) :
    s.srcAns = [] ∨ ∃ t, s.srcAns = .serve :: t := by
  cases hs : s.srcAns with
  | nil => exact .inl rfl
  | cons a t =>
    have := h a (by rw [hs]; simp)
    exact .inr ⟨t, by rw [this]⟩

/-- After one read the source serves one read less, whatever else the state has become. -/
theorem State.ServesNext.tail {s t : State} {n : Nat} (h : s.ServesNext (n + 1)) (ht : t.srcAns = s.srcAns.tail) :
    t.ServesNext n := by
  intro a ha
  rw [ht] at ha
  cases hs : s.srcAns with
  | nil => simp [hs] at ha
  | cons b l => exact h a (by rw [hs] at ha ⊢; simpa using .inr ha)

/-- Everything `SrcRead` can do to the state: it touches `SPOS`, the source's answers and the free counter only. -/
theorem srcRead_cases (n : Nat) (s : State) :
    (n = 0 ∧ srcRead n s = .ok [] s) ∨
    ((∃ t, s.srcAns = .hang :: t) ∧ srcRead n s = .hang) ∨
    (srcRead n s = .fail { s with srcAns := s.srcAns.tail }) ∨
    (s.spos + n ≤ s.src.length ∧ srcRead n s =
      .ok ((s.src.drop s.spos).take n) { s with srcAns := s.srcAns.tail, spos := s.spos + n }) ∨
    (s.src.length < s.spos + n ∧ srcRead n s =
      .short { s with srcAns := s.srcAns.tail, spos := Config.sposAfterShort s.freeCtr, freeCtr := s.freeCtr + 1 }) := by
  rcases Nat.eq_zero_or_pos n with rfl | hn
  · exact .inl ⟨rfl, rfl⟩
  have serve (h : s.srcAns = [] ∨ ∃ t, s.srcAns = .serve :: t) := srcRead_serve hn h
  have split : (s.srcAns = [] ∨ ∃ t, s.srcAns = .serve :: t) ∨ (∃ t, s.srcAns = .fail :: t) ∨
      (∃ t, s.srcAns = .hang :: t) := by
    rcases s.srcAns with _ | ⟨_ | _ | _, t⟩ <;> simp
  rcases split with h | ⟨t, h⟩ | ⟨t, h⟩
  · by_cases hl : s.spos + n ≤ s.src.length
    · exact .inr (.inr (.inr (.inl ⟨hl, by rw [serve h, if_pos hl]⟩)))
    · exact .inr (.inr (.inr (.inr ⟨by omega, by rw [serve h, if_neg hl]⟩)))
  · exact .inr (.inr (.inl (by rw [srcRead_fail hn h, h]; rfl)))
  · exact .inr (.inl ⟨⟨t, h⟩, srcRead_hang hn h⟩)

theorem srcRead_ok {n : Nat} {s t : State} {b : List Byte} (h : srcRead n s = .ok b t) :
    b.length = n ∧ t = { s with spos := s.spos + n, srcAns := t.srcAns } ∧ (t.spos ≤ s.src.length ∨ n = 0) := by
  rcases srcRead_cases n s with ⟨e0, e⟩ | ⟨_, e⟩ | e | ⟨h1, e⟩ | ⟨_, e⟩ <;> rw [e] at h <;> cases h
  · subst e0; exact ⟨rfl, rfl, .inr rfl⟩
  · exact ⟨by rw [List.length_take, List.length_drop]; omega, rfl, .inl h1⟩

theorem srcRead_short {n : Nat} {s t : State} (h : srcRead n s = .short t) :
    t = { s with spos := t.spos, srcAns := t.srcAns, freeCtr := t.freeCtr } := by
  rcases srcRead_cases n s with ⟨e0, e⟩ | ⟨_, e⟩ | e | ⟨h1, e⟩ | ⟨_, e⟩ <;> rw [e] at h <;> cases h
  rfl

theorem srcRead_failed {n : Nat} {s t : State} (h : srcRead n s = .fail t) : t = { s with srcAns := t.srcAns } := by
  rcases srcRead_cases n s with ⟨e0, e⟩ | ⟨_, e⟩ | e | ⟨h1, e⟩ | ⟨_, e⟩ <;> rw [e] at h <;> cases h
  rfl

/-! ## GetMode -/

/-- Everything GetMode can do. -/
theorem getMode_cases (s : State) :
    (s.mbLeft ≠ 0 ∧ getMode s = .ok (modeCode s.mbWord (s.mbLeft - 1)) { s with mbLeft := s.mbLeft - 1 }) ∨
    (s.mbLeft = 0 ∧ ∃ b, b.length = 2 ∧ b = (s.pay.drop s.ppos).take 2 ∧
      s.ppos + 2 ≤ s.chSize.toNat ∧ s.ppos + 2 ≤ s.pay.length ∧
      getMode s = .ok (modeCode (le16 (b.getD 0 0) (b.getD 1 0)) 7)
        { s with ppos := s.ppos + 2, mbWord := le16 (b.getD 0 0) (b.getD 1 0), mbLeft := 7 }) ∨
    (s.mbLeft = 0 ∧ getMode s = .raised (.payloadUnderrun s.chId s.ppos) s) := by
  by_cases h : s.mbLeft = 0
  · rcases payRead_cases 2 s with ⟨h1, h2, he, hl⟩ | he
    · refine .inr (.inl ⟨h, _, hl, rfl, h1, h2, ?_⟩)
      simp [getMode, h, he]
    · exact .inr (.inr ⟨h, by rw [getMode, if_pos h, he]; rfl⟩)
  · exact .inl ⟨h, by rw [getMode, if_neg h]⟩

/-! ## Block commands -/

theorem atBlock8_inside {s : State} {p : BlockPos} (go : BlockPos → Ctl) (k : Nat → Nat → State → State)
    (hc : s.ctl = .block p) (hx : p.x + 8 ≤ s.width.toNat) (hy : p.y + 8 ≤ s.height.toNat) :
    atBlock8 s go k = .next { k p.x p.y s with ctl := go p } := by
  simp [atBlock8, hc, hx, hy]

theorem atBlock4_inside {s : State} {p : BlockPos} {q : Fin 4} (k : Nat → Nat → State → State)
    (hc : s.ctl = .sub p q) (hx : p.subX q + 4 ≤ s.width.toNat) (hy : p.subY q + 4 ≤ s.height.toNat) :
    atBlock4 s k = .next { k (p.subX q) (p.subY q) s with ctl := afterSub s p q } := by
  simp [atBlock4, hc, hx, hy]

/-- A block command at depth 8×8 that answers a next state was at a block inside the frame. -/
theorem atBlock8_next {s t : State} {go : BlockPos → Ctl} {k : Nat → Nat → State → State}
    (h : atBlock8 s go k = .next t) :
    ∃ p, s.ctl = .block p ∧ p.x + 8 ≤ s.width.toNat ∧ p.y + 8 ≤ s.height.toNat ∧
      t = { k p.x p.y s with ctl := go p } := by
  unfold atBlock8 at h
  split at h
  · next p hc =>
    split at h
    · next hin => cases h; exact ⟨p, hc, hin.1, hin.2, rfl⟩
    · cases h
  · cases h

/-- A block command at depth 4×4 that answers a next state was at a sub-block inside the frame. -/
theorem atBlock4_next {s t : State} {k : Nat → Nat → State → State} (h : atBlock4 s k = .next t) :
    ∃ p q, s.ctl = .sub p q ∧ p.subX q + 4 ≤ s.width.toNat ∧ p.subY q + 4 ≤ s.height.toNat ∧
      t = { k (p.subX q) (p.subY q) s with ctl := afterSub s p q } := by
  unfold atBlock4 at h
  split at h
  · next p q hc =>
    split at h
    · next hin => cases h; exact ⟨p, q, hc, hin.1, hin.2, rfl⟩
    · cases h
  · cases h

/-- MotionCopy draws or logs. -/
theorem motionCopy_cases (n : Nat) (b : Byte) (px py : Nat) (s : State) :
    (∃ f, motionCopy n b px py s = s.drawBlock px py n f ∧
      ∀ j i, ∃ a, f j i = (s.fb s.prev).read a) ∨
    (∃ r, motionCopy n b px py s = logRecord r s) := by
  unfold motionCopy
  dsimp only
  split
  · exact .inl ⟨_, rfl, fun j i => ⟨_, rfl⟩⟩
  · exact .inr ⟨_, rfl⟩

/-- What a drawn block is, said as the statements say it; the pixels may be given in any form that agrees in the block. -/
theorem drawBlock_draws (s : State) {x n : Nat} (y : Nat) (f g : Nat → Nat → Pixel) (c : Ctl)
    (hx : x + n ≤ s.width.toNat) (hfg : ∀ j i, i < n → j < n → f j i = g j i) :
    DrawsBlock s { s.drawBlock x y n f with ctl := c } x y n g c where
  drawn i j hi hj := by
    show ((s.drawBlock x y n f).fb s.cur).read _ = _
    rw [State.fb_drawBlock_cur, PixMem.read_blit_inside _ _ _ hx hi hj, hfg j i hi hj]
  outside a ha := by
    show ((s.drawBlock x y n f).fb s.cur).read _ = _
    rw [State.fb_drawBlock_cur, PixMem.read_blit _ _ _ _ hx, if_neg]
    rintro ⟨h1, h2, h3, h4⟩
    refine ha (a % s.width.toNat - x) (a / s.width.toNat - y) (by omega) (by omega) ?_
    rw [Nat.add_sub_cancel' h3, Nat.add_sub_cancel' h1, Nat.mul_comm]
    exact (Nat.div_add_mod ..).symm
  previous a := by
    show ((s.drawBlock x y n f).fb s.prev).read _ = _
    rw [State.fb_drawBlock_prev]
  frame := rfl

theorem highNibble_toNat (b : Byte) : (b.extractLsb' 4 4).toNat = b.toNat / 16 := by
  simp [BitVec.extractLsb'_toNat, Nat.shiftRight_eq_div_pow]; omega

theorem lowNibble_toNat (b : Byte) : (b.extractLsb' 0 4).toNat = b.toNat % 16 := by
  simp [BitVec.extractLsb'_toNat]

/-- MotionCopy where the source block lies inside the frame. -/
theorem motionCopy_inside {s : State} {n : Nat} {b : Byte} {px py sx sy : Nat}
    (h1 : (sx : Int) = px + (8 - (b.toNat / 16 : Nat) - s.argX.toInt))
    (h2 : (sy : Int) = py + (8 - (b.toNat % 16 : Nat) - s.argY.toInt))
    (h3 : sx + n ≤ s.width.toNat) (h4 : sy + n ≤ s.height.toNat) :
    motionCopy n b px py s =
      s.drawBlock px py n fun j i => (s.fb s.prev).read ((sy + j) * s.width.toNat + (sx + i)) := by
  unfold motionCopy motionX motionY
  simp only [highNibble_toNat, lowNibble_toNat, ← h1, ← h2]
  rw [if_pos]
  · simp
  · simp [motionInBounds]; omega

/-- MotionCopy where it does not. -/
theorem motionCopy_outside {s : State} {n : Nat} {b : Byte} {px py : Nat} {dx dy : Int}
    (h1 : dx = 8 - (b.toNat / 16 : Nat) - s.argX.toInt) (h2 : dy = 8 - (b.toNat % 16 : Nat) - s.argY.toInt)
    (h : ¬(0 ≤ px + dx ∧ px + dx ≤ (s.width.toNat : Int) - n ∧
      0 ≤ py + dy ∧ py + dy ≤ (s.height.toNat : Int) - n)) :
    motionCopy n b px py s = logRecord (.oobMotion n px py dx dy) s := by
  unfold motionCopy motionX motionY
  simp only [highNibble_toNat, lowNibble_toNat, ← h1, ← h2]
  rw [if_neg]
  simp [motionInBounds]; omega

/-! ## The block modes that draw, at a block inside the frame -/

theorem exec_fcc8_inside {s : State} {p : BlockPos} (b : Byte) (hc : s.ctl = .block p)
    (hx : p.x + 8 ≤ s.width.toNat) (hy : p.y + 8 ≤ s.height.toNat) :
    exec (.fcc8 b) s = .next { motionCopy 8 b p.x p.y s with ctl := afterBlock s p } := by
  simp only [exec, execFcc8]; rw [atBlock8_inside _ _ hc hx hy]

theorem exec_sdl8_inside {s : State} {p : BlockPos} (c : Byte) (hc : s.ctl = .block p)
    (hx : p.x + 8 ≤ s.width.toNat) (hy : p.y + 8 ≤ s.height.toNat) :
    exec (.sdl8 c) s =
      .next { s.drawBlock p.x p.y 8 (fun j i => s.cell4 c (j / 2) (i / 2)) with ctl := afterBlock s p } := by
  simp only [exec, execSdl8]; rw [atBlock8_inside _ _ hc hx hy]

theorem exec_fcc4_inside {s : State} {p : BlockPos} {q : Fin 4} (b : Byte) (hc : s.ctl = .sub p q)
    (hx : p.subX q + 4 ≤ s.width.toNat) (hy : p.subY q + 4 ≤ s.height.toNat) :
    exec (.fcc4 b) s = .next { motionCopy 4 b (p.subX q) (p.subY q) s with ctl := afterSub s p q } := by
  simp only [exec, execFcc4]; rw [atBlock4_inside _ hc hx hy]

theorem exec_sdl4_inside {s : State} {p : BlockPos} {q : Fin 4} (c : Byte) (hc : s.ctl = .sub p q)
    (hx : p.subX q + 4 ≤ s.width.toNat) (hy : p.subY q + 4 ≤ s.height.toNat) :
    exec (.sdl4 c) s =
      .next { s.drawBlock (p.subX q) (p.subY q) 4 (fun j i => s.cell4 c j i) with ctl := afterSub s p q } := by
  simp only [exec, execSdl4]; rw [atBlock4_inside _ hc hx hy]

theorem exec_ccc4_inside {s : State} {p : BlockPos} {q : Fin 4} (i0 i1 i2 i3 : Byte) (hc : s.ctl = .sub p q)
    (hx : p.subX q + 4 ≤ s.width.toNat) (hy : p.subY q + 4 ≤ s.height.toNat) :
    exec (.ccc4 i0 i1 i2 i3) s =
      .next { s.drawBlock (p.subX q) (p.subY q) 4 (s.quadCells (indexOf i0 i1 i2 i3)) with
        ctl := afterSub s p q } := by
  simp only [exec, execCcc4]; rw [atBlock4_inside _ hc hx hy]

/-! ## What a step is -/

/-- A step that answers a next state ran a command or was over with the fetch. -/
theorem step_next {s t : State} (h : step s = .next t) :
    (∃ i u, fetch s = .run i u ∧ exec i u = .next t) ∨ fetch s = .settled t := by
  unfold step at h
  split at h
  · next i u hf => exact .inl ⟨i, u, hf, h⟩
  · next u hf => cases h; exact .inr hf
  · cases h

theorem step_run {s u : State} {i : Instr} (h : fetch s = .run i u) : step s = exec i u := by
  simp [step, h]

theorem step_settled {s u : State} (h : fetch s = .settled u) : step s = .next u := by
  simp [step, h]

/-- A round of `NEXT` that fetches a chunk runs it from its start. -/
theorem fetch_chunk {s u : State} {i : Instr} (hc : s.ctl = .fetch) (h : fetchChunk s = .run i u) :
    fetch s = .run i (startChunk u) := by
  simp [fetch, hc, fetchNext, h]

theorem fetch_settled {s u : State} (hc : s.ctl = .fetch) (h : fetchChunk s = .settled u) : fetch s = .settled u := by
  simp [fetch, hc, fetchNext, h]

theorem fetchNext_run {s u : State} {i : Instr} (h : fetchNext s = .run i u) :
    ∃ v, fetchChunk s = .run i v ∧ u = startChunk v := by
  unfold fetchNext at h
  split at h <;> cases h
  exact ⟨_, ‹_›, rfl⟩

theorem fetchNext_settled {s u : State} (h : fetchNext s = .settled u) : fetchChunk s = .settled u := by
  unfold fetchNext at h
  split at h <;> cases h
  assumption

theorem RunsTo.zero (s : State) : RunsTo 0 s s := rfl

theorem RunsTo.step {k : Nat} {s t u : State} (h : Machine.step s = .next t) (h' : RunsTo k t u) :
    RunsTo (k + 1) s u := by
  show Host.Core.run Sys2Proof.core (k + 1) s = .next u
  simp only [Host.Core.run]
  rw [show Sys2Proof.core.step s = .next t from h]
  exact h'

end Sys2Proof.Machine
end

