-- ==== Sys2Proof/Laws/PerInstr.lean ====
section
/-! SUPPORT. Statements made constructor by constructor: the length of what the encoder spells (R71, R72, R81, R87). -/

namespace Sys2Proof.Laws.EncodedLength

/-- Bytes of an encoded command beside the two bits of a mode code. -/
def size : Encoded → Nat
  | .stream bytes    => bytes.length
  | .mode _ operands => operands.length

/-- The length the formats give: `4 + HDR_PAD` bytes of stream header (R71), 8 bytes and the payload of a chunk (R72), 0 to
4 operand bytes of a block mode (R87); the host commands have no encoding (R170). -/
def spelled (p : Params) : Instr → Option Nat
  | .sig _ _ _ => some (4 + p.hdrPad)
  | .info _ payload | .codebook _ payload | .frame _ payload | .sndMono _ payload | .sndStereo _ payload
  | .custom _ _ payload => some (8 + payload.length)
  | .mot8 | .ccc8 | .mot4 => some 0
  | .fcc8 _ | .sdl8 _ | .fcc4 _ | .sdl4 _ => some 1
  | .ccc4 _ _ _ _ => some 4
  | .hostOpen _ | .hostNext | .hostDrop => none

/-- A well-formed command is encoded in as many bytes as its format says. -/
def Statement (i : Instr) : Prop := ∀ p : Params, i.wf p = true → (encode i).map size = spelled p i

theorem chunk_length (id arg : Half) (payload : List Byte) :
    (encodeChunk id arg payload).length = 8 + payload.length := by
  simp [encodeChunk, bytes16, bytes32]; omega

theorem sig (signature : Half) (pad : List Byte) (framerate : Half) : Statement (.sig signature pad framerate) := by
  intro p h
  have h : pad.length = p.hdrPad := by simpa [Instr.wf] using h
  simp [encode, size, spelled, bytes16, h]; omega
theorem info (arg : Half) (payload : List Byte) : Statement (.info arg payload) := by
  intro p _; simp [encode, size, spelled, chunk_length]
theorem codebook (arg : Half) (payload : List Byte) : Statement (.codebook arg payload) := by
  intro p _; simp [encode, size, spelled, chunk_length]
theorem frame (arg : Half) (payload : List Byte) : Statement (.frame arg payload) := by
  intro p _; simp [encode, size, spelled, chunk_length]
theorem sndMono (arg : Half) (payload : List Byte) : Statement (.sndMono arg payload) := by
  intro p _; simp [encode, size, spelled, chunk_length]
theorem sndStereo (arg : Half) (payload : List Byte) : Statement (.sndStereo arg payload) := by
  intro p _; simp [encode, size, spelled, chunk_length]
theorem custom (id arg : Half) (payload : List Byte) : Statement (.custom id arg payload) := by
  intro p _; simp [encode, size, spelled, chunk_length]
theorem mot8 : Statement .mot8 := fun _ _ => rfl
theorem fcc8 (b : Byte) : Statement (.fcc8 b) := fun _ _ => rfl
theorem sdl8 (c : Byte) : Statement (.sdl8 c) := fun _ _ => rfl
theorem ccc8 : Statement .ccc8 := fun _ _ => rfl
theorem mot4 : Statement .mot4 := fun _ _ => rfl
theorem fcc4 (b : Byte) : Statement (.fcc4 b) := fun _ _ => rfl
theorem sdl4 (c : Byte) : Statement (.sdl4 c) := fun _ _ => rfl
theorem ccc4 (i0 i1 i2 i3 : Byte) : Statement (.ccc4 i0 i1 i2 i3) := fun _ _ => rfl
theorem hostOpen (source : ByteSource) : Statement (.hostOpen source) := fun _ _ => rfl
theorem hostNext : Statement .hostNext := fun _ _ => rfl
theorem hostDrop : Statement .hostDrop := fun _ _ => rfl

end Sys2Proof.Laws.EncodedLength
end

