-- ==== Sys2Proof/Laws/Sound.lean ====
section
/-! SUPPORT. Sound pixel memories: what every memory operation keeps, and the width of what the converter gives. -/

namespace Sys2Proof.Machine

theorem pixelFits_default (f : PixFmt) : pixelFits f defaultPixel := by cases f <;> simp [pixelFits, defaultPixel]

theorem packBgr565_lt (r g b : Byte) : (packBgr565 r g b).toNat < 2 ^ 16 := by
  have h : (0#16 ++ r.extractLsb' 3 5 ++ g.extractLsb' 2 6 ++ b.extractLsb' 3 5 : Pixel) =
      (0#16 ++ (r.extractLsb' 3 5 ++ g.extractLsb' 2 6 ++ b.extractLsb' 3 5 : Half) : Pixel) := by
    rw [BitVec.append_assoc, BitVec.append_assoc, BitVec.append_assoc]; rfl
  unfold packBgr565
  rw [h, BitVec.toNat_append]
  simpa using (r.extractLsb' 3 5 ++ g.extractLsb' 2 6 ++ b.extractLsb' 3 5 : Half).isLt

/-- Packing gives a pixel of its format. -/
theorem pixelFits_pack (f : PixFmt) (c : Byte × Byte × Byte × Byte) : pixelFits f (pack f c) := by
  cases f with
  | bgr565 => exact packBgr565_lt ..
  | rgba8888 => trivial

/-- The converter gives a pixel of the instance's format, whatever its `CSC`. -/
theorem pixelFits_pix (p : Params) (y cb cr a : Byte) : pixelFits p.pixFmt (pix p y cb cr a) := pixelFits_pack ..

/-- `CSC_DEFAULT` has the form R115 requires. -/
theorem cscDefault_passesAlpha : PassesAlpha .cscDefault := ⟨cscDefaultRgb, fun _ _ _ _ => rfl⟩

theorem PixMem.Sound.nil (f : PixFmt) (n : Nat) : PixMem.Sound [] f n :=
  ⟨rfl, by simp, by simp⟩

theorem PixMem.Sound.read {m : PixMem} {f : PixFmt} {n : Nat} (h : m.Sound f n) (a : Nat) : pixelFits f (m.read a) := by
  rcases m.read_default_or_listed a with e | e
  · rw [e]; exact pixelFits_default f
  · exact h.fits _ e

/-- A blit inside a memory, of pixels of the format, keeps it sound. -/
theorem PixMem.Sound.blit {m : PixMem} {fmt : PixFmt} {n stride x y k : Nat} {f : Nat → Nat → Pixel}
    (h : m.Sound fmt n) (hin : ∀ j < k, ∀ i < k, (y + j) * stride + x + i < n)
    (hf : ∀ j < k, ∀ i < k, pixelFits fmt (f j i)) : (m.blit stride x y k f).Sound fmt n where
  canonical := PixMem.wf_blit _ _ _ _ _ h.canonical
  inside    := PixMem.all_blit h.inside hin
  fits      := PixMem.all_blit h.fits hf

theorem PixMem.Sound.copyFirst {src dst : PixMem} {fmt : PixFmt} {n : Nat} (hs : src.Sound fmt n)
    (hd : dst.Sound fmt n) (k : Nat) : (PixMem.copyFirst k src dst).Sound fmt n where
  canonical := PixMem.wf_copyFirst k hs.canonical hd.canonical
  inside    := PixMem.all_copyFirst hs.inside hd.inside
  fits      := PixMem.all_copyFirst hs.fits hd.fits

/-- A block inside the frame touches elements of the frame only. -/
theorem block_inside {w h x y k i j : Nat} (hx : x + k ≤ w) (hy : y + k ≤ h) (hj : j < k) (hi : i < k) :
    (y + j) * w + x + i < w * h := by
  have h1 : (y + j) * w + w ≤ h * w := by
    rw [← Nat.succ_mul]
    exact Nat.mul_le_mul_right w (by omega)
  rw [Nat.mul_comm w h]
  omega

end Sys2Proof.Machine
end

