-- ==== Sys2Proof/Tests/Slice0.lean ====
section
/-! SUPPORT. Tests. Expected values are those of spec/95_test_vectors.md (named T, K, A, V, S, P there), of the worked examples
in the rules named, or are written out by hand from the formats of spec/30_encoding.md. -/

namespace Sys2Proof.Tests

open Sys2Proof Sys2Proof.Machine

/-! ## Small states -/

/-- An instance that plays, before INFO. -/
def playing (p : Params) : State := { State.resetWith p with st := .playing }

/-- A 16×16 stream in the default parameters. -/
def video : State := { playing Params.default with dimValid := true, width := 16, height := 16 }

/-- Inside a FRAME pass of it, before the mode of block `b`, or of its sub-block. -/
def atBlock (b : Fin 4) : State := { video with ctl := .block ⟨0, 0, b⟩ }
def atSub (b q : Fin 4) : State := { video with ctl := .sub ⟨0, 0, b⟩ q }

/-- The 4×4 cell 1 with one pixel set: row 2, column 3; the 2×2 cell 1 with pixel 2 set: row 1, column 0. -/
def cells : PixMem := [(16 + 11, 0xFF101010#32)]
def quads : PixMem := [(4 + 2, 0xFF101010#32)]

/-- A source of these bytes, at its start, read by `NEXT`. -/
def fetching (bytes : List Byte) : State := { playing Params.default with src := bytes, ctl := .fetch }

/-- What a step leaves, for looking at its fields. -/
def after (o : Host.Outcome State Fault Refusal) : State :=
  match o with
  | .next t => t
  | _ => State.reset

/-- The refusal a command ends in, if it does. -/
def refusal (o : Host.Outcome State Fault Refusal) : Option Refusal :=
  match o with
  | .refused r => some r
  | _ => none

/-! ## Well-formedness refuses -/

theorem test_wf_refuses_a_short_pad : Instr.wf Params.default (.sig 0x1084#16 [0#8, 0#8, 0#8] 30#16) = false := by decide
theorem test_wf_takes_the_right_pad : Instr.wf Params.default (.sig 0x1084#16 [0#8, 0#8, 0#8, 0#8] 30#16) = true := by decide
theorem test_wf_refuses_a_recognised_custom_id : Instr.wf Params.default (.custom 0x1011#16 0#16 []) = false := by decide
theorem test_wf_takes_another_custom_id : Instr.wf Params.default (.custom 0x1010#16 0#16 []) = true := by decide
/-- A payload of 2^32 bytes or more does not fit the `size` field of any chunk (R72). -/
theorem test_wf_refuses_a_payload_too_long (arg : Half) (payload : List Byte) (h : ¬ payload.length < 2 ^ 32) :
    Instr.wf Params.default (.info arg payload) = false ∧ Instr.wf Params.default (.codebook arg payload) = false ∧
    Instr.wf Params.default (.frame arg payload) = false ∧ Instr.wf Params.default (.sndMono arg payload) = false ∧
    Instr.wf Params.default (.sndStereo arg payload) = false ∧
    Instr.wf Params.default (.custom 0x1234#16 arg payload) = false := by
  have e : payloadFits payload = false := decide_eq_false h
  exact ⟨e, e, e, e, e, by rw [Instr.wf, e, Bool.and_false]⟩
/-- There are such payloads. -/
theorem witness_a_payload_too_long (n : Nat) : ∃ payload : List Byte, ¬ payload.length < n :=
  ⟨List.replicate n 0#8, by rw [List.length_replicate]; exact lt_irrefl n⟩

/-! ## Words written out from the formats decode (R71 to R85) -/

theorem test_decode_sig : decodeStreamHeader 4 [0x84#8, 0x10#8, 1#8, 2#8, 3#8, 4#8, 0x1E#8, 0#8, 9#8]
    = .ok (.sig 0x1084#16 [1#8, 2#8, 3#8, 4#8] 30#16, [9#8]) := by decide
theorem test_decode_sig_no_pad : decodeStreamHeader 0 [0x84#8, 0x10#8, 0x1E#8, 0#8]
    = .ok (.sig 0x1084#16 [] 30#16, []) := by decide
theorem test_decode_info : decodeChunk [0x01#8, 0x10#8, 4#8, 0#8, 0#8, 0#8, 1#8, 0#8, 0x20#8, 0#8, 0x10#8, 0#8]
    = .ok (.info 1#16 [0x20#8, 0#8, 0x10#8, 0#8], []) := by decide
theorem test_decode_codebook : decodeChunk [0x02#8, 0x10#8, 1#8, 0#8, 0#8, 0#8, 2#8, 3#8, 7#8]
    = .ok (.codebook 0x0302#16 [7#8], []) := by decide
theorem test_decode_frame : decodeChunk [0x11#8, 0x10#8, 2#8, 0#8, 0#8, 0#8, 0xFF#8, 0x01#8, 5#8, 6#8, 7#8]
    = .ok (.frame 0x01FF#16 [5#8, 6#8], [7#8]) := by decide
theorem test_decode_snd_mono : decodeChunk [0x20#8, 0x10#8, 0#8, 0#8, 0#8, 0#8, 0x10#8, 0#8]
    = .ok (.sndMono 0x10#16 [], []) := by decide
theorem test_decode_snd_stereo : decodeChunk [0x21#8, 0x10#8, 0#8, 0#8, 0#8, 0#8, 0x80#8, 0x7F#8]
    = .ok (.sndStereo 0x7F80#16 [], []) := by decide
theorem test_decode_custom : decodeChunk [0x34#8, 0x12#8, 2#8, 0#8, 0#8, 0#8, 0xEF#8, 0xBE#8, 0xAA#8, 0xBB#8]
    = .ok (.custom 0x1234#16 0xBEEF#16 [0xAA#8, 0xBB#8], []) := by decide
/-- T12: the header fields. -/
theorem test_decode_chunk_header : decodeChunkHeader [0x11#8, 0x10#8, 0x0A#8, 0#8, 0#8, 0#8, 0xFF#8, 0x01#8]
    = .ok (⟨0x1011#16, 10#32, 0x01FF#16⟩, []) := by decide
theorem test_decode_mot8 : decodeMode .d8 0b00#2 [5#8] = .ok (.mot8, [5#8]) := by decide
theorem test_decode_fcc8 : decodeMode .d8 0b01#2 [5#8, 6#8] = .ok (.fcc8 5#8, [6#8]) := by decide
theorem test_decode_sdl8 : decodeMode .d8 0b10#2 [5#8, 6#8] = .ok (.sdl8 5#8, [6#8]) := by decide
theorem test_decode_ccc8 : decodeMode .d8 0b11#2 [5#8] = .ok (.ccc8, [5#8]) := by decide
theorem test_decode_mot4 : decodeMode .d4 0b00#2 [5#8] = .ok (.mot4, [5#8]) := by decide
theorem test_decode_fcc4 : decodeMode .d4 0b01#2 [5#8, 6#8] = .ok (.fcc4 5#8, [6#8]) := by decide
theorem test_decode_sdl4 : decodeMode .d4 0b10#2 [5#8, 6#8] = .ok (.sdl4 5#8, [6#8]) := by decide
theorem test_decode_ccc4 : decodeMode .d4 0b11#2 [1#8, 2#8, 3#8, 4#8, 5#8] = .ok (.ccc4 1#8 2#8 3#8 4#8, [5#8]) := by decide
theorem test_decode_short_operands : decodeMode .d4 0b11#2 [1#8, 2#8, 3#8] = .error .shortOperands := by decide
/-- T9's header and 3 of 4 payload bytes. -/
theorem test_decode_short_payload :
    decodeChunk [0x01#8, 0x10#8, 4#8, 0#8, 0#8, 0#8, 0#8, 0#8, 0#8, 0x10#8, 0#8] = .error .shortPayload := by decide
/-- 7 bytes are not a chunk header. -/
theorem test_decode_short_header :
    decodeChunk [0x01#8, 0x10#8, 4#8, 0#8, 0#8, 0#8, 0#8] = .error .shortChunkHeader := by decide
theorem test_host_commands_have_no_encoding :
    encode .hostNext = none ∧ encode .hostDrop = none ∧ encode (.hostOpen ⟨[], []⟩) = none := by decide

/-! ## The words of the opcode table, and the step that runs them -/

theorem test_table_words :
    decodeTableWord 16 0x1084 = some (.sig 0x1084#16 [0#8, 0#8, 0#8, 0#8] 0#16) ∧
    decodeTableWord 16 0x1001 = some (.info 0#16 []) ∧ decodeTableWord 16 0x1021 = some (.sndStereo 0#16 []) ∧
    decodeTableWord 8 1 = some (.fcc8 0#8) ∧ decodeTableWord 2 3 = some .ccc8 := by decide
theorem test_step_runs_the_placed_header :
    (after (step (State.reset.withFetchWord 16 0x1084))).st = .playing := by decide
theorem test_step_runs_the_placed_chunk :
    (after (step (State.reset.withFetchWord 16 0x1234))).log = [.unknownChunk 0x1234#16 0#16 0#32] := by decide
theorem test_step_runs_the_placed_mode :
    (after (step (State.reset.withFetchWord 8 3))).ctl = .sub ⟨0, 0, 0⟩ 0 := by decide

/-! ## One step of each command -/

/-- T5. -/
theorem test_sig_starts_playing :
    let t := after (exec (.sig 0x1084#16 [] 30#16) State.reset)
    t.st = .playing ∧ t.framerate = 30#16 ∧ t.results = [.opened] := by decide
/-- T3. -/
theorem test_sig_bad_magic :
    let t := after (exec (.sig 0x1085#16 [] 30#16) State.reset)
    t.st = .fault ∧ t.faultCode = 1 ∧ t.faultInfo = 1 ∧ t.framerate = 0 := by decide
/-- T1: an empty source. -/
theorem test_open_read_fault :
    let t := after (step { State.reset with ctl := .header })
    t.st = .fault ∧ t.faultCode = 2 ∧ t.faultInfo = 1 := by decide
theorem test_open_takes_the_source :
    (after (exec (.hostOpen ⟨[7#8], []⟩) State.reset)).src = [7#8] := by decide
theorem test_open_twice_is_refused :
    refusal (exec (.hostOpen ⟨[7#8], []⟩) (playing Params.default)) = some .openOutsideUninit := by decide
theorem test_next_fetches : (after (exec .hostNext (playing Params.default))).ctl = .fetch := by decide
theorem test_next_before_open_is_refused : refusal (exec .hostNext State.reset) = some .nextOutsidePlaying := by decide
theorem test_drop_ends : (after (exec .hostDrop video)).ctl = .dropped ∧ (after (exec .hostDrop video)).width = 0 := by
  decide
theorem test_no_command_after_drop :
    refusal (exec .hostNext { State.reset with ctl := .dropped }) = some .instanceDropped := by decide
/-- T6: no byte left. -/
theorem test_end_of_stream :
    let t := after (step (fetching []))
    t.st = .finished ∧ t.results = [.event .endOfFile] := by decide
/-- T9: the payload is truncated in the source; the latches are written. -/
theorem test_truncated_payload :
    let t := after (step (fetching [0x01#8, 0x10#8, 4#8, 0#8, 0#8, 0#8, 0#8, 0#8, 0#8, 0x10#8, 0#8]))
    t.st = .fault ∧ t.faultCode = 2 ∧ t.faultInfo = 3 ∧ t.chId = 0x1001 ∧ t.chSize = 4 ∧ t.dimValid = false := by decide

/-- T11: 8 payload bytes, of which the last four are ignored. -/
theorem test_info :
    let t := after (exec (.info 0#16 [0x10#8, 0#8, 0x10#8, 0#8, 8#8, 0#8, 4#8, 0#8]) (playing Params.default))
    t.results = [.event (.initVideo 16#16 16#16 false)] ∧ t.dimValid = true ∧ t.fbLen = 256 := by decide
/-- Height 8 is no multiple of 16 (R174, D16). -/
theorem test_info_illegal_height :
    refusal (exec (.info 0#16 [0x10#8, 0#8, 8#8, 0#8]) (playing Params.default)) = some .illegalDimensions := by decide
/-- P3's third chunk. -/
theorem test_custom :
    let t := after (exec (.custom 0x1234#16 0xBEEF#16 [0xAA#8, 0xBB#8]) (playing Params.default))
    t.results = [.event (.custom 0x1234#16 0xBEEF#16 [0xAA#8, 0xBB#8])] ∧
    t.log = [.unknownChunk 0x1234#16 0xBEEF#16 2#32] := by decide
/-- Section 3.3: record 1 with alpha, `CB2[0]` here, first and last pixel. -/
theorem test_codebook_with_alpha :
    let t := after (exec (.codebook 0x0100#16
      [0x51#8, 0x07#8, 0x51#8, 0x08#8, 0x91#8, 0x09#8, 0x29#8, 0x0A#8, 0x5A#8, 0xF0#8])
      { video with hasAlpha := true })
    t.cb2.read 0 = 0x070D0FEE#32 ∧ t.cb2.read 3 = 0x0A0000C6#32 ∧ t.cb4 = [] ∧ t.ctl = .fetch := by decide
/-- K12: 9 bytes where 10 are needed: `CB2[0]` is written, `CB4[0]` is not. -/
theorem test_codebook_underrun :
    let t := after (exec (.codebook 0x0101#16 (List.replicate 9 0x80#8)) video)
    t.ppos = 6 ∧ t.cb2.read 3 = 0xFF808080#32 ∧ t.cb4 = [] ∧ t.faultCode = 2 ∧ t.faultInfo = 4 := by decide
/-- R134's example, and the pass begins at the first block. -/
theorem test_frame_begins :
    let t := after (exec (.frame 0x01FF#16 [0#8, 0#8]) video)
    t.argX.toInt = 1 ∧ t.argY.toInt = -1 ∧ t.ctl = .block ⟨0, 0, 0⟩ := by decide
/-- V5. -/
theorem test_frame_before_info :
    let t := after (exec (.frame 0#16 []) (playing Params.default))
    t.faultCode = 3 ∧ t.faultInfo = 1 ∧ t.st = .fault := by decide
/-- S1: before block decode of frame 1 the previous buffer is copied over. -/
theorem test_frame_one_copies :
    (after (exec (.frame 0#16 []) { video with frameCnt := 1, fb0 := [(255, 9#32)], fb1 := [(0, 7#32)] })).fb1
      = [(255, 9#32)] := by decide
/-- V1: the first GetMode under-runs. -/
theorem test_frame_underrun :
    let t := after (step (atBlock 0))
    t.st = .fault ∧ t.faultInfo = 4 ∧ t.frameCnt = 0 ∧ t.fb0 = [] := by decide
/-- Section 5.1: the first and the last code of `1B 00` and of `42 53`. -/
theorem test_mode_codes :
    modeCode 0x001B#16 7 = 0#2 ∧ modeCode 0x001B#16 0 = 3#2 ∧ modeCode 0x5342#16 7 = 1#2 ∧ modeCode 0x5342#16 4 = 3#2 := by
  decide
theorem test_mot8_goes_on : (after (exec .mot8 (atBlock 2))).ctl = .block ⟨0, 0, 3⟩ := by decide
theorem test_mot8_ends_the_macroblock : (after (exec .mot8 (atBlock 3))).ctl = .block ⟨1, 0, 0⟩ := by decide
/-- P2, frame 1: FCC8 0x48 at (8, 0) has its source at 12 > 8. -/
theorem test_fcc8_out_of_bounds :
    (after (exec (.fcc8 0x48#8) (atBlock 1))).log = [.oobMotion 8 8 0 4 0] := by decide
/-- P2, frame 1: FCC8 0x48 at (0, 0) copies from (4, 0): element 4 of row 0 to element 0. -/
theorem test_fcc8_copies :
    (after (exec (.fcc8 0x48#8) { atBlock 0 with fb1 := [(4, 9#32)] })).fb0 = [(0, 9#32)] := by decide
/-- Cell pixel (row 2, column 3) fills rows 4 and 5, columns 6 and 7. -/
theorem test_sdl8 :
    (after (exec (.sdl8 1#8) { atBlock 0 with cb4 := cells })).fb0
      = [(70, 0xFF101010#32), (71, 0xFF101010#32), (86, 0xFF101010#32), (87, 0xFF101010#32)] := by decide
theorem test_ccc8 : (after (exec .ccc8 (atBlock 3))).ctl = .sub ⟨0, 0, 3⟩ 0 := by decide
theorem test_mot4_goes_on : (after (exec .mot4 (atSub 0 1))).ctl = .sub ⟨0, 0, 0⟩ 2 := by decide
theorem test_mot4_ends_the_block : (after (exec .mot4 (atSub 0 3))).ctl = .block ⟨0, 0, 1⟩ := by decide
/-- P2, frame 1: FCC4 0xFF at (8, 8) copies from (1, 1). -/
theorem test_fcc4_copies :
    (after (exec (.fcc4 0xFF#8) { atSub 3 0 with fb1 := [(17, 9#32)] })).fb0 = [(8 * 16 + 8, 9#32)] := by decide
/-- FCC4 0x48 at (12, 0) has its source at 16 > 12. -/
theorem test_fcc4_out_of_bounds :
    (after (exec (.fcc4 0x48#8) (atSub 1 1))).log = [.oobMotion 4 12 0 4 0] := by decide
/-- Sub-block 3 of block 0 starts at (4, 4): cell pixel (row 2, column 3) goes to row 6, column 7. -/
theorem test_sdl4 :
    (after (exec (.sdl4 1#8) { atSub 0 3 with cb4 := cells })).fb0 = [(6 * 16 + 7, 0xFF101010#32)] := by decide
/-- Quadrant 1 is top-right: pixel 2 of the cell, row 1, column 0, goes to row 1, column 2. -/
theorem test_ccc4 :
    (after (exec (.ccc4 0#8 1#8 0#8 0#8) { atSub 0 0 with cb2 := quads })).fb0 = [(16 + 2, 0xFF101010#32)] := by decide
/-- A block mode outside a pass, or at the other depth. -/
theorem test_mode_outside_a_pass :
    refusal (exec .mot8 (atSub 0 0)) = some .noBlockSelected ∧ refusal (exec (.sdl4 0#8) (atBlock 0)) = some .noBlockSelected := by
  decide
/-- A1, first two samples: seed 4096, then +25 and -9. -/
theorem test_snd_mono :
    (after (exec (.sndMono 0x0010#16 [0x05#8, 0x83#8]) (playing Params.default))).results
      = [.event (.audio 1 [4121#16, 4112#16])] := by decide
/-- U17: under the default seed the high byte of the argument has no effect. R161, State written: `ACC[1]` is not in the list. -/
theorem test_snd_mono_accumulators :
    let t (arg : Half) := after (exec (.sndMono arg [0x05#8]) { playing Params.default with acc1 := 7#16 })
    (t 0x1280#16).acc0 = (t 0x0080#16).acc0 ∧ (t 0x1280#16).acc1 = 7#16 := by decide
/-- R34: nothing is carried from one sound chunk to the next: what ACC holds before a mono chunk does not matter after the step that
runs it. -/
theorem test_mono_chunk_carries_nothing_over (v w : Half) :
    let s := fetching [0x20#8, 0x10#8, 1#8, 0#8, 0#8, 0#8, 0x10#8, 0#8, 0x05#8]
    step { s with acc0 := v, acc1 := w } = step s := rfl
/-- The same of a stereo chunk. -/
theorem test_snd_stereo_carries_nothing_over (v w : Half) :
    exec (.sndStereo 0x7F80#16 [0x7F#8, 0xFF#8]) { playing Params.default with acc0 := v, acc1 := w } =
      exec (.sndStereo 0x7F80#16 [0x7F#8, 0xFF#8]) (playing Params.default) := rfl
/-- A4, first sample: the whole argument as the seed. -/
theorem test_snd_mono_whole_arg :
    (after (exec (.sndMono 0x1280#16 [0x05#8]) (playing { Params.default with monoSeed := .wholeArg }))).results
      = [.event (.audio 1 [4761#16])] := by decide
/-- A7: `wrap`, the odd last byte is not decoded. -/
theorem test_snd_stereo_wraps :
    (after (exec (.sndStereo 0x7F80#16 [0x7F#8, 0xFF#8, 0x01#8, 0x81#8, 0xEE#8]) (playing Params.default))).results
      = [.event (.audio 2 [BitVec.ofInt 16 (-16895), 16639#16, BitVec.ofInt 16 (-16894), 16638#16])] := by decide
/-- A9: `fault` at the first sample. -/
theorem test_snd_stereo_faults :
    let t := after (exec (.sndStereo 0x7F80#16 [0x7F#8, 0xFF#8]) (playing { Params.default with accOverflow := .fault }))
    t.results = [.fault (.accOverflow 0 0)] ∧ t.faultCode = 3 ∧ t.faultInfo = 2 := by decide

/-! ## Colours (section 4) -/

theorem test_csc_default :
    cscDefaultRgb 0#8 0#8 0#8 = (0#8, 136#8, 0#8) ∧ cscDefaultRgb 255#8 0#8 0#8 = (75#8, 255#8, 28#8) ∧
    cscDefaultRgb 145#8 54#8 34#8 = (13#8, 238#8, 13#8) ∧ cscDefaultRgb 100#8 200#8 50#8 = (0#8, 131#8, 227#8) := by
  decide
theorem test_packing :
    packBgr565 238#8 15#8 13#8 = 0xE861#32 ∧ packRgba8888 75#8 255#8 28#8 7#8 = 0x071CFF4B#32 := by decide

/-! ## Motion and base offset (section 5.2) -/

theorem test_motion_vectors :
    motionX 0xF0#8 (baseX 0x7F80#16) = -134 ∧ motionY 0xF0#8 (baseY 0x7F80#16) = 136 ∧
    motionX 0x79#8 (baseX 0x01FF#16) = 0 ∧ motionY 0x79#8 (baseY 0x01FF#16) = 0 := by decide

/-! ## Counts (section 3.1) -/

/-- K3, K5, K8, K9, K10. -/
theorem test_codebook_counts :
    count4 0x0100#16 7#32 false = 256 ∧ count4 0x0100#16 7#32 true = 0 ∧ count2 0#16 = 256 ∧
    count4 0#16 2560#32 false = 256 ∧ count4 0#16 2560#32 true = 0 ∧ count4 0#16 3584#32 true = 256 := by decide

/-! ## Witnesses: the hypotheses of each statement of Obligations.lean can be met together, each clause -/

theorem witness_DecodeAfterEncode :
    Instr.wf Params.default (.ccc4 0#8 255#8 1#8 2#8) = true ∧
    encode (.ccc4 0#8 255#8 1#8 2#8) = some (.mode 3#2 [0#8, 255#8, 1#8, 2#8]) ∧
    Instr.wf Params.default (.sig 0#16 [0#8, 0#8, 0#8, 0#8] 0#16) = true ∧
    (encode (.sig 0#16 [0#8, 0#8, 0#8, 0#8] 0#16)).isSome = true := by decide
theorem witness_EncodeAfterDecode :
    decode 4 .chunk (.stream [0x34#8, 0x12#8, 1#8, 0#8, 0#8, 0#8, 5#8, 0#8, 9#8, 8#8])
      = .ok (.custom 0x1234#16 5#16 [9#8], [8#8]) ∧
    decode 4 (.block .d4) (.mode 1#2 [9#8, 8#8]) = .ok (.fcc4 9#8, [8#8]) := by decide
theorem witness_NoIllegalEncoding :
    decodeChunkHeader [0x34#8, 0x12#8, 1#8, 0#8, 0#8, 0#8, 5#8, 0#8, 9#8] = .ok (⟨0x1234#16, 1#32, 5#16⟩, [9#8]) ∧
    (1#32).toNat ≤ [9#8].length ∧ 8 ≤ [0#8, 0#8, 0#8, 0#8, 0#8, 0#8, 0#8, 0#8].length ∧
    operandBytes .d4 3#2 ≤ [0#8, 0#8, 0#8, 0#8].length := by decide

/-- A payload of two bytes, one of them read. -/
def halfRead : State := { video with pay := [0x38#8, 0xAE#8], chSize := 2, ppos := 1 }
theorem witness_PayReadRule :
    halfRead.pay.length = halfRead.chSize.toNat ∧ halfRead.ppos + 2 > halfRead.chSize.toNat ∧
    halfRead.ppos + 1 ≤ halfRead.chSize.toNat := by decide
theorem serves_of_no_answers {s : State} {n : Nat} (h : s.srcAns = []) : s.ServesNext n := by
  intro a ha; rw [h] at ha; simp at ha
theorem witness_SrcReadRule :
    (∃ s : State, s.srcAns = [.fail]) ∧ (∃ s : State, s.srcAns = [.hang]) ∧
    (fetching [1#8]).ServesNext 1 ∧ (fetching [1#8]).src.length < (fetching [1#8]).spos + 2 ∧
    (fetching [1#8]).spos + 1 ≤ (fetching [1#8]).src.length :=
  ⟨⟨{ State.reset with srcAns := [.fail] }, rfl⟩, ⟨{ State.reset with srcAns := [.hang] }, rfl⟩,
    serves_of_no_answers rfl, by decide, by decide⟩
theorem witness_GetModeRule :
    ((8 : BitVec 4) ≠ 0 ∧ (8 : BitVec 4).toNat ≤ 8) ∧
    (∃ s t : State, s.mbLeft = 0 ∧ payRead 2 s = .ok [0x38#8, 0xAE#8] t) ∧
    (∃ s t : State, ∃ c, s.mbLeft = 0 ∧ payRead 2 s = .raised c t) :=
  ⟨by decide, ⟨{ halfRead with ppos := 0 }, _, rfl, rfl⟩, ⟨halfRead, _, _, rfl, rfl⟩⟩

/-- A whole chunk of unknown id with one payload byte, and one byte after it. -/
def oneChunk : State := fetching [0x34#8, 0x12#8, 1#8, 0#8, 0#8, 0#8, 5#8, 0#8, 9#8, 8#8]
theorem witness_StepRunsTheChunkAtTheStreamPosition :
    oneChunk.ctl = .fetch ∧ oneChunk.ServesNext (if 1#32 = 0 then 1 else 2) ∧
    ({ oneChunk with srcAns := [.serve, .serve, .fail] } : State).ServesNext 2 ∧
    decodeChunkHeader (oneChunk.src.drop oneChunk.spos) = .ok (⟨0x1234#16, 1#32, 5#16⟩, [9#8, 8#8]) ∧
    decodeChunk (oneChunk.src.drop oneChunk.spos) = .ok (.custom 0x1234#16 5#16 [9#8], [8#8]) ∧
    decodeChunkHeader [0x20#8, 0x10#8, 0#8, 0#8, 0#8, 0#8, 0x10#8, 0#8] = .ok (⟨0x1020#16, 0#32, 0x10#16⟩, []) ∧
    decodeChunk [0x20#8, 0x10#8, 0#8, 0#8, 0#8, 0#8, 0x10#8, 0#8] = .ok (.sndMono 0x10#16 [], []) :=
  ⟨rfl, serves_of_no_answers rfl, fun a ha => by simpa using ha, by decide, by decide, by decide, by decide⟩
def oneHeader : State :=
  { State.reset with ctl := .header, src := [0x84#8, 0x10#8, 0#8, 0#8, 0#8, 0#8, 0x1E#8, 0#8] }
theorem witness_StepReadsTheStreamHeader :
    (oneHeader.ctl = .header ∧ oneHeader.ServesNext 1 ∧
      decodeStreamHeader oneHeader.params.hdrPad (oneHeader.src.drop oneHeader.spos)
        = .ok (.sig 0x1084#16 [0#8, 0#8, 0#8, 0#8] 30#16, [])) ∧
    (∃ s : State, s.ctl = .header ∧ s.ServesNext 1 ∧ s.src.length + 1 = s.spos + (4 + s.params.hdrPad)) ∧
    (∃ s : State, s.ctl = .header ∧ s.srcAns = [.fail]) :=
  ⟨⟨rfl, serves_of_no_answers rfl, by decide⟩,
    ⟨{ oneHeader with src := [0x84#8, 0x10#8, 0#8, 0#8, 0#8, 0#8, 0x1E#8] }, rfl, serves_of_no_answers rfl, by decide⟩,
    ⟨{ oneHeader with srcAns := [.fail] }, rfl, rfl⟩⟩
/-- One code left in the cursor, one payload byte left. -/
def oneMode (c : Ctl) : State := { video with ctl := c, mbWord := 1, mbLeft := 1, chSize := 1, pay := [0x88#8] }
theorem witness_StepRunsTheBlockModeSelected :
    (∃ t u, (∃ p, (oneMode (.block ⟨0, 0, 3⟩)).ctl = .block p ∧ p.my < (oneMode (.block ⟨0, 0, 3⟩)).height.toNat / 16) ∧
      getMode (oneMode (.block ⟨0, 0, 3⟩)) = .ok 1#2 t ∧ payRead (operandBytes .d8 1#2) t = .ok [0x88#8] u ∧
      decodeMode .d8 1#2 [0x88#8] = .ok (.fcc8 0x88#8, [])) ∧
    (∃ t u, (∃ p q, (oneMode (.sub ⟨0, 0, 3⟩ 3)).ctl = .sub p q) ∧ getMode (oneMode (.sub ⟨0, 0, 3⟩ 3)) = .ok 1#2 t ∧
      payRead (operandBytes .d4 1#2) t = .ok [0x88#8] u ∧ decodeMode .d4 1#2 [0x88#8] = .ok (.fcc4 0x88#8, [])) ∧
    (∃ c t, getMode (atSub 0 0) = .raised c t) ∧
    (∃ t u c, getMode { oneMode (.block ⟨0, 0, 3⟩) with ppos := 1 } = .ok 1#2 t ∧
      payRead (operandBytes .d8 1#2) t = .raised c u) :=
  ⟨⟨_, _, ⟨_, rfl, by decide⟩, rfl, rfl, rfl⟩, ⟨_, _, ⟨_, _, rfl⟩, rfl, rfl, rfl⟩, ⟨_, _, rfl⟩, ⟨_, _, _, rfl, rfl⟩⟩
theorem witness_StepRunsTheHostCommand :
    State.reset.AtRest ∧ State.reset.host = [] ∧ State.AtRest { State.reset with host := [.drop] } :=
  ⟨.inl rfl, rfl, .inl rfl⟩
/-- A chunk that declares two payload bytes where one is left. -/
def cutChunk : State := fetching [1#8, 0#8, 2#8, 0#8, 0#8, 0#8, 0#8, 0#8, 9#8]
theorem witness_FetchEndsOrFaults :
    (fetching []).ctl = .fetch ∧ (fetching []).ServesNext 1 ∧ (fetching []).src.length < (fetching []).spos + 8 ∧
    cutChunk.ctl = .fetch ∧ cutChunk.ServesNext 2 ∧
    decodeChunkHeader (cutChunk.src.drop cutChunk.spos) = .ok (⟨1#16, 2#32, 0#16⟩, [9#8]) ∧
    [9#8].length < (2#32).toNat ∧ (2#32) ≠ 0 ∧
    (∃ s : State, s.ctl = .fetch ∧ s.src.drop s.spos = cutChunk.src.drop cutChunk.spos ∧ s.srcAns = [.serve, .fail]) ∧
    (∃ s : State, s.ctl = .fetch ∧ s.srcAns = [.fail]) :=
  ⟨rfl, serves_of_no_answers rfl, by decide, rfl, serves_of_no_answers rfl, by decide, by decide, by decide,
    ⟨{ cutChunk with srcAns := [.serve, .fail] }, rfl, rfl, rfl⟩, ⟨{ fetching [] with srcAns := [.fail] }, rfl, rfl⟩⟩

/-- A state in a FRAME pass, with a sound memory that is not empty, meets the invariant. -/
def inPass : State := { atBlock 3 with fb0 := [(255, 9#32)], chSize := 1, pay := [0#8], mbWord := 0, mbLeft := 1 }
theorem witness_inv : inPass.Inv where
  cb2 := PixMem.Sound.nil _ _
  cb4 := PixMem.Sound.nil _ _
  fb0 := ⟨by decide, by decide, fun _ _ => trivial⟩
  fb1 := PixMem.Sound.nil _ _
  dims _ := by decide
  noDims h := by cases h
  cursor := by decide
  payload _ := by decide
  payCursor := by decide
  faulted := by decide
  unopened h := by cases h
  position _ := by decide
  samples := by decide
  control := ⟨rfl, rfl, .inl (by decide)⟩
theorem witness_EveryStepKeepsTheInvariant : inPass.Inv ∧ ∃ t, step inPass = .next t := ⟨witness_inv, _, rfl⟩
theorem witness_InternalStopsAreUnreachable : inPass.Inv := witness_inv
theorem witness_EveryCommandEnds : inPass.Inv ∧ inPass.SourceAnswers ∧ ¬ inPass.AtRest :=
  ⟨witness_inv, fun a ha => absurd (show a ∈ ([] : List SrcAnswer) from ha) (by simp), by rintro (h | h) <;> cases h⟩

theorem witness_OpenTakesTheSource : State.reset.ctl = .idle ∧ State.reset.st = .uninit := by decide
theorem witness_WrongMagicIsAParseError : 0x1085#16 ≠ State.reset.params.streamMagic := by decide
theorem witness_NextStartsFetching : video.ctl = .idle ∧ video.st = .playing := by decide
theorem witness_DropEndsTheInstance : video.ctl = .idle := by decide
theorem witness_CommandsOutsideTheirStateAreRefused :
    (State.reset.ctl = .idle ∧ State.reset.st ≠ .playing) ∧ (video.ctl = .idle ∧ video.st ≠ .uninit) ∧
    (after (exec .hostDrop video)).ctl = .dropped := by decide
theorem witness_InfoSetsTheDimensions :
    (playing Params.default).dimValid = false ∧ ([] : List Byte).length + 4 < 2 ^ 32 ∧
    legalDimension (le16 0x10#8 0#8) = true ∧ legalDimension (le16 0xF0#8 0xFF#8) = true := by decide
theorem witness_InfoFaultsAndRefusals :
    video.dimValid = true ∧ (playing Params.default).dimValid = false ∧ [0#8, 0#8, 0#8].length < 4 ∧
    [0#8, 0#8, 0x10#8, 0#8].length < 2 ^ 32 ∧ legalDimension (le16 0#8 0#8) = false ∧
    legalDimension (le16 0x11#8 0#8) = false := by decide

/-- K1 and K2: the payload has exactly the bytes the counts need. -/
theorem witness_CodebookRebuildsThePrefix :
    count2 0x0101#16 * bytesPerCell2 video.hasAlpha + 4 * count4 0x0101#16 (BitVec.ofNat 32 10) video.hasAlpha ≤ 10 ∧
    count2 0x0100#16 * bytesPerCell2 video.hasAlpha + 4 * count4 0x0100#16 (BitVec.ofNat 32 6) video.hasAlpha ≤ 6 := by
  decide
/-- K3, K5, K12 and K15: `PPOS` where the payload under-runs, from the table of spec/95_test_vectors.md; and a cell cut at each of
its later reads, from the pseudocode of R122. -/
theorem test_codebook_underrun_position :
    codebookUnderrunAt 7 1 6 = 6 ∧ codebookUnderrunAt 7 1 10 = 0 ∧ codebookUnderrunAt 9 1 6 = 6 ∧
    codebookUnderrunAt 1539 256 6 = 1536 ∧ codebookUnderrunAt 10 2 6 = 10 ∧ codebookUnderrunAt 11 2 6 = 11 ∧
    codebookUnderrunAt 9 2 6 = 6 := by decide
/-- K12, K3 and K5: it is one short, or the 4×4 count is 256 for one byte too many, or the first cell is cut. -/
theorem witness_CodebookUnderrunKeepsWholeCells :
    9 < count2 0x0101#16 * bytesPerCell2 false + 4 * count4 0x0101#16 (BitVec.ofNat 32 9) false ∧
    7 < count2 0x0100#16 * bytesPerCell2 false + 4 * count4 0x0100#16 (BitVec.ofNat 32 7) false ∧
    7 < count2 0x0100#16 * bytesPerCell2 true + 4 * count4 0x0100#16 (BitVec.ofNat 32 7) true := by decide
def solidQuad : State :=
  { video with cb2 := [(4, 9#32), (5, 9#32), (6, 9#32), (7, 9#32)], chSize := 4, pay := [1#8, 1#8, 1#8, 1#8] }
theorem witness_SolidCellAssemblesSolid :
    (∀ k, k < 4 → solidQuad.cb2.read (4 * (1#8).toNat + k) = 9#32) ∧
    ∃ t, payRead 4 solidQuad = .ok [1#8, 1#8, 1#8, 1#8] t := ⟨by decide, _, rfl⟩
theorem witness_FrameBeginsAPass : video.dimValid = true ∧ ∃ s : State, s.dimValid = true ∧ s.frameCnt = 1 :=
  ⟨rfl, { video with frameCnt := 1 }, rfl, rfl⟩
theorem witness_FrameBeforeInfoFaults : (playing Params.default).dimValid = false := by decide

/-- The last block and the last sub-block of the frame lie inside it: all the hypotheses of MotAndCcc8OnlyMoveThePass,
Sdl8UpsamplesTheCell, Sdl4CopiesTheCell and Ccc4AssemblesFourCells, and those of the two statements on FCC that follow. -/
theorem witness_MotAndCcc8OnlyMoveThePass_Sdl8UpsamplesTheCell :
    (atBlock 3).ctl = .block ⟨0, 0, 3⟩ ∧ BlockPos.x ⟨0, 0, 3⟩ + 8 ≤ (atBlock 3).width.toNat ∧
    BlockPos.y ⟨0, 0, 3⟩ + 8 ≤ (atBlock 3).height.toNat := by decide
theorem witness_MotAndCcc8OnlyMoveThePass_Sdl4CopiesTheCell_Ccc4AssemblesFourCells :
    (atSub 3 3).ctl = .sub ⟨0, 0, 3⟩ 3 ∧ BlockPos.subX ⟨0, 0, 3⟩ 3 + 4 ≤ (atSub 3 3).width.toNat ∧
    BlockPos.subY ⟨0, 0, 3⟩ 3 + 4 ≤ (atSub 3 3).height.toNat := by decide
/-- At block 0 the vector (8, 8) of 0x00 reaches the last source inside the frame, corner (8, 8); at sub-block (12, 12) the
vector (0, 0). -/
theorem witness_FccCopiesFromThePreviousBuffer :
    ((8 : Nat) : Int) = BlockPos.x ⟨0, 0, 0⟩ + (8 - ((0x00#8).toNat / 16 : Nat) - (atBlock 0).argX.toInt) ∧
    ((8 : Nat) : Int) = BlockPos.y ⟨0, 0, 0⟩ + (8 - ((0x00#8).toNat % 16 : Nat) - (atBlock 0).argY.toInt) ∧
    8 + 8 ≤ (atBlock 0).width.toNat ∧ 8 + 8 ≤ (atBlock 0).height.toNat ∧
    ((12 : Nat) : Int) = BlockPos.subX ⟨0, 0, 3⟩ 3 + (8 - ((0x88#8).toNat / 16 : Nat) - (atSub 3 3).argX.toInt) ∧
    ((12 : Nat) : Int) = BlockPos.subY ⟨0, 0, 3⟩ 3 + (8 - ((0x88#8).toNat % 16 : Nat) - (atSub 3 3).argY.toInt) ∧
    12 + 4 ≤ (atSub 3 3).width.toNat ∧ 12 + 4 ≤ (atSub 3 3).height.toNat := by decide
/-- One pixel beyond: at block 0 the byte 0x98 gives dx = -1; at sub-block (12, 12) the byte 0x78 gives dx = 1. -/
theorem witness_FccOutOfBoundsIsLogged :
    ¬ (0 ≤ (BlockPos.x ⟨0, 0, 0⟩ : Int) + (8 - ((0x98#8).toNat / 16 : Nat) - (atBlock 0).argX.toInt)) ∧
    ¬ ((BlockPos.subX ⟨0, 0, 3⟩ 3 : Int) + (8 - ((0x78#8).toNat / 16 : Nat) - (atSub 3 3).argX.toInt)
      ≤ ((atSub 3 3).width.toNat : Int) - 4) := by decide
/-- A block and a sub-block of a frame wider than one macroblock, by hand from R10 and R137. -/
theorem test_block_positions :
    (BlockPos.mk 1 2 1).x = 40 ∧ (BlockPos.mk 1 2 1).y = 16 ∧ (BlockPos.mk 1 2 2).x = 32 ∧ (BlockPos.mk 1 2 2).y = 24 ∧
    (BlockPos.mk 1 2 1).subX 2 = 40 ∧ (BlockPos.mk 1 2 1).subY 2 = 20 := by decide
theorem witness_BlocksComeInRasterOrder :
    (BlockPos.mk 0 0 3).my < video.height.toNat / 16 ∧ (BlockPos.mk 0 0 3).mx < video.width.toNat / 16 := by decide
theorem witness_PassEndsWithVideo :
    (∃ s : State, s.ctl = .block ⟨1, 0, 0⟩ ∧ ¬ (BlockPos.mk 1 0 0).my < s.height.toNat / 16) ∧
    (inPass.ctl = .block ⟨0, 0, 3⟩ ∧ (BlockPos.mk 0 0 3).my < inPass.height.toNat / 16 ∧ ∃ t, step inPass = .next t) ∧
    ((oneMode (.sub ⟨0, 0, 3⟩ 3)).ctl = .sub ⟨0, 0, 3⟩ 3 ∧ ∃ t, step (oneMode (.sub ⟨0, 0, 3⟩ 3)) = .next t) ∧
    (oneChunk.ctl = .fetch ∧ ∃ t, step oneChunk = .next t ∧ t.ctl ≠ .dropped) :=
  ⟨⟨{ video with ctl := .block ⟨1, 0, 0⟩ }, rfl, by decide⟩, ⟨rfl, by decide, _, rfl⟩, ⟨rfl, _, rfl⟩, ⟨rfl, _, rfl, by decide⟩⟩
def solidCell : State := { video with cb4 := (List.range 16).map fun k => (16 + k, 9#32) }
theorem witness_SolidFrameDecodesSolid :
    ([9#8] : List Byte).length + 6 < 2 ^ 32 ∧ solidCell.dimValid = true ∧ solidCell.width = 16 ∧ solidCell.height = 16 ∧
    ∀ k, k < 16 → solidCell.cb4.read (16 * (1#8).toNat + k) = 9#32 := ⟨by decide, rfl, rfl, rfl, by decide⟩

/-- A channel of one sample. -/
theorem one_sample {mode : AccOverflow} {seed : Half} {stride off : Nat} {payload : List Byte} {out : List Half}
    (h : add16 mode seed (squareLut (payload.getD (stride * 0 + off) 0#8)) = some (out.getD (stride * 0 + off) 0#16)) :
    ChannelDecodes mode seed stride off 1 payload out := by
  intro i hi
  obtain rfl : i = 0 := by omega
  exact h
/-- Under `wrap` the premise about `fault` is empty; under `fault` the byte 0x05 from seed 0 decodes to 25. -/
theorem witness_SndMonoDecodesEveryByte :
    [0x05#8].length < 2 ^ 32 ∧ ∃ out : List Half, out.length = [0x05#8].length ∧
      ChannelDecodes .fault (monoSeed .lowByteShifted 0#16) 1 0 [0x05#8].length [0x05#8] out :=
  ⟨by decide, [25#16], rfl, one_sample (by decide)⟩
theorem witness_SndStereoDecodesPairs :
    ∃ out : List Half, out.length = 2 * ([0x05#8, 0x83#8, 0#8].length / 2) ∧
      ChannelDecodes .fault (seedOfByte (highByte 0#16)) 2 0 ([0x05#8, 0x83#8, 0#8].length / 2) [0x05#8, 0x83#8, 0#8] out ∧
      ChannelDecodes .fault (seedOfByte (lowByte 0#16)) 2 1 ([0x05#8, 0x83#8, 0#8].length / 2) [0x05#8, 0x83#8, 0#8] out :=
  ⟨[25#16, BitVec.ofInt 16 (-9)], rfl, one_sample (by decide), one_sample (by decide)⟩
/-- Seed 0x7F00 and the byte 0x7F: 32512 + 16129 overflows at the first sample; after the byte 0x00 at the second. -/
theorem witness_SndMonoOverflowFaults :
    0 < [0x7F#8].length ∧ add16 .fault (([] : List Half).getLastD (monoSeed .lowByteShifted 0x7F#16))
      (squareLut ([0x7F#8].getD 0 0#8)) = none ∧
    1 < [0x00#8, 0x7F#8].length ∧
    ChannelDecodes .fault (monoSeed .lowByteShifted 0x7F#16) 1 0 1 [0x00#8, 0x7F#8] [0x7F00#16] ∧
    add16 .fault ([0x7F00#16].getLastD (monoSeed .lowByteShifted 0x7F#16)) (squareLut ([0x00#8, 0x7F#8].getD 1 0#8)) = none :=
  ⟨by decide, by decide, by decide, one_sample (by decide), by decide⟩
/-- A9: the left channel at once; and the right channel of the first pair, after a left sample that fits. -/
theorem witness_SndStereoOverflowFaults :
    add16 .fault (seedOfByte (highByte 0x7F80#16)) (squareLut ([0x7F#8, 0xFF#8].getD 0 0#8)) = none ∧
    1 < 2 * ([0x00#8, 0xFF#8].length / 2) ∧
    ChannelDecodes .fault (seedOfByte (highByte 0x7F80#16)) 2 0 ((1 + 1) / 2) [0x00#8, 0xFF#8] [0x7F00#16] ∧
    ChannelDecodes .fault (seedOfByte (lowByte 0x7F80#16)) 2 1 (1 / 2) [0x00#8, 0xFF#8] [0x7F00#16] ∧
    add16 .fault (seedOfByte (lowByte 0x7F80#16)) (squareLut ([0x00#8, 0xFF#8].getD 1 0#8)) = none :=
  ⟨by decide, by decide, one_sample (by decide), fun i hi => absurd hi (by omega), by decide⟩
theorem witness_AlphaPassesThrough :
    PassesAlpha Params.default.csc ∧ Params.default.pixFmt = .rgba8888 ∧
    PassesAlpha { Params.default with pixFmt := .bgr565 }.csc ∧ { Params.default with pixFmt := .bgr565 }.pixFmt = .bgr565 :=
  ⟨cscDefault_passesAlpha, rfl, cscDefault_passesAlpha, rfl⟩

/-- After a fault: nothing pending, and a pending DROP. -/
def faulted : State := { video with st := .fault, faultCode := 1, faultInfo := 1 }
theorem witness_AfterAFaultOnlyDrop :
    faulted.ctl = .idle ∧ faulted.st = .fault ∧ step faulted = .next faulted ∧
    ∃ t, step { faulted with host := [.drop] } = .next t := ⟨rfl, rfl, rfl, _, rfl⟩
theorem witness_WhoWritesWhat :
    ∃ t, exec (.sdl8 1#8) { atBlock 0 with cb4 := cells } = .next t ∧ Instr.sdl8 1#8 ≠ .hostDrop := ⟨_, rfl, by decide⟩
theorem witness_DimensionsAreFixedOnceSet :
    inPass.dimValid = true ∧ ∃ t, step inPass = .next t ∧ t.ctl ≠ .dropped := ⟨rfl, _, rfl, by decide⟩
theorem witness_ParametersNeverChange : ∃ t, step inPass = .next t := ⟨_, rfl⟩
theorem witness_StreamPositionOnlyIncreases :
    oneChunk.st = .playing ∧ ∃ t, step oneChunk = .next t ∧ t.st = .playing := ⟨rfl, _, rfl, rfl⟩
theorem witness_OutputsAreAppended : ∃ t, step oneChunk = .next t := ⟨_, rfl⟩

end Sys2Proof.Tests
end

section
/-! PROOFS. The order and the place of the blocks of a FRAME pass (R10, R130, R137, R138, R142). -/

namespace Sys2Proof.Machine

/-! ## The three places the next block can stand at -/

theorem BlockPos.next_in_macroblock {p : BlockPos} (width : Nat) (h : p.b.val < 3) :
    p.next width = ⟨p.my, p.mx, p.b + 1⟩ := if_pos h

theorem BlockPos.next_in_row {p : BlockPos} {width : Nat} (hb : ¬ p.b.val < 3) (h : p.mx + 1 < width / 16) :
    p.next width = ⟨p.my, p.mx + 1, 0⟩ := (if_neg hb).trans (if_pos h)

theorem BlockPos.next_row {p : BlockPos} {width : Nat} (hb : ¬ p.b.val < 3) (h : ¬ p.mx + 1 < width / 16) :
    p.next width = ⟨p.my + 1, 0, 0⟩ := (if_neg hb).trans (if_neg h)

/-- Raster order: the next block has the next index. -/
theorem BlockPos.index_next {p : BlockPos} {width : Nat} (hx : p.mx < width / 16) :
    (p.next width).index width = p.index width + 1 := by
  by_cases hb : p.b.val < 3
  · rw [next_in_macroblock width hb, index, index, Fin.val_add_one_of_lt (show p.b < Fin.last 3 from hb), Nat.add_assoc]
  have hb3 : p.b.val = 3 := by omega
  by_cases hr : p.mx + 1 < width / 16
  · simp only [next_in_row hb hr, index, hb3, Fin.val_zero]
    omega
  · have hlast : width / 16 = p.mx + 1 := by omega
    simp only [next_row hb hr, index, hb3, Fin.val_zero, hlast, Nat.succ_mul p.my]
    omega

/-- From a block of the frame the pass goes on to a block of the frame, or to its end. -/
theorem BlockPos.next_legal {p : BlockPos} {width height : Half} (hy : p.my < height.toNat / 16)
    (hx : p.mx < width.toNat / 16) : (p.next width.toNat).Legal width height := by
  by_cases hb : p.b.val < 3
  · rw [next_in_macroblock _ hb]
    exact .inl ⟨hy, hx⟩
  by_cases hr : p.mx + 1 < width.toNat / 16
  · rw [next_in_row hb hr]
    exact .inl ⟨hy, hr⟩
  · rw [next_row hb hr]
    rcases Nat.lt_or_eq_of_le (Nat.succ_le_of_lt hy) with hlt | heq
    · exact .inl ⟨hlt, Nat.zero_lt_of_lt hx⟩
    · exact .inr ⟨heq, rfl, rfl⟩

/-- The sub-blocks come in quadrant order, and after the last the next block. -/
theorem afterSub_eq (s : State) (p : BlockPos) (q : Fin 4) :
    afterSub s p q = if q = 3 then .block (p.next s.width.toNat) else .sub p (q + 1) := by
  by_cases hq : q = 3
  · subst hq; rfl
  · have hlt : q.val < 3 := by omega
    rw [if_neg hq, afterSub, if_pos hlt]

/-! ## Where a block lies -/

theorem BlockPos.x_eq (p : BlockPos) : p.x = 16 * p.mx + 8 * (p.b.val % 2) := by
  rw [x, quadCol, Nat.mul_comm p.mx, Nat.mul_comm (p.b.val % 2)]

theorem BlockPos.y_eq (p : BlockPos) : p.y = 16 * p.my + 8 * (p.b.val / 2) := by
  rw [y, quadRow, Nat.mul_comm p.my, Nat.mul_comm (p.b.val / 2)]

theorem BlockPos.subX_eq (p : BlockPos) (q : Fin 4) : p.subX q = p.x + 4 * (q.val % 2) := by
  rw [subX, quadCol, Nat.mul_comm (q.val % 2)]

theorem BlockPos.subY_eq (p : BlockPos) (q : Fin 4) : p.subY q = p.y + 4 * (q.val / 2) := by
  rw [subY, quadRow, Nat.mul_comm (q.val / 2)]

/-- A block of a macroblock of the frame lies inside the frame (R55). -/
theorem BlockPos.x_inside {p : BlockPos} {width : Nat} (h : p.mx < width / 16) : p.x + 8 ≤ width := by
  rw [x_eq]; omega

theorem BlockPos.y_inside {p : BlockPos} {height : Nat} (h : p.my < height / 16) : p.y + 8 ≤ height := by
  rw [y_eq]; omega

/-- A sub-block lies inside its block. -/
theorem BlockPos.subX_inside (p : BlockPos) (q : Fin 4) : p.subX q + 4 ≤ p.x + 8 := by
  rw [subX_eq]; omega

theorem BlockPos.subY_inside (p : BlockPos) (q : Fin 4) : p.subY q + 4 ≤ p.y + 8 := by
  rw [subY_eq]; omega

/-- Settles O40: order from `BlockPos.index_next`, `BlockPos.next_legal` and `afterSub_eq`, place from the equations of the
four coordinates. -/
theorem blocksComeInRasterOrder : Obligations.BlocksComeInRasterOrder := by
  intro s p q hy hx
  have hX : p.x + 8 ≤ s.width.toNat := BlockPos.x_inside hx
  have hY : p.y + 8 ≤ s.height.toNat := BlockPos.y_inside hy
  exact ⟨BlockPos.index_next hx, BlockPos.next_legal hy hx, afterSub_eq s p q, p.x_eq, p.y_eq, p.subX_eq q, p.subY_eq q,
    hX, hY, (p.subX_inside q).trans hX, (p.subY_inside q).trans hY⟩

end Sys2Proof.Machine
end

section
/-! PROOFS. The frame of a step: what a fetch and what each kind of command may write. A frame is a function that takes the
fields written from one state and all others from another. -/

namespace Sys2Proof.Machine

/-- `t` is `s` but for the fields that `w s t` takes from `t`. -/
def Writes (w : State → State → State) (s t : State) : Prop := t = w s t

section
variable {w : State → State → State} {s t u : State}

theorem Writes.refl (hw : ∀ a, a = w a a := by intros; rfl) : Writes w s s := hw s

theorem Writes.trans (h : Writes w s t) (h' : Writes w t u)
    (hw : ∀ a b c, w (w a b) c = w a c := by intros; rfl) : Writes w s u :=
  calc u = w t u       := h'
    _ = w (w s t) u    := congrArg (w · u) h
    _ = w s u          := hw s t u

/-- A field that `w` does not take from the second state is as it was. -/
theorem Writes.field {α : Type} (f : State → α) (h : Writes w s t)
    (hw : ∀ a b, f (w a b) = f a := by intros; rfl) : f t = f s :=
  (congrArg f h).trans (hw s t)

/-- A payload read writes `PPOS` only. -/
theorem Writes.payRead (n : Nat) (h : Writes w s t)
    (hw : ∀ (a : State) (k : Nat), { a with ppos := k } = w a { a with ppos := k } := by intros; rfl)
    (ht : ∀ a b c, w (w a b) c = w a c := by intros; rfl) : (payRead n t).Holds (Writes w s) :=
  payRead_holds n h fun k _ => h.trans (hw t k) ht

end

/-! ## A fetch -/

/-- The reads of a fetch write the host's queue, the source's position and answers, the latches and the seed of a chunk's
start, the mode cursor and `PPOS`. -/
def fetchWrites (s t : State) : State :=
  { s with host := t.host, srcAns := t.srcAns, spos := t.spos, freeCtr := t.freeCtr, chId := t.chId, chSize := t.chSize,
           chArg := t.chArg, ppos := t.ppos, mbWord := t.mbWord, mbLeft := t.mbLeft, acc1 := t.acc1 }

theorem srcRead_ok_writes {n : Nat} {s t : State} {b : List Byte} (h : srcRead n s = .ok b t) :
    Writes fetchWrites s t := by
  obtain ⟨-, ht, -⟩ := srcRead_ok h
  rw [ht]; rfl

theorem srcRead_short_writes {n : Nat} {s t : State} (h : srcRead n s = .short t) : Writes fetchWrites s t := by
  rw [srcRead_short h]; rfl

theorem srcRead_fail_writes {n : Nat} {s t : State} (h : srcRead n s = .fail t) : Writes fetchWrites s t := by
  rw [srcRead_failed h]; rfl

theorem getMode_writes (s : State) : (getMode s).Holds (Writes fetchWrites s) := by
  rcases getMode_cases s with ⟨-, e⟩ | ⟨-, _, -, -, -, -, e⟩ | ⟨-, e⟩ <;> rw [e] <;> exact rfl

/-- What a fetch from `s` comes to: a command read with the fetch's own writes only; or a step over at once, which is an
idle one, the end of a pass, or the end of the stream or a fault after such writes. -/
def Fetched.Frame (s : State) : Fetched → Prop
  | .run _ u   => Writes fetchWrites s u
  | .settled t => t = s ∨ t = endPass s ∨ ∃ u, Writes fetchWrites s u ∧ (t = endStream u ∨ ∃ c, t = takeFault c u)
  | .stuck _   => True

theorem Fetched.frame_takeFault {s u : State} (c : Cause) (h : Writes fetchWrites s u) :
    (Fetched.settled (takeFault c u)).Frame s := .inr (.inr ⟨u, h, .inr ⟨c, rfl⟩⟩)

theorem Fetched.frame_endStream {s u : State} (h : Writes fetchWrites s u) :
    (Fetched.settled (endStream u)).Frame s := .inr (.inr ⟨u, h, .inl rfl⟩)

theorem fetchHost_frame (s : State) : (fetchHost s).Frame s := by
  unfold fetchHost
  split
  · exact .inl rfl
  · exact rfl

theorem fetchHeader_frame (s : State) : (fetchHeader s).Frame s := by
  unfold fetchHeader
  split
  · trivial
  · next h => exact Fetched.frame_takeFault _ (srcRead_short_writes h)
  · next h => exact Fetched.frame_takeFault _ (srcRead_fail_writes h)
  · next h =>
    have hf := srcRead_ok_writes h
    split
    · exact hf
    · exact Fetched.frame_takeFault _ hf

theorem fetchChunk_frame (s : State) : (fetchChunk s).Frame s := by
  unfold fetchChunk
  split
  · trivial
  · next h => exact Fetched.frame_endStream (srcRead_short_writes h)
  · next h => exact Fetched.frame_takeFault _ (srcRead_fail_writes h)
  · next t h =>
    have hf := srcRead_ok_writes h
    split
    · exact Fetched.frame_endStream hf
    · next hd _ _ =>
      have hl : Writes fetchWrites s (latchHeader hd.id hd.size hd.arg t) := hf.trans rfl
      dsimp only
      split
      · trivial
      · next h' => exact Fetched.frame_takeFault _ (hl.trans (srcRead_short_writes h'))
      · next h' => exact Fetched.frame_takeFault _ (hl.trans (srcRead_fail_writes h'))
      · next h' => exact hl.trans (srcRead_ok_writes h')

theorem fetchNext_frame (s : State) : (fetchNext s).Frame s := by
  have hf := fetchChunk_frame s
  unfold fetchNext
  split
  · next h => rw [h] at hf; exact Writes.trans hf rfl
  · next h => rw [h] at hf; exact hf
  · trivial

theorem fetchMode_frame (d : Depth) (s : State) : (fetchMode d s).Frame s := by
  have hf : ((getMode s).bind fun code t => (payRead (operandBytes d code) t).bind fun ops u =>
      .ok (code, ops) u).Holds (Writes fetchWrites s) :=
    (getMode_writes s).bind fun _ _ ht => (ht.payRead _).bind fun _ _ hu => hu
  unfold fetchMode
  split
  · next h => rw [h] at hf; exact Fetched.frame_takeFault _ hf
  · next h =>
    rw [h] at hf
    split
    · exact hf
    · exact Fetched.frame_takeFault _ hf

theorem fetchBlock_frame (p : BlockPos) (s : State) : (fetchBlock p s).Frame s := by
  unfold fetchBlock
  split
  · exact fetchMode_frame .d8 s
  · exact .inr (.inl rfl)

/-- Everything a fetch can do to the state. -/
theorem fetch_frame (s : State) : (fetch s).Frame s := by
  unfold fetch
  split
  · exact fetchHost_frame s
  · exact fetchHost_frame s
  · exact fetchHeader_frame s
  · exact fetchNext_frame s
  · exact fetchBlock_frame _ s
  · exact fetchMode_frame .d4 s

/-! ## The block modes -/

/-- A block mode writes the frame buffers and the log, and moves the pass on. -/
def blockWrites (s t : State) : State := { s with fb0 := t.fb0, fb1 := t.fb1, log := t.log, ctl := t.ctl }

theorem motionCopy_writes (n : Nat) (b : Byte) (px py : Nat) (s : State) :
    Writes blockWrites s (motionCopy n b px py s) := by
  rcases motionCopy_cases n b px py s with ⟨f, e, -⟩ | ⟨r, e⟩ <;> rw [e] <;> exact rfl

theorem atBlock8_writes {s t : State} {go : BlockPos → Ctl} {k : Nat → Nat → State → State}
    (h : atBlock8 s go k = .next t) (hk : ∀ x y, Writes blockWrites s (k x y s)) : Writes blockWrites s t := by
  obtain ⟨p, -, -, -, rfl⟩ := atBlock8_next h
  exact (hk p.x p.y).trans rfl

theorem atBlock4_writes {s t : State} {k : Nat → Nat → State → State}
    (h : atBlock4 s k = .next t) (hk : ∀ x y, Writes blockWrites s (k x y s)) : Writes blockWrites s t := by
  obtain ⟨p, q, -, -, -, rfl⟩ := atBlock4_next h
  exact (hk (p.subX q) (p.subY q)).trans rfl

theorem exec_block_writes {i : Instr} {d : Depth} {s t : State} (hi : i.level = .block d) (h : exec i s = .next t) :
    Writes blockWrites s t := by
  cases i with
  | mot8 => exact atBlock8_writes (show execMot8 s = .next t from h) fun _ _ => rfl
  | fcc8 b => exact atBlock8_writes (show execFcc8 b s = .next t from h) fun x y => motionCopy_writes 8 b x y s
  | sdl8 c => exact atBlock8_writes (show execSdl8 c s = .next t from h) fun _ _ => rfl
  | ccc8 => exact atBlock8_writes (show execCcc8 s = .next t from h) fun _ _ => rfl
  | mot4 => exact atBlock4_writes (show execMot4 s = .next t from h) fun _ _ => rfl
  | fcc4 b => exact atBlock4_writes (show execFcc4 b s = .next t from h) fun x y => motionCopy_writes 4 b x y s
  | sdl4 c => exact atBlock4_writes (show execSdl4 c s = .next t from h) fun _ _ => rfl
  | ccc4 i0 i1 i2 i3 => exact atBlock4_writes (show execCcc4 i0 i1 i2 i3 s = .next t from h) fun _ _ => rfl
  | _ => cases hi

/-! ## CODEBOOK and the sound chunks -/

/-- A command that ends by `settle` went on from a state its parts reached, or took a fault there. -/
theorem Res.Holds.settle_next {α : Type} {r : Res α} {k : α → State → State} {P : State → Prop} {t : State}
    (hr : r.Holds P) (h : r.settle k = .next t) : ∃ u, P u ∧ ((∃ a, t = k a u) ∨ ∃ c, t = takeFault c u) := by
  cases r with
  | ok a u => cases h; exact ⟨u, hr, .inl ⟨a, rfl⟩⟩
  | raised c u => cases h; exact ⟨u, hr, .inr ⟨c, rfl⟩⟩

/-- The cells of a CODEBOOK write the codebook tables and `PPOS`. -/
def codebookWrites (s t : State) : State := { s with ppos := t.ppos, cb2 := t.cb2, cb4 := t.cb4 }

theorem unpack2_writes {s t : State} (i : Nat) (h : Writes codebookWrites s t) :
    (unpack2 i t).Holds (Writes codebookWrites s) :=
  (h.payRead _).bind fun _ _ h1 => (h1.payRead 1).bind fun _ _ h2 => (h2.payRead 1).bind fun _ _ h3 => h3.trans rfl

theorem assemble4_writes {s t : State} (i : Nat) (h : Writes codebookWrites s t) :
    (assemble4 i t).Holds (Writes codebookWrites s) :=
  (h.payRead 4).bind fun _ _ h1 => h1.trans rfl

/-- CODEBOOK goes on with `NEXT`, or takes a fault. -/
theorem execCodebook_next {arg : Half} {payload : List Byte} {s t : State} (h : execCodebook arg payload s = .next t) :
    ∃ u, Writes codebookWrites (loadChunk 0x1002#16 arg payload s) u ∧
      (t = { u with ctl := .fetch } ∨ ∃ c, t = takeFault c u) := by
  have hl := forFrom_holds (P := Writes codebookWrites (loadChunk 0x1002#16 arg payload s))
    fun i _ => unpack2_writes i
  have hl' := forFrom_holds (P := Writes codebookWrites (loadChunk 0x1002#16 arg payload s))
    fun i _ => assemble4_writes i
  obtain ⟨u, hu, ⟨-, ht⟩ | hf⟩ := ((hl _ 0 _ .refl).bind fun _ v hv => hl' _ 0 v hv).settle_next h
  · exact ⟨u, hu, .inl ht⟩
  · exact ⟨u, hu, .inr hf⟩

/-- The samples of a sound chunk write the accumulators, the sample buffer and `PPOS`. -/
def soundWrites (s t : State) : State :=
  { s with ppos := t.ppos, acc0 := t.acc0, acc1 := t.acc1, audBuf := t.audBuf }

theorem decodeSample_writes {s t : State} (ch : Fin 2) (k j : Nat) (h : Writes soundWrites s t) :
    (decodeSample ch k j t).Holds (Writes soundWrites s) := by
  refine (h.payRead 1).bind fun _ u hu => ?_
  split
  · exact hu.trans rfl
  · exact hu

theorem decodePair_writes {s t : State} (i : Nat) (h : Writes soundWrites s t) :
    (decodePair i t).Holds (Writes soundWrites s) :=
  (decodeSample_writes 0 i (2 * i) h).bind fun _ _ => decodeSample_writes 1 i (2 * i + 1)

/-- SND_MONO ends with its event, or takes a fault. -/
theorem execSndMono_next {arg : Half} {payload : List Byte} {s t : State} (h : execSndMono arg payload s = .next t) :
    ∃ n l r u, Writes soundWrites (beginSound 1#2 n l r (loadChunk 0x1020#16 arg payload s)) u ∧
      (t = endSound u ∨ ∃ c, t = takeFault c u) := by
  obtain ⟨u, hu, ht⟩ := (forFrom_holds (fun i _ => decodeSample_writes 0 i i) _ 0 _ .refl).settle_next h
  exact ⟨_, _, _, u, hu, ht.imp_left fun ⟨_, e⟩ => e⟩

/-- SND_STEREO ends with its event, or takes a fault. -/
theorem execSndStereo_next {arg : Half} {payload : List Byte} {s t : State} (h : execSndStereo arg payload s = .next t) :
    ∃ n l r u, Writes soundWrites (beginSound 2#2 n l r (loadChunk 0x1021#16 arg payload s)) u ∧
      (t = endSound u ∨ ∃ c, t = takeFault c u) := by
  obtain ⟨u, hu, ht⟩ := (forFrom_holds (fun i _ => decodePair_writes i) _ 0 _ .refl).settle_next h
  exact ⟨_, _, _, u, hu, ht.imp_left fun ⟨_, e⟩ => e⟩

/-! ## The other commands -/

/-- INFO sets the dimensions, or takes a fault. -/
theorem execInfo_next {arg : Half} {payload : List Byte} {s t : State} (h : execInfo arg payload s = .next t) :
    ∃ k u, u = { loadChunk 0x1001#16 arg payload s with ppos := k } ∧
      ((∃ width height, t = setDimensions width height u) ∨ ∃ c, t = takeFault c u) := by
  unfold execInfo at h
  split at h
  · cases h
  split at h
  · next hr =>
    cases h
    exact ⟨0, _, (payRead_raised hr).1, .inr ⟨_, rfl⟩⟩
  · next hr =>
    dsimp only at h
    split at h <;> cases h
    exact ⟨_, _, (payRead_ok hr).1, .inl ⟨_, _, rfl⟩⟩

/-- FRAME begins a pass, or takes a fault. -/
theorem execFrame_next {arg : Half} {payload : List Byte} {s t : State} (h : execFrame arg payload s = .next t) :
    t = beginPass (loadChunk 0x1011#16 arg payload s) ∨ ∃ c, t = takeFault c (loadChunk 0x1011#16 arg payload s) := by
  unfold execFrame at h
  dsimp only at h
  split at h <;> cases h
  · exact .inl rfl
  · exact .inr ⟨_, rfl⟩

@[simp] theorem frameOneCopy_params (s : State) : (frameOneCopy s).params = s.params := by
  unfold frameOneCopy
  split <;> rfl

@[simp] theorem beginPass_params (s : State) : (beginPass s).params = s.params := frameOneCopy_params s

/-- The stream header begins `PLAYING`, or takes a fault. -/
theorem execSig_next {signature : Half} {pad : List Byte} {framerate : Half} {s t : State}
    (h : execSig signature pad framerate s = .next t) :
    t = { s with framerate := framerate, st := .playing, ctl := .idle, results := s.results ++ [.opened] } ∨
      ∃ c, t = takeFault c s := by
  unfold execSig at h
  split at h <;> cases h
  · exact .inl rfl
  · exact .inr ⟨_, rfl⟩

/-- A host command that answers a next state ran between commands. -/
theorem atIdle_next {s t : State} {k : Host.Outcome State Fault Refusal} (h : atIdle s k = .next t) :
    s.ctl = .idle ∧ k = .next t := by
  unfold atIdle at h
  split at h
  · next hc => exact ⟨hc, h⟩
  · cases h
  · cases h

theorem execHostOpen_next {source : ByteSource} {s t : State} (h : execHostOpen source s = .next t) :
    t = { s with src := source.bytes, srcAns := source.answers, spos := 0, ctl := .header } := by
  obtain ⟨-, hk⟩ := atIdle_next h
  split at hk <;> cases hk
  rfl

theorem execHostNext_next {s t : State} (h : execHostNext s = .next t) : t = { s with ctl := .fetch } := by
  obtain ⟨-, hk⟩ := atIdle_next h
  split at hk <;> cases hk
  rfl

theorem execHostDrop_next {s t : State} (h : execHostDrop s = .next t) :
    t = { State.resetWith s.params with ctl := .dropped, host := s.host, results := s.results, freeCtr := s.freeCtr } := by
  obtain ⟨-, hk⟩ := atIdle_next h
  cases hk
  rfl

/-! ## The parameters -/

/-- No command changes a parameter (R6). -/
theorem exec_params {i : Instr} {s t : State} (h : exec i s = .next t) : t.params = s.params := by
  cases i with
  | sig signature pad framerate => obtain rfl | ⟨c, rfl⟩ := execSig_next (pad := pad) h <;> rfl
  | info arg payload => obtain ⟨k, u, rfl, ⟨width, height, rfl⟩ | ⟨c, rfl⟩⟩ := execInfo_next h <;> rfl
  | codebook arg payload => obtain ⟨u, hu, rfl | ⟨c, rfl⟩⟩ := execCodebook_next h <;> exact hu.field State.params
  | frame arg payload =>
    obtain rfl | ⟨c, rfl⟩ := execFrame_next h
    · exact beginPass_params _
    · rfl
  | sndMono arg payload =>
    obtain ⟨n, l, r, u, hu, rfl | ⟨c, rfl⟩⟩ := execSndMono_next h <;> exact hu.field State.params
  | sndStereo arg payload =>
    obtain ⟨n, l, r, u, hu, rfl | ⟨c, rfl⟩⟩ := execSndStereo_next h <;> exact hu.field State.params
  | custom id arg payload => cases h; rfl
  | hostOpen source => rw [execHostOpen_next h]
  | hostNext => rw [execHostNext_next h]
  | hostDrop => rw [execHostDrop_next h]; rfl
  | _ => exact (exec_block_writes rfl h).field State.params

/-- Settles O56: neither the fetch of a step (`fetch_frame`) nor the command it runs (`exec_params`) writes a parameter. -/
theorem parametersNeverChange : Obligations.ParametersNeverChange := by
  intro s t h
  have hf := fetch_frame s
  obtain ⟨i, u, hr, hx⟩ | hs := step_next h
  · rw [hr] at hf
    calc t.params = u.params := exec_params hx
      _ = s.params           := Writes.field State.params hf
  · rw [hs] at hf
    obtain rfl | rfl | ⟨u, hu, rfl | ⟨c, rfl⟩⟩ := hf
    · rfl
    · rfl
    · exact hu.field State.params
    · exact hu.field State.params

end Sys2Proof.Machine
end

section
/-! PROOFS. The invariant: it holds at reset and every step keeps it (R26, R29 to R32, R53 to R55, R194). A fetch leads from a
state that meets it to one in which the command read may run (`fetch_ready`), and that command leads back (`exec_keeps_inv`). -/

namespace Sys2Proof.Machine

/-- The clauses of the invariant that say what the registers and memories hold whatever `ST` and the control point are: they hold
inside a command too, and they are all that taking a fault needs (`State.Contents.takeFault`). -/
structure State.Contents (s : State) : Prop where
  cb2       : s.cb2.Sound s.params.pixFmt 1024
  cb4       : s.cb4.Sound s.params.pixFmt 4096
  fb0       : s.fb0.Sound s.params.pixFmt s.fbLen
  fb1       : s.fb1.Sound s.params.pixFmt s.fbLen
  dims      : s.dimValid = true → legalDimension s.width = true ∧ legalDimension s.height = true
  noDims    : s.dimValid = false → s.width = 0 ∧ s.height = 0 ∧ s.hasAlpha = false ∧ s.frameCnt = 0
  cursor    : s.mbLeft.toNat ≤ 8
  payCursor : s.ppos ≤ s.pay.length
  samples   : s.audBuf.length ≤ s.audLen

section
variable {s t u : State}

theorem State.Inv.contents (h : s.Inv) : s.Contents := { h with }

/-! What the invariant says of each control point. -/

theorem State.Inv.at_header (h : s.Inv) (hc : s.ctl = .header) : s.st = .uninit := by
  have := h.control
  rwa [State.CtlLegal, hc] at this

theorem State.Inv.at_fetch (h : s.Inv) (hc : s.ctl = .fetch) : s.st = .playing := by
  have := h.control
  rwa [State.CtlLegal, hc] at this

theorem State.Inv.at_block {p : BlockPos} (h : s.Inv) (hc : s.ctl = .block p) :
    s.st = .playing ∧ s.dimValid = true ∧ p.Legal s.width s.height := by
  have := h.control
  rwa [State.CtlLegal, hc] at this

theorem State.Inv.at_sub {p : BlockPos} {q : Fin 4} (h : s.Inv) (hc : s.ctl = .sub p q) :
    s.st = .playing ∧ s.dimValid = true ∧ p.my < s.height.toNat / 16 ∧ p.mx < s.width.toNat / 16 := by
  have := h.control
  rwa [State.CtlLegal, hc] at this

theorem Cause.code_ne_zero (c : Cause) : c.code ≠ 0 := by cases c <;> simp [Cause.code]

/-- A fault may be taken wherever those clauses hold. -/
theorem State.Contents.takeFault (h : s.Contents) (c : Cause) : (takeFault c s).Inv :=
  { h with
    payload  := fun hn => absurd rfl hn
    faulted  := ⟨fun _ => c.code_ne_zero, fun _ => rfl⟩
    unopened := nofun
    position := nofun
    control  := trivial }

/-! ## The updates of a command keep the invariant -/

theorem State.Inv.emit (h : s.Inv) (e : Event) : (emit e s).Inv := { h with control := trivial }

theorem State.Inv.logRecord (h : s.Inv) (r : LogRec) : (logRecord r s).Inv := { h with }

theorem State.Inv.setCtl (h : s.Inv) {c : Ctl} (hc : State.CtlLegal { s with ctl := c }) :
    State.Inv { s with ctl := c } := { h with control := hc }

theorem State.Inv.setPpos (h : s.Inv) {k : Nat} (hk : k ≤ s.pay.length) : State.Inv { s with ppos := k } :=
  { h with payCursor := hk }

theorem State.Inv.setFb (h : s.Inv) (i : Fin 2) {m : PixMem} (hm : m.Sound s.params.pixFmt s.fbLen) :
    (s.setFb i m).Inv := by
  fin_cases i
  · exact { h with fb0 := hm }
  · exact { h with fb1 := hm }

theorem State.Inv.fb (h : s.Inv) (i : Fin 2) : (s.fb i).Sound s.params.pixFmt s.fbLen := by
  fin_cases i
  · exact h.fb0
  · exact h.fb1

theorem State.Inv.payRead (h : s.Inv) (n : Nat) : (payRead n s).Holds State.Inv :=
  payRead_holds n h fun _ hk => h.setPpos hk

theorem State.Inv.getMode (h : s.Inv) : (getMode s).Holds State.Inv := by
  have hc := h.cursor
  rcases getMode_cases s with ⟨hl, e⟩ | ⟨-, b, -, -, -, hp, e⟩ | ⟨-, e⟩ <;> rw [e]
  · exact { h with cursor := by show (s.mbLeft - 1).toNat ≤ 8; bv_omega }
  · exact { h with payCursor := hp, cursor := by show (7#4).toNat ≤ 8; decide }
  · exact h

end

theorem legalDimension_iff (v : Half) : legalDimension v = true ↔ v ≠ 0 ∧ v.toNat % 16 = 0 := by
  simp [legalDimension]

/-- A frame of legal dimensions has a macroblock (R26). -/
theorem legalDimension_macroblocks {v : Half} (h : legalDimension v = true) : 0 < v.toNat / 16 := by
  obtain ⟨h0, h16⟩ := (legalDimension_iff v).1 h
  have : v.toNat ≠ 0 := fun e => h0 (BitVec.eq_of_toNat_eq e)
  omega

/-! ## Reset -/

/-- Settles O14: every memory is empty and every counter zero. -/
theorem resetMeetsTheInvariant : Obligations.ResetMeetsTheInvariant := fun _ =>
  { cb2 := .nil _ _, cb4 := .nil _ _, fb0 := .nil _ _, fb1 := .nil _ _
    dims := nofun
    noDims := fun _ => ⟨rfl, rfl, rfl, rfl⟩
    cursor := Nat.zero_le _
    payload := fun _ => rfl
    payCursor := Nat.zero_le _
    faulted := ⟨nofun, fun h => absurd rfl h⟩
    unopened := fun _ => ⟨rfl, rfl⟩
    position := nofun
    samples := Nat.zero_le _
    control := trivial }

/-! ## CODEBOOK -/

/-- Inside a chunk of a stream that plays with parameters `p`. -/
def State.InChunk (p : Params) (s : State) : Prop := s.Inv ∧ s.st = .playing ∧ s.params = p

section
variable {p : Params} {s : State}

theorem State.InChunk.payRead (h : s.InChunk p) (n : Nat) : (payRead n s).Holds (State.InChunk p) :=
  payRead_holds n h fun _ hk => ⟨h.1.setPpos hk, h.2⟩

theorem State.Inv.cell2_fits (h : s.Inv) (i : Byte) (r c : Nat) : pixelFits s.params.pixFmt (s.cell2 i r c) := h.cb2.read _

theorem State.Inv.cell4_fits (h : s.Inv) (i : Byte) (r c : Nat) : pixelFits s.params.pixFmt (s.cell4 i r c) := h.cb4.read _

theorem State.Inv.quadCells_fits (h : s.Inv) (ix : Nat → Byte) (r c : Nat) :
    pixelFits s.params.pixFmt (s.quadCells ix r c) := h.cell2_fits ..

theorem unpack2_keeps_inv {i : Nat} (hi : i < 256) (h : s.InChunk p) : (unpack2 i s).Holds (State.InChunk p) := by
  refine (h.payRead _).bind fun luma _ h1 => (h1.payRead 1).bind fun cb _ h2 => (h2.payRead 1).bind fun cr t h3 => ?_
  obtain ⟨hinv, hst, hp⟩ := h3
  have hpix : t.params = s.params := hp.trans h.2.2.symm
  exact ⟨{ hinv with cb2 := hinv.cb2.blit (fun _ _ _ _ => by omega) fun _ _ _ _ => hpix ▸ pixelFits_pix .. }, hst, hp⟩

theorem assemble4_keeps_inv {i : Nat} (hi : i < 256) (h : s.InChunk p) : (assemble4 i s).Holds (State.InChunk p) := by
  refine (h.payRead 4).bind fun ix t h1 => ?_
  obtain ⟨hinv, hst, hp⟩ := h1
  have hpix : t.params = s.params := hp.trans h.2.2.symm
  exact ⟨{ hinv with cb4 := hinv.cb4.blit (fun _ _ _ _ => by omega) fun _ _ _ _ => hpix ▸ h.1.quadCells_fits .. }, hst, hp⟩

end

section
variable {arg : Half} {payload : List Byte} {s t : State}

theorem execCodebook_keeps_inv (hl : (loadChunk 0x1002#16 arg payload s).Inv) (hst : s.st = .playing)
    (h : execCodebook arg payload s = .next t) : t.Inv := by
  have hcells : State.InChunk s.params (loadChunk 0x1002#16 arg payload s) := ⟨hl, hst, rfl⟩
  have h2 := fun n (hn : n ≤ 256) => forFrom_holds_of_lt (f := unpack2) (P := State.InChunk s.params) n 0
    fun i _ _ hi => unpack2_keeps_inv (by omega)
  have h4 := fun n (hn : n ≤ 256) => forFrom_holds_of_lt (f := assemble4) (P := State.InChunk s.params) n 0
    fun i _ _ hi => assemble4_keeps_inv (by omega)
  obtain ⟨u, ⟨hu, hplay, -⟩, ⟨-, rfl⟩ | ⟨c, rfl⟩⟩ :=
    ((h2 _ (count2_le _) _ hcells).bind fun _ v hv => h4 _ (count4_le ..) v hv).settle_next h
  · exact hu.setCtl hplay
  · exact hu.contents.takeFault c

/-! ## The sound chunks -/

/-- Inside a sound chunk of `n` samples. -/
def State.InSound (n : Nat) (s : State) : Prop := s.Inv ∧ s.audLen = n

theorem State.Inv.beginSound (h : s.Inv) (ch : BitVec 2) (n : Nat) (l r : Half) :
    (beginSound ch n l r s).InSound n :=
  ⟨{ h with samples := List.length_take_le .. }, rfl⟩

theorem State.Inv.setAcc (h : s.Inv) (ch : Fin 2) (v : Half) : (s.setAcc ch v).Inv := { h with }

theorem State.InSound.writeSample {n j : Nat} (h : s.InSound n) (hj : j < n) (v : Half) : (writeSample j v s).InSound n := by
  obtain ⟨hinv, rfl⟩ := h
  have hlen := hinv.samples
  refine ⟨{ hinv with samples := ?_ }, rfl⟩
  simp only [writeSample_audBuf, writeSample_audLen, List.length_append, List.length_take, List.length_cons,
    List.length_drop]
  omega

theorem decodeSample_keeps_inv {n j : Nat} (ch : Fin 2) (k : Nat) (hj : j < n) (h : s.InSound n) :
    (decodeSample ch k j s).Holds (State.InSound n) := by
  have hr : (payRead 1 s).Holds (State.InSound n) := payRead_holds 1 h fun _ hk => ⟨h.1.setPpos hk, h.2⟩
  refine hr.bind fun b u hu => ?_
  split
  · exact State.InSound.writeSample ⟨hu.1.setAcc ch _, hu.2⟩ hj _
  · exact hu

theorem decodePair_keeps_inv {n i : Nat} (hi : i < n) (h : s.InSound (2 * n)) :
    (decodePair i s).Holds (State.InSound (2 * n)) :=
  (decodeSample_keeps_inv 0 i (by omega) h).bind fun _ _ => decodeSample_keeps_inv 1 i (by omega)

/-- A sound chunk that ends, by its event or by a fault. -/
theorem soundChunk_keeps_inv {n : Nat} {r : Res Unit} (hr : r.Holds (State.InSound n))
    (h : (r.settle fun _ u => endSound u) = .next t) : t.Inv := by
  obtain ⟨u, ⟨hu, -⟩, ⟨-, rfl⟩ | ⟨c, rfl⟩⟩ := hr.settle_next h
  · exact hu.emit _
  · exact hu.contents.takeFault c

theorem execSndMono_keeps_inv (hl : (loadChunk 0x1020#16 arg payload s).Inv) (h : execSndMono arg payload s = .next t) :
    t.Inv :=
  soundChunk_keeps_inv (forFrom_holds_of_lt _ 0 (fun i _ _ hi => decodeSample_keeps_inv 0 i (by simpa using hi)) _
    (hl.beginSound ..)) h

theorem execSndStereo_keeps_inv (hl : (loadChunk 0x1021#16 arg payload s).Inv)
    (h : execSndStereo arg payload s = .next t) : t.Inv :=
  soundChunk_keeps_inv (forFrom_holds_of_lt _ 0 (fun i _ _ hi => decodePair_keeps_inv (by omega)) _
    (hl.beginSound ..)) h

/-! ## INFO, FRAME and CUSTOM -/

/-- INFO sets legal dimensions, or takes a fault, where its payload read has led. -/
theorem execInfo_legal (h : execInfo arg payload s = .next t) :
    ∃ k ≤ payload.length, (∃ c, t = takeFault c { loadChunk 0x1001#16 arg payload s with ppos := k }) ∨
      ∃ width height, legalDimension width = true ∧ legalDimension height = true ∧
        t = setDimensions width height { loadChunk 0x1001#16 arg payload s with ppos := k } := by
  unfold execInfo at h
  split at h
  · cases h
  split at h
  · next c u hr =>
    obtain ⟨rfl, -⟩ := payRead_raised hr
    cases h
    exact ⟨0, Nat.zero_le _, .inl ⟨c, rfl⟩⟩
  · next b u hr =>
    obtain ⟨rfl, -, -, -, hlen⟩ := payRead_ok hr
    dsimp only at h
    split at h <;> cases h
    next hlegal =>
    obtain ⟨hw, hh⟩ := Bool.and_eq_true_iff.1 hlegal
    exact ⟨_, hlen, .inr ⟨_, _, hw, hh, rfl⟩⟩

theorem State.Inv.setDimensions (h : s.Inv) (hst : s.st = .playing) {width height : Half}
    (hw : legalDimension width = true) (hh : legalDimension height = true) : (setDimensions width height s).Inv :=
  { h with
    fb0      := .nil _ _
    fb1      := .nil _ _
    dims     := fun _ => ⟨hw, hh⟩
    noDims   := nofun
    unopened := fun hu => nomatch hst.symm.trans hu
    control  := trivial }

theorem execInfo_keeps_inv (hl : (loadChunk 0x1001#16 arg payload s).Inv) (hst : s.st = .playing)
    (h : execInfo arg payload s = .next t) : t.Inv := by
  obtain ⟨k, hk, ⟨c, rfl⟩ | ⟨width, height, hw, hh, rfl⟩⟩ := execInfo_legal h
  · exact (hl.setPpos hk).contents.takeFault c
  · exact (hl.setPpos hk).setDimensions hst hw hh

theorem State.Inv.frameOneCopy (h : s.Inv) : (frameOneCopy s).Inv := by
  unfold Machine.frameOneCopy
  split
  · exact h.setFb _ ((h.fb _).copyFirst (h.fb _) _)
  · exact h

/-- The frame-1 copy writes the frame buffers only. -/
theorem frameOneCopy_writes (s : State) : Writes blockWrites s (frameOneCopy s) := by
  unfold Machine.frameOneCopy
  split <;> exact rfl

/-- What the control point demands, the frame buffers and the log do not touch. -/
theorem State.CtlLegal.of_writes {c : Ctl} (hw : Writes blockWrites s t) (hc : State.CtlLegal { s with ctl := c }) :
    State.CtlLegal { t with ctl := c } := by
  rw [hw]
  exact hc

theorem State.Inv.beginPass (h : s.Inv) (hst : s.st = .playing) (hd : s.dimValid = true) : (beginPass s).Inv := by
  obtain ⟨hw, hh⟩ := h.dims hd
  have hfirst : State.CtlLegal { s with ctl := .block ⟨0, 0, 0⟩ } :=
    ⟨hst, hd, .inl ⟨legalDimension_macroblocks hh, legalDimension_macroblocks hw⟩⟩
  have hc := hfirst.of_writes (frameOneCopy_writes s)
  exact { h.frameOneCopy with cursor := Nat.zero_le _, control := hc }

theorem execFrame_keeps_inv (hl : (loadChunk 0x1011#16 arg payload s).Inv) (hst : s.st = .playing)
    (h : execFrame arg payload s = .next t) : t.Inv := by
  unfold execFrame at h
  dsimp only at h
  split at h <;> cases h
  · next hd => exact hl.beginPass hst hd
  · exact hl.contents.takeFault _

end

/-! ## The block modes -/

section
variable {s t : State} {p : BlockPos}

theorem BlockPos.my_lt {height : Half} (hd : legalDimension height = true) (h : p.y + 8 ≤ height.toNat) :
    p.my < height.toNat / 16 := by
  obtain ⟨-, h16⟩ := (legalDimension_iff height).1 hd
  rw [y_eq] at h
  omega

theorem BlockPos.mx_lt {width : Half} (hd : legalDimension width = true) (h : p.x + 8 ≤ width.toNat) :
    p.mx < width.toNat / 16 := by
  obtain ⟨-, h16⟩ := (legalDimension_iff width).1 hd
  rw [x_eq] at h
  omega

theorem afterBlock_legal (hst : s.st = .playing) (hd : s.dimValid = true) (hy : p.my < s.height.toNat / 16)
    (hx : p.mx < s.width.toNat / 16) : State.CtlLegal { s with ctl := afterBlock s p } :=
  ⟨hst, hd, BlockPos.next_legal hy hx⟩

theorem afterSub_legal (q : Fin 4) (hst : s.st = .playing) (hd : s.dimValid = true) (hy : p.my < s.height.toNat / 16)
    (hx : p.mx < s.width.toNat / 16) : State.CtlLegal { s with ctl := afterSub s p q } := by
  rw [afterSub_eq]
  split
  · exact afterBlock_legal hst hd hy hx
  · exact ⟨hst, hd, hy, hx⟩

/-- What the pixels of a block may be, and what else a block mode may do, for the invariant to hold after it. -/
def KeepsBlock (s : State) (n : Nat) (k : Nat → Nat → State → State) : Prop :=
  ∀ x y, x + n ≤ s.width.toNat → y + n ≤ s.height.toNat → (k x y s).Inv ∧ Writes blockWrites s (k x y s)

theorem atBlock8_keeps_inv {go : BlockPos → Ctl} {k : Nat → Nat → State → State} (hx : atBlock8 s go k = .next t) (h : s.Inv)
    (hk : s.dimValid = true → KeepsBlock s 8 k)
    (hgo : ∀ p : BlockPos, s.st = .playing → s.dimValid = true → p.my < s.height.toNat / 16 →
      p.mx < s.width.toNat / 16 → State.CtlLegal { s with ctl := go p }) : t.Inv := by
  obtain ⟨p, hc, hX, hY, rfl⟩ := atBlock8_next hx
  obtain ⟨hst, hd, -⟩ := h.at_block hc
  obtain ⟨hw, hh⟩ := h.dims hd
  obtain ⟨hinv, hwr⟩ := hk hd _ _ hX hY
  exact hinv.setCtl ((hgo p hst hd (BlockPos.my_lt hh hY) (BlockPos.mx_lt hw hX)).of_writes hwr)

theorem atBlock4_keeps_inv {k : Nat → Nat → State → State} (hx : atBlock4 s k = .next t) (h : s.Inv)
    (hk : s.dimValid = true → KeepsBlock s 4 k) : t.Inv := by
  obtain ⟨p, q, hc, hX, hY, rfl⟩ := atBlock4_next hx
  obtain ⟨hst, hd, hmy, hmx⟩ := h.at_sub hc
  obtain ⟨hinv, hwr⟩ := hk hd _ _ hX hY
  exact hinv.setCtl ((afterSub_legal q hst hd hmy hmx).of_writes hwr)

theorem State.Inv.keepsBlock_idle (h : s.Inv) (n : Nat) : KeepsBlock s n fun _ _ s => s := fun _ _ _ _ => ⟨h, rfl⟩

theorem State.Inv.drawBlock (h : s.Inv) (hd : s.dimValid = true) {x y n : Nat} {f : Nat → Nat → Pixel}
    (hx : x + n ≤ s.width.toNat) (hy : y + n ≤ s.height.toNat) (hf : ∀ j i, pixelFits s.params.pixFmt (f j i)) :
    (s.drawBlock x y n f).Inv := by
  have hlen : s.fbLen = s.width.toNat * s.height.toNat := if_pos hd
  refine h.setFb _ ((h.fb _).blit (fun j hj i hi => ?_) fun j _ i _ => hf j i)
  rw [hlen]
  exact block_inside hx hy hj hi

theorem State.Inv.keepsBlock_draw (h : s.Inv) (hd : s.dimValid = true) (n : Nat) {f : State → Nat → Nat → Pixel}
    (hf : ∀ j i, pixelFits s.params.pixFmt (f s j i)) : KeepsBlock s n fun x y s' => s'.drawBlock x y n (f s') :=
  fun _ _ hx hy => ⟨h.drawBlock hd hx hy hf, rfl⟩

theorem State.Inv.keepsBlock_motion (h : s.Inv) (hd : s.dimValid = true) (n : Nat) (b : Byte) :
    KeepsBlock s n (motionCopy n b) := by
  refine fun x y hx hy => ⟨?_, motionCopy_writes n b x y s⟩
  rcases motionCopy_cases n b x y s with ⟨f, e, hf⟩ | ⟨r, e⟩ <;> rw [e]
  · refine h.drawBlock hd hx hy fun j i => ?_
    obtain ⟨a, ha⟩ := hf j i
    exact ha ▸ (h.fb _).read a
  · exact h.logRecord r

theorem exec_block_keeps_inv {i : Instr} {d : Depth} (hi : i.level = .block d) (h : s.Inv) (hx : exec i s = .next t) :
    t.Inv := by
  have go (p : BlockPos) := @afterBlock_legal s p
  cases i with
  | mot8 => exact atBlock8_keeps_inv (show execMot8 s = .next t from hx) h (fun _ => h.keepsBlock_idle 8) go
  | fcc8 b => exact atBlock8_keeps_inv (show execFcc8 b s = .next t from hx) h (fun hd => h.keepsBlock_motion hd 8 b) go
  | sdl8 c =>
    exact atBlock8_keeps_inv (show execSdl8 c s = .next t from hx) h
      (fun hd => h.keepsBlock_draw hd 8 fun _ _ => h.cell4_fits ..) go
  | ccc8 =>
    exact atBlock8_keeps_inv (show execCcc8 s = .next t from hx) h (fun _ => h.keepsBlock_idle 8)
      fun _ hst hd hy hx => ⟨hst, hd, hy, hx⟩
  | mot4 => exact atBlock4_keeps_inv (show execMot4 s = .next t from hx) h fun _ => h.keepsBlock_idle 4
  | fcc4 b => exact atBlock4_keeps_inv (show execFcc4 b s = .next t from hx) h fun hd => h.keepsBlock_motion hd 4 b
  | sdl4 c =>
    exact atBlock4_keeps_inv (show execSdl4 c s = .next t from hx) h
      fun hd => h.keepsBlock_draw hd 4 fun _ _ => h.cell4_fits ..
  | ccc4 i0 i1 i2 i3 =>
    exact atBlock4_keeps_inv (show execCcc4 i0 i1 i2 i3 s = .next t from hx) h
      fun hd => h.keepsBlock_draw hd 4 fun _ _ => h.quadCells_fits ..
  | _ => cases hi

end

/-! ## The host commands -/

section
variable {s t : State}

theorem execHostOpen_uninit {source : ByteSource} (h : execHostOpen source s = .next t) : s.st = .uninit := by
  obtain ⟨-, hk⟩ := atIdle_next h
  split at hk
  · assumption
  · cases hk

theorem execHostNext_playing (h : execHostNext s = .next t) : s.st = .playing := by
  obtain ⟨-, hk⟩ := atIdle_next h
  split at hk
  · assumption
  · cases hk

theorem execHostOpen_keeps_inv {source : ByteSource} (hi : s.Inv) (h : execHostOpen source s = .next t) : t.Inv := by
  have hst := execHostOpen_uninit h
  rw [execHostOpen_next h]
  exact { hi with
    unopened := fun hu => ⟨(hi.unopened hu).1, rfl⟩
    position := fun hp => nomatch hst.symm.trans hp
    control  := hst }

theorem execHostDrop_inv (h : execHostDrop s = .next t) : t.Inv := by
  rw [execHostDrop_next h]
  exact { resetMeetsTheInvariant s.params with control := rfl }

end

/-! ## A command that a fetch has read -/

/-- What the invariant has become where command `i` is about to run: the stream header's bytes are passed while `ST` is still
`UNINIT`; a chunk's header stands in the latches while `PAY` does not hold its payload yet. -/
def ReadyToRun (i : Instr) (s : State) : Prop :=
  match i with
  | .sig _ _ _ => State.Inv { s with st := .playing, ctl := .idle }
  | .info _ payload | .codebook _ payload | .frame _ payload | .sndMono _ payload | .sndStereo _ payload
  | .custom _ _ payload => s.st = .playing ∧ ∀ id arg, (loadChunk id arg payload s).Inv
  | _ => s.Inv

section
variable {i : Instr} {s t : State}

theorem ReadyToRun.chunk {payload : List Byte} (id arg : Half) (hst : s.st = .playing)
    (h : ∀ id arg, (loadChunk id arg payload s).Inv) : ReadyToRun (chunkOf id arg payload) s := by
  unfold chunkOf
  split_ifs <;> exact ⟨hst, h⟩

theorem ReadyToRun.block {d : Depth} (hi : i.level = .block d) (h : s.Inv) : ReadyToRun i s := by
  cases i with
  | sig | info | codebook | frame | sndMono | sndStereo | custom => cases hi
  | _ => exact h

theorem ReadyToRun.host (c : HostCmd) (h : s.Inv) : ReadyToRun c.instr s := by
  cases c <;> exact h

theorem execSig_keeps_inv {signature framerate : Half} {pad : List Byte}
    (hi : State.Inv { s with st := .playing, ctl := .idle }) (h : execSig signature pad framerate s = .next t) : t.Inv := by
  obtain rfl | ⟨c, rfl⟩ := execSig_next h
  · exact { hi with }
  · exact hi.contents.takeFault c

/-- A command that ends leads to a state that meets the invariant. -/
theorem exec_keeps_inv (hr : ReadyToRun i s) (h : exec i s = .next t) : t.Inv := by
  cases i with
  | sig signature pad framerate => exact execSig_keeps_inv (pad := pad) hr h
  | info arg payload => exact execInfo_keeps_inv (hr.2 _ arg) hr.1 h
  | codebook arg payload => exact execCodebook_keeps_inv (hr.2 _ arg) hr.1 h
  | frame arg payload => exact execFrame_keeps_inv (hr.2 _ arg) hr.1 h
  | sndMono arg payload => exact execSndMono_keeps_inv (hr.2 _ arg) h
  | sndStereo arg payload => exact execSndStereo_keeps_inv (hr.2 _ arg) h
  | custom id arg payload => cases h; exact ((hr.2 id arg).logRecord _).emit _
  | hostOpen source => exact execHostOpen_keeps_inv hr h
  | hostNext =>
    have hst := execHostNext_playing h
    rw [execHostNext_next h]
    exact State.Inv.setCtl hr hst
  | hostDrop => exact execHostDrop_inv h
  | _ => exact exec_block_keeps_inv rfl hr h

end

/-! ## The fetches -/

/-- What a fetch comes to from a state that meets the invariant. -/
def Fetched.Ready : Fetched → Prop
  | .run i u   => ReadyToRun i u
  | .settled t => t.Inv
  | .stuck _   => True

/-- The source's position and answers, and the counter of free values. -/
def sourceWrites (s t : State) : State := { s with srcAns := t.srcAns, spos := t.spos, freeCtr := t.freeCtr }

/-- What FetchChunk writes: the source's fields and the latches. -/
def chunkWrites (s t : State) : State :=
  { sourceWrites s t with chId := t.chId, chSize := t.chSize, chArg := t.chArg }

/-- What writes only fields that `w'` takes too. -/
theorem Writes.mono {w w' : State → State → State} {s t : State} (h : Writes w s t)
    (hw : ∀ a b, w a b = w' a (w a b) := by intros; rfl) : Writes w' s t :=
  calc t = w s t        := h
    _ = w' s (w s t)    := hw s t
    _ = w' s t          := congrArg (w' s) h.symm

section
variable {s t u : State}

theorem State.Contents.of_chunkWrites (h : s.Contents) (hw : Writes chunkWrites s t) : t.Contents := by
  rw [hw]
  exact { h with }

theorem fetchHost_ready (h : s.Inv) : (fetchHost s).Ready := by
  unfold fetchHost
  split
  · exact h
  · exact .host _ { h with }

theorem fetchMode_ready (d : Depth) (h : s.Inv) : (fetchMode d s).Ready := by
  have hr : ((getMode s).bind fun code t => (payRead (operandBytes d code) t).bind fun ops u =>
      .ok (code, ops) u).Holds State.Inv :=
    h.getMode.bind fun _ _ ht => (ht.payRead _).bind fun _ _ hu => hu
  unfold fetchMode
  split
  · next e => rw [e] at hr; exact hr.contents.takeFault _
  · next e =>
    rw [e] at hr
    split
    · next hd => exact .block (decodeMode_level hd) hr
    · exact hr.contents.takeFault _

theorem fetchBlock_ready {p : BlockPos} (h : s.Inv) (hc : s.ctl = .block p) : (fetchBlock p s).Ready := by
  unfold fetchBlock
  split
  · exact fetchMode_ready .d8 h
  · obtain ⟨-, hd, -⟩ := h.at_block hc
    exact { h with noDims := fun hn => (nomatch hd.symm.trans hn), control := trivial }

/-- A read that is served gives bytes of that number, and ends inside the source if it began there. -/
theorem srcRead_ok_at {n : Nat} {b : List Byte} (h : srcRead n s = .ok b t) :
    b.length = n ∧ (∃ a, t = { s with srcAns := a, spos := s.spos + n }) ∧
      (s.spos ≤ s.src.length → t.spos ≤ s.src.length) := by
  obtain ⟨hb, ht, hpos⟩ := srcRead_ok h
  have hspos : t.spos = s.spos + n := by rw [ht]
  exact ⟨hb, ⟨_, ht⟩, fun hs => hpos.elim id fun h0 => by omega⟩

theorem srcRead_ok_source {n : Nat} {b : List Byte} (h : srcRead n s = .ok b t) : Writes sourceWrites s t := by
  obtain ⟨-, ⟨_, rfl⟩, -⟩ := srcRead_ok_at h
  rfl

theorem srcRead_short_source {n : Nat} (h : srcRead n s = .short t) : Writes sourceWrites s t := by
  rw [srcRead_short h]; rfl

theorem srcRead_fail_source {n : Nat} (h : srcRead n s = .fail t) : Writes sourceWrites s t := by
  rw [srcRead_failed h]; rfl

theorem decodeStreamHeader_sig {hdrPad : Nat} {bytes rest : List Byte} {i : Instr}
    (h : decodeStreamHeader hdrPad bytes = .ok (i, rest)) : ∃ signature pad framerate, i = .sig signature pad framerate := by
  unfold decodeStreamHeader at h
  split at h
  · split at h <;> cases h
    exact ⟨_, _, _, rfl⟩
  · cases h

theorem fetchHeader_ready (h : s.Inv) (hc : s.ctl = .header) : (fetchHeader s).Ready := by
  have hst := h.at_header hc
  have hfault (c : Cause) {t : State} (hw : Writes sourceWrites s t) : (takeFault c t).Inv :=
    (h.contents.of_chunkWrites hw.mono).takeFault c
  unfold fetchHeader
  split
  · trivial
  · next e => exact hfault _ (srcRead_short_source e)
  · next e => exact hfault _ (srcRead_fail_source e)
  · next e =>
    obtain ⟨-, ⟨a, rfl⟩, hspos⟩ := srcRead_ok_at e
    split
    · next hd =>
      obtain ⟨_, _, _, rfl⟩ := decodeStreamHeader_sig hd
      have hnf : s.st ≠ .fault := by rw [hst]; decide
      have hcode : s.faultCode = 0 := by_contra fun hn => hnf (h.faulted.2 hn)
      exact { h with
        payload  := fun _ => h.payload hnf
        faulted  := ⟨nofun, fun hn => absurd hcode hn⟩
        unopened := nofun
        position := fun _ => hspos ((h.unopened hst).2 ▸ Nat.zero_le _)
        control  := trivial }
    · exact hfault _ rfl

/-- A chunk that was fetched: its payload is as long as its header says, both have been passed, and the header stands in the
latches. -/
theorem fetchChunk_run {i : Instr} (h : fetchChunk s = .run i u) :
    ∃ (hd : ChunkHeader) (payload : List Byte) (a : List SrcAnswer),
      i = chunkOf hd.id hd.arg payload ∧ payload.length = hd.size.toNat ∧
      u = { s with srcAns := a, spos := s.spos + 8 + hd.size.toNat, chId := hd.id, chSize := hd.size, chArg := hd.arg } ∧
      (s.spos ≤ s.src.length → u.spos ≤ s.src.length) := by
  unfold fetchChunk at h
  split at h
  iterate 3 cases h
  next e1 =>
  split at h
  · cases h
  next hd _ _ =>
  dsimp only at h
  split at h <;> cases h
  next e2 =>
  obtain ⟨-, ⟨_, rfl⟩, hpos1⟩ := srcRead_ok_at e1
  obtain ⟨hlen, ⟨a, rfl⟩, hpos2⟩ := srcRead_ok_at e2
  exact ⟨hd, _, a, rfl, hlen, rfl, fun hs => hpos2 (hpos1 hs)⟩

/-- A fetch in `NEXT` that runs nothing: the end of the stream, the latches as they were, or a fault. -/
theorem fetchChunk_settled (h : fetchChunk s = .settled t) :
    (∃ u, Writes sourceWrites s u ∧ t = endStream u) ∨ ∃ c u, Writes chunkWrites s u ∧ t = takeFault c u := by
  unfold fetchChunk at h
  split at h
  · cases h
  · next e => cases h; exact .inl ⟨_, srcRead_short_source e, rfl⟩
  · next e => cases h; exact .inr ⟨_, _, (srcRead_fail_source e).mono, rfl⟩
  · next u e =>
    have hw := srcRead_ok_source e
    split at h
    · cases h; exact .inl ⟨_, hw, rfl⟩
    · next hd _ _ =>
      have hl : Writes chunkWrites s (latchHeader hd.id hd.size hd.arg u) := hw.mono.trans rfl
      dsimp only at h
      split at h <;> cases h
      · next e => exact .inr ⟨_, _, hl.trans (srcRead_short_source e).mono, rfl⟩
      · next e => exact .inr ⟨_, _, hl.trans (srcRead_fail_source e).mono, rfl⟩

/-- The end of a stream is met while it plays. -/
theorem State.Inv.endStream (h : s.Inv) (hst : s.st = .playing) (hw : Writes sourceWrites s u) : (endStream u).Inv := by
  have hnf : s.st ≠ .fault := by rw [hst]; decide
  rw [hw]
  exact { h with
    payload  := fun _ => h.payload hnf
    faulted  := ⟨nofun, fun hn => absurd (h.faulted.2 hn) hnf⟩
    unopened := nofun
    position := nofun
    control  := trivial }

/-- From a chunk's fetch and start on, whatever chunk is loaded, the invariant holds. -/
theorem State.Inv.load (h : s.Inv) (hst : s.st = .playing) {a : List SrcAnswer} {pos : Nat} {id' arg' : Half} {size : Word}
    (hpos : pos ≤ s.src.length) (id arg : Half) {payload : List Byte} (hp : payload.length < 2 ^ 32) :
    (loadChunk id arg payload (startChunk
      { s with srcAns := a, spos := pos, chId := id', chSize := size, chArg := arg' })).Inv :=
  have hnf : s.st ≠ .fault := by rw [hst]; decide
  { h with
    payload   := fun _ => (Nat.mod_eq_of_lt hp).symm
    payCursor := Nat.zero_le _
    unopened  := fun hu => (nomatch hst.symm.trans hu)
    position  := fun _ => hpos }

theorem fetchNext_ready (h : s.Inv) (hc : s.ctl = .fetch) : (fetchNext s).Ready := by
  have hst := h.at_fetch hc
  cases e : fetchNext s with
  | run i u =>
    obtain ⟨v, hv, rfl⟩ := fetchNext_run e
    obtain ⟨hd, payload, a, rfl, hlen, rfl, hpos⟩ := fetchChunk_run hv
    have hp : payload.length < 2 ^ 32 := hlen ▸ hd.size.isLt
    exact .chunk _ _ hst fun id arg => h.load hst (hpos (h.position hst)) id arg hp
  | settled t =>
    obtain ⟨u, hw, rfl⟩ | ⟨c, u, hw, rfl⟩ := fetchChunk_settled (fetchNext_settled e)
    · exact h.endStream hst hw
    · exact (h.contents.of_chunkWrites hw).takeFault c
  | stuck f => trivial

theorem fetch_ready (h : s.Inv) : (fetch s).Ready := by
  unfold fetch
  split
  · exact fetchHost_ready h
  · exact fetchHost_ready h
  · next hc => exact fetchHeader_ready h hc
  · next hc => exact fetchNext_ready h hc
  · next hc => exact fetchBlock_ready h hc
  · exact fetchMode_ready .d4 h

end

/-- Settles O15: the fetch leads to a command that is ready to run (`fetch_ready`), or ends the step; the command keeps the
invariant (`exec_keeps_inv`). -/
theorem everyStepKeepsTheInvariant : Obligations.EveryStepKeepsTheInvariant := by
  intro s t hi h
  have hr := fetch_ready hi
  obtain ⟨i, u, hf, hx⟩ | hf := step_next h <;> rw [hf] at hr
  · exact exec_keeps_inv hr hx
  · exact hr

end Sys2Proof.Machine
end

section
/-! PROOFS. No step reads `LOG` or `FRAMERATE` (R25, R38): every operation leads from two states that are alike to results that
are alike, so every step does. -/

namespace Sys2Proof.Machine

/-! ## Alike: the same but for `LOG` and `FRAMERATE` -/

/-- `t` is `s` but for `LOG` and `FRAMERATE`. -/
def Alike (s t : State) : Prop := ∃ l f, t = { s with log := l, framerate := f }

/-- Parts of a command that go on with one value, or raise one fault, in states that are alike. -/
inductive Res.Alike {α : Type} : Res α → Res α → Prop
  | ok (a : α) {s t : State} (h : Machine.Alike s t) : Res.Alike (.ok a s) (.ok a t)
  | raised (c : Cause) {s t : State} (h : Machine.Alike s t) : Res.Alike (.raised c s) (.raised c t)

/-- Reads of the source with one answer, in states that are alike. -/
inductive SrcRead.Alike : SrcRead → SrcRead → Prop
  | ok (b : List Byte) {s t : State} (h : Machine.Alike s t) : SrcRead.Alike (.ok b s) (.ok b t)
  | short {s t : State} (h : Machine.Alike s t) : SrcRead.Alike (.short s) (.short t)
  | fail {s t : State} (h : Machine.Alike s t) : SrcRead.Alike (.fail s) (.fail t)
  | hang : SrcRead.Alike .hang .hang

/-- Fetches of one command, in states that are alike. -/
inductive Fetched.Alike : Fetched → Fetched → Prop
  | run (i : Instr) {s t : State} (h : Machine.Alike s t) : Fetched.Alike (.run i s) (.run i t)
  | settled {s t : State} (h : Machine.Alike s t) : Fetched.Alike (.settled s) (.settled t)
  | stuck (f : Fault) : Fetched.Alike (.stuck f) (.stuck f)

/-- Outcomes that are alike. -/
inductive OutcomeAlike : Host.Outcome State Fault Refusal → Host.Outcome State Fault Refusal → Prop
  | next {s t : State} (h : Alike s t) : OutcomeAlike (.next s) (.next t)
  | fault (f : Fault) : OutcomeAlike (.fault f) (.fault f)
  | refused (r : Refusal) : OutcomeAlike (.refused r) (.refused r)

theorem Res.Alike.bind {α β : Type} {r r' : Res α} {k k' : α → State → Res β} (hr : r.Alike r')
    (hk : ∀ a s t, Machine.Alike s t → (k a s).Alike (k' a t)) : (r.bind k).Alike (r'.bind k') := by
  cases hr with
  | ok a h => exact hk a _ _ h
  | raised c h => exact .raised c h

/-- Every other field is the same. -/
theorem Alike.field {α : Type} (g : State → α) {s t : State} (h : Alike s t)
    (hg : ∀ (s : State) l f, g { s with log := l, framerate := f } = g s := by intros; rfl) : g t = g s := by
  obtain ⟨l, f, rfl⟩ := h
  exact hg s l f

theorem Alike.params {s t : State} (h : Alike s t) : t.params = s.params := h.field State.params
theorem Alike.ctl {s t : State} (h : Alike s t) : t.ctl = s.ctl := h.field State.ctl
theorem Alike.dimValid {s t : State} (h : Alike s t) : t.dimValid = s.dimValid := h.field State.dimValid
theorem Alike.hasAlpha {s t : State} (h : Alike s t) : t.hasAlpha = s.hasAlpha := h.field State.hasAlpha

/-- An update that reads neither of the two keeps states alike. -/
theorem Alike.map {g : State → State} {s t : State} (h : Alike s t)
    (hg : ∀ (s : State) l f, Alike (g s) (g { s with log := l, framerate := f }) := by exact fun _ l f => ⟨l, f, rfl⟩) :
    Alike (g s) (g t) := by
  obtain ⟨l, f, rfl⟩ := h
  exact hg s l f

theorem loadChunk_alike {s t : State} (id arg : Half) (payload : List Byte) (h : Alike s t) :
    Alike (loadChunk id arg payload s) (loadChunk id arg payload t) := h.map

theorem Res.Alike.settle {α : Type} {r r' : Res α} {k : α → State → State} (hr : r.Alike r')
    (hk : ∀ a s t, Machine.Alike s t → Machine.Alike (k a s) (k a t)) : OutcomeAlike (r.settle k) (r'.settle k) := by
  cases hr with
  | ok a h => exact .next (hk a _ _ h)
  | raised c h => exact .next h.map

theorem forFrom_alike {f : Nat → State → Res Unit} (hf : ∀ i s t, Alike s t → (f i s).Alike (f i t)) (n a : Nat)
    {s t : State} (h : Alike s t) : (forFrom f n a s).Alike (forFrom f n a t) := by
  induction n generalizing a s t with
  | zero => exact .ok () h
  | succ n ih => exact (hf a s t h).bind fun _ _ _ h' => ih (a + 1) h'

/-! ## The reads -/

section
variable {s t : State}

theorem payRead_alike (n : Nat) (h : Alike s t) : (payRead n s).Alike (payRead n t) := by
  obtain ⟨l, f, rfl⟩ := h
  unfold payRead
  dsimp only
  split
  · exact .ok _ ⟨l, f, rfl⟩
  · exact .raised _ ⟨l, f, rfl⟩

theorem srcRead_alike (n : Nat) (h : Alike s t) : (srcRead n s).Alike (srcRead n t) := by
  obtain ⟨l, f, rfl⟩ := h
  unfold srcRead
  dsimp only
  split
  · exact .ok _ ⟨l, f, rfl⟩
  split
  · exact .hang
  · exact .fail ⟨l, f, rfl⟩
  split
  · exact .ok _ ⟨l, f, rfl⟩
  · exact .short ⟨l, f, rfl⟩

theorem getMode_alike (h : Alike s t) : (getMode s).Alike (getMode t) := by
  have hr := payRead_alike 2 h
  obtain ⟨l, f, rfl⟩ := h
  unfold getMode
  dsimp only
  split
  · refine hr.bind fun b u v h' => ?_
    obtain ⟨l', f', rfl⟩ := h'
    exact .ok _ ⟨l', f', rfl⟩
  · exact .ok _ ⟨l, f, rfl⟩

/-! ## The fetches -/

theorem fetchHost_alike (h : Alike s t) : (fetchHost s).Alike (fetchHost t) := by
  obtain ⟨l, f, rfl⟩ := h
  unfold fetchHost
  dsimp only
  split
  · exact .settled ⟨l, f, rfl⟩
  · exact .run _ ⟨l, f, rfl⟩

theorem fetchHeader_alike (h : Alike s t) : (fetchHeader s).Alike (fetchHeader t) := by
  have hr := srcRead_alike (4 + s.params.hdrPad) h
  unfold fetchHeader
  rw [h.params]
  generalize srcRead (4 + s.params.hdrPad) s = r at hr ⊢
  generalize srcRead (4 + s.params.hdrPad) t = r' at hr ⊢
  cases hr with
  | hang => exact .stuck _
  | short h' => exact .settled h'.map
  | fail h' => exact .settled h'.map
  | ok b h' =>
    dsimp only
    split
    · exact .run _ h'
    · exact .settled h'.map

theorem fetchChunk_alike (h : Alike s t) : (fetchChunk s).Alike (fetchChunk t) := by
  have hr := srcRead_alike 8 h
  unfold fetchChunk
  generalize srcRead 8 s = r at hr ⊢
  generalize srcRead 8 t = r' at hr ⊢
  cases hr with
  | hang => exact .stuck _
  | short h' => exact .settled h'.map
  | fail h' => exact .settled h'.map
  | @ok b u v h' =>
    dsimp only
    split
    · exact .settled h'.map
    · next hd _ _ =>
      have hr := srcRead_alike hd.size.toNat (h'.map (g := latchHeader hd.id hd.size hd.arg))
      generalize srcRead hd.size.toNat (latchHeader hd.id hd.size hd.arg u) = r at hr ⊢
      generalize srcRead hd.size.toNat (latchHeader hd.id hd.size hd.arg v) = r' at hr ⊢
      cases hr with
      | hang => exact .stuck _
      | short h' => exact .settled h'.map
      | fail h' => exact .settled h'.map
      | ok pay h' => exact .run _ h'

theorem fetchNext_alike (h : Alike s t) : (fetchNext s).Alike (fetchNext t) := by
  have hr := fetchChunk_alike h
  unfold fetchNext
  generalize fetchChunk s = r at hr ⊢
  generalize fetchChunk t = r' at hr ⊢
  cases hr with
  | run i h' => exact .run i h'.map
  | settled h' => exact .settled h'
  | stuck e => exact .stuck e

theorem fetchMode_alike (d : Depth) (h : Alike s t) : (fetchMode d s).Alike (fetchMode d t) := by
  have hr := (getMode_alike h).bind fun code u v h' => (payRead_alike (operandBytes d code) h').bind
    fun ops _ _ h'' => Res.Alike.ok (code, ops) h''
  unfold fetchMode
  revert hr
  generalize (getMode s).bind _ = r
  generalize (getMode t).bind _ = r'
  intro hr
  cases hr with
  | raised c h' => exact .settled h'.map
  | ok a h' =>
    dsimp only
    split
    · exact .run _ h'
    · obtain ⟨l, f, rfl⟩ := h'
      exact .settled ⟨l, f, rfl⟩

theorem fetchBlock_alike (p : BlockPos) (h : Alike s t) : (fetchBlock p s).Alike (fetchBlock p t) := by
  have hm := fetchMode_alike .d8 h
  obtain ⟨l, f, rfl⟩ := h
  unfold fetchBlock
  dsimp only
  split
  · exact hm
  · exact .settled ⟨l, f, rfl⟩

theorem fetch_alike (h : Alike s t) : (fetch s).Alike (fetch t) := by
  unfold fetch
  rw [h.ctl]
  split
  · exact fetchHost_alike h
  · exact fetchHost_alike h
  · exact fetchHeader_alike h
  · exact fetchNext_alike h
  · exact fetchBlock_alike _ h
  · exact fetchMode_alike .d4 h

/-! ## The commands -/

theorem motionCopy_alike (n : Nat) (b : Byte) (x y : Nat) (h : Alike s t) :
    Alike (motionCopy n b x y s) (motionCopy n b x y t) := by
  obtain ⟨l, f, rfl⟩ := h
  unfold motionCopy motionInBounds
  dsimp only
  split
  · exact ⟨l, f, rfl⟩
  · exact ⟨_, f, rfl⟩

theorem atBlock8_alike {go go' : BlockPos → Ctl} {k : Nat → Nat → State → State} (h : Alike s t) (hgo : go' = go)
    (hk : ∀ x y, Alike (k x y s) (k x y t)) : OutcomeAlike (atBlock8 s go k) (atBlock8 t go' k) := by
  subst hgo
  obtain ⟨l, f, rfl⟩ := h
  unfold atBlock8
  dsimp only
  split
  · split
    · next p _ _ =>
      obtain ⟨l', f', e⟩ := hk p.x p.y
      exact .next ⟨l', f', by rw [e]⟩
    · exact .fault _
  · exact .refused _

theorem atBlock4_alike {k : Nat → Nat → State → State} (h : Alike s t)
    (hk : ∀ x y, Alike (k x y s) (k x y t)) : OutcomeAlike (atBlock4 s k) (atBlock4 t k) := by
  obtain ⟨l, f, rfl⟩ := h
  unfold atBlock4
  dsimp only
  split
  · split
    · next p q _ _ =>
      obtain ⟨l', f', e⟩ := hk (p.subX q) (p.subY q)
      exact .next ⟨l', f', by rw [e]; rfl⟩
    · exact .fault _
  · exact .refused _

theorem drawBlock_alike (x y n : Nat) {f g : Nat → Nat → Pixel} (h : Alike s t) (hg : g = f) :
    Alike (s.drawBlock x y n f) (t.drawBlock x y n g) := by
  obtain ⟨l, r, rfl⟩ := h
  exact ⟨l, r, by rw [hg]; rfl⟩

theorem exec_block_alike {i : Instr} {d : Depth} (hi : i.level = .block d) (h : Alike s t) :
    OutcomeAlike (exec i s) (exec i t) := by
  have hgo : afterBlock t = afterBlock s := h.field afterBlock
  have hcell : t.cell4 = s.cell4 := h.field State.cell4
  have hquad : t.quadCells = s.quadCells := h.field State.quadCells
  cases i with
  | mot8 =>
    show OutcomeAlike (execMot8 s) (execMot8 t)
    exact atBlock8_alike h hgo fun _ _ => h
  | fcc8 b =>
    show OutcomeAlike (execFcc8 b s) (execFcc8 b t)
    exact atBlock8_alike h hgo fun x y => motionCopy_alike 8 b x y h
  | sdl8 c =>
    show OutcomeAlike (execSdl8 c s) (execSdl8 c t)
    exact atBlock8_alike h hgo fun x y => drawBlock_alike x y 8 h (by rw [hcell])
  | ccc8 =>
    show OutcomeAlike (execCcc8 s) (execCcc8 t)
    exact atBlock8_alike h rfl fun _ _ => h
  | mot4 =>
    show OutcomeAlike (execMot4 s) (execMot4 t)
    exact atBlock4_alike h fun _ _ => h
  | fcc4 b =>
    show OutcomeAlike (execFcc4 b s) (execFcc4 b t)
    exact atBlock4_alike h fun x y => motionCopy_alike 4 b x y h
  | sdl4 c =>
    show OutcomeAlike (execSdl4 c s) (execSdl4 c t)
    exact atBlock4_alike h fun x y => drawBlock_alike x y 4 h (by rw [hcell])
  | ccc4 i0 i1 i2 i3 =>
    show OutcomeAlike (execCcc4 i0 i1 i2 i3 s) (execCcc4 i0 i1 i2 i3 t)
    exact atBlock4_alike h fun x y => drawBlock_alike x y 4 h (by rw [hquad])
  | _ => cases hi

theorem unpack2_alike (i : Nat) (h : Alike s t) : (unpack2 i s).Alike (unpack2 i t) := by
  unfold unpack2
  rw [h.hasAlpha, h.params]
  refine (payRead_alike _ h).bind fun luma _ _ h1 => (payRead_alike 1 h1).bind fun cb _ _ h2 =>
    (payRead_alike 1 h2).bind fun cr _ _ h3 => ?_
  obtain ⟨l, f, rfl⟩ := h3
  exact .ok () ⟨l, f, rfl⟩

theorem assemble4_alike (i : Nat) (h : Alike s t) : (assemble4 i s).Alike (assemble4 i t) := by
  refine (payRead_alike 4 h).bind fun ix _ _ h1 => ?_
  obtain ⟨l, f, rfl⟩ := h
  obtain ⟨l', f', rfl⟩ := h1
  exact .ok () ⟨l', f', rfl⟩

theorem decodeSample_alike (ch : Fin 2) (k j : Nat) (h : Alike s t) :
    (decodeSample ch k j s).Alike (decodeSample ch k j t) := by
  refine (payRead_alike 1 h).bind fun b u v h1 => ?_
  obtain ⟨l, f, rfl⟩ := h1
  have hacc : State.acc { u with log := l, framerate := f } ch = u.acc ch := rfl
  dsimp only
  rw [hacc]
  split
  · exact .ok () ⟨l, f, rfl⟩
  · exact .raised _ ⟨l, f, rfl⟩

theorem decodePair_alike (i : Nat) (h : Alike s t) : (decodePair i s).Alike (decodePair i t) :=
  (decodeSample_alike 0 i (2 * i) h).bind fun _ _ _ => decodeSample_alike 1 i (2 * i + 1)

theorem execCodebook_alike (arg : Half) (payload : List Byte) (h : Alike s t) :
    OutcomeAlike (execCodebook arg payload s) (execCodebook arg payload t) := by
  have h2 := forFrom_alike (fun i _ _ h => unpack2_alike i h) (count2 arg) 0 (loadChunk_alike 0x1002#16 arg payload h)
  obtain ⟨l, f, rfl⟩ := h
  refine (h2.bind fun _ _ _ h' => forFrom_alike (fun i _ _ h => assemble4_alike i h) _ 0 h').settle fun _ _ _ h' => ?_
  obtain ⟨l', f', rfl⟩ := h'
  exact ⟨l', f', rfl⟩

theorem execSndMono_alike (arg : Half) (payload : List Byte) (h : Alike s t) :
    OutcomeAlike (execSndMono arg payload s) (execSndMono arg payload t) := by
  obtain ⟨l, f, rfl⟩ := h
  exact (forFrom_alike (fun i _ _ h => decodeSample_alike 0 i i h) _ 0 ⟨l, f, rfl⟩).settle fun _ _ _ h' => h'.map

theorem execSndStereo_alike (arg : Half) (payload : List Byte) (h : Alike s t) :
    OutcomeAlike (execSndStereo arg payload s) (execSndStereo arg payload t) := by
  obtain ⟨l, f, rfl⟩ := h
  exact (forFrom_alike (fun i _ _ h => decodePair_alike i h) _ 0 ⟨l, f, rfl⟩).settle fun _ _ _ h' => h'.map

theorem execInfo_alike (arg : Half) (payload : List Byte) (h : Alike s t) :
    OutcomeAlike (execInfo arg payload s) (execInfo arg payload t) := by
  have hr := payRead_alike 4 (loadChunk_alike 0x1001#16 arg payload h)
  unfold execInfo
  rw [h.dimValid]
  generalize payRead 4 (loadChunk 0x1001#16 arg payload s) = r at hr ⊢
  generalize payRead 4 (loadChunk 0x1001#16 arg payload t) = r' at hr ⊢
  split
  · exact .refused _
  cases hr with
  | raised c h' => exact .next h'.map
  | ok b h' =>
    dsimp only
    split
    · exact .next h'.map
    · exact .refused _

theorem frameOneCopy_alike (h : Alike s t) : Alike (frameOneCopy s) (frameOneCopy t) := by
  obtain ⟨l, f, rfl⟩ := h
  unfold frameOneCopy
  dsimp only
  split
  · exact ⟨l, f, rfl⟩
  · exact ⟨l, f, rfl⟩

theorem beginPass_alike (h : Alike s t) : Alike (beginPass s) (beginPass t) := by
  obtain ⟨l, f, e⟩ := frameOneCopy_alike h
  obtain ⟨_, _, rfl⟩ := h
  unfold beginPass
  rw [e]
  exact ⟨l, f, rfl⟩

theorem execFrame_alike (arg : Half) (payload : List Byte) (h : Alike s t) :
    OutcomeAlike (execFrame arg payload s) (execFrame arg payload t) := by
  have hl := loadChunk_alike 0x1011#16 arg payload h
  unfold execFrame
  dsimp only
  rw [hl.dimValid]
  split
  · exact .next (beginPass_alike hl)
  · exact .next hl.map

theorem atIdle_alike {k k' : Host.Outcome State Fault Refusal} (h : Alike s t) (hk : OutcomeAlike k k') :
    OutcomeAlike (atIdle s k) (atIdle t k') := by
  obtain ⟨l, f, rfl⟩ := h
  unfold atIdle
  dsimp only
  split
  · exact hk
  · exact .refused _
  · exact .refused _

theorem execSig_alike (signature framerate : Half) (pad : List Byte) (h : Alike s t) :
    OutcomeAlike (execSig signature pad framerate s) (execSig signature pad framerate t) := by
  obtain ⟨l, f, rfl⟩ := h
  unfold execSig
  dsimp only
  split
  · exact .next ⟨l, framerate, rfl⟩
  · exact .next ⟨l, f, rfl⟩

theorem exec_alike (i : Instr) (h : Alike s t) : OutcomeAlike (exec i s) (exec i t) := by
  cases i with
  | sig signature pad framerate =>
    exact execSig_alike signature framerate pad h
  | info arg payload => exact execInfo_alike arg payload h
  | codebook arg payload => exact execCodebook_alike arg payload h
  | frame arg payload => exact execFrame_alike arg payload h
  | sndMono arg payload => exact execSndMono_alike arg payload h
  | sndStereo arg payload => exact execSndStereo_alike arg payload h
  | custom id arg payload =>
    obtain ⟨l, f, rfl⟩ := h
    exact .next ⟨_, f, rfl⟩
  | hostOpen source =>
    refine atIdle_alike h ?_
    obtain ⟨l, f, rfl⟩ := h
    dsimp only
    split
    · exact .next ⟨l, f, rfl⟩
    · exact .refused _
  | hostNext =>
    refine atIdle_alike h ?_
    obtain ⟨l, f, rfl⟩ := h
    dsimp only
    split
    · exact .next ⟨l, f, rfl⟩
    · exact .refused _
  | hostDrop =>
    refine atIdle_alike h ?_
    obtain ⟨l, f, rfl⟩ := h
    exact .next ⟨[], 0, rfl⟩
  | _ => exact exec_block_alike rfl h

theorem step_alike (h : Alike s t) : OutcomeAlike (step s) (step t) := by
  have hr := fetch_alike h
  unfold step
  generalize fetch s = r at hr ⊢
  generalize fetch t = r' at hr ⊢
  cases hr with
  | run i h' => exact exec_alike i h'
  | settled h' => exact .next h'
  | stuck e => exact .fault e

end

/-- Settles O59: a step from states that are alike has outcomes that are alike (`step_alike`). -/
theorem logAndFramerateAreNeverRead : Obligations.LogAndFramerateAreNeverRead := by
  intro s l f
  have h : OutcomeAlike (step s) (step { s with log := l, framerate := f }) := step_alike ⟨l, f, rfl⟩
  generalize step s = r at h ⊢
  generalize step { s with log := l, framerate := f } = r' at h ⊢
  cases h with
  | next h' =>
    obtain ⟨l', f', rfl⟩ := h'
    rfl
  | fault e => rfl
  | refused e => rfl

end Sys2Proof.Machine
end

section
/-! PROOFS. Which command may write what (R22, R25, R26, R29 to R31, R104), and what follows for a step: dimensions are fixed once
set (R26), `SPOS` does not move backwards while the stream plays (R22). -/

namespace Sys2Proof.Machine

/-! ## The frame of each command -/

/-- Codebooks, dimensions, `FRAMERATE`, `SPOS` and frame buffers from `s`, all else from `t`. -/
def guarded (s t : State) : State :=
  { t with cb2 := s.cb2, cb4 := s.cb4, width := s.width, height := s.height, hasAlpha := s.hasAlpha, dimValid := s.dimValid,
           framerate := s.framerate, spos := s.spos, fb0 := s.fb0, fb1 := s.fb1 }

/-- What command `i` may write of these; `DROP` ends all of it. -/
def execWrites (i : Instr) (s t : State) : State :=
  match i with
  | .sig _ _ _ => { guarded s t with framerate := t.framerate }
  | .info _ _ => { guarded s t with
      width := t.width, height := t.height, hasAlpha := t.hasAlpha, dimValid := t.dimValid, fb0 := t.fb0, fb1 := t.fb1 }
  | .codebook _ _ => { guarded s t with cb2 := t.cb2, cb4 := t.cb4 }
  | .hostOpen _ => { guarded s t with spos := t.spos }
  | .frame _ _ | .fcc8 _ | .sdl8 _ | .fcc4 _ | .sdl4 _ | .ccc4 _ _ _ _ => { guarded s t with fb0 := t.fb0, fb1 := t.fb1 }
  | .hostDrop => t
  | _ => guarded s t

section
variable {i : Instr} {s t : State}

theorem exec_writes (h : exec i s = .next t) : Writes (execWrites i) s t := by
  cases i with
  | sig signature pad framerate => obtain rfl | ⟨c, rfl⟩ := execSig_next (pad := pad) h <;> rfl
  | info arg payload => obtain ⟨k, u, rfl, ⟨width, height, rfl⟩ | ⟨c, rfl⟩⟩ := execInfo_next h <;> rfl
  | codebook arg payload =>
    obtain ⟨u, hu, ht⟩ := execCodebook_next h
    have hs : Writes (execWrites (.codebook arg payload)) s u :=
      Writes.trans (t := loadChunk 0x1002#16 arg payload s) rfl hu.mono
    obtain rfl | ⟨c, rfl⟩ := ht <;> exact hs.trans rfl
  | frame arg payload =>
    obtain rfl | ⟨c, rfl⟩ := execFrame_next h
    · have hs : Writes (execWrites (.frame arg payload)) s (frameOneCopy (loadChunk 0x1011#16 arg payload s)) :=
        Writes.trans (t := loadChunk 0x1011#16 arg payload s) rfl (frameOneCopy_writes _).mono
      exact hs.trans rfl
    · rfl
  | sndMono arg payload =>
    obtain ⟨n, l, r, u, hu, ht⟩ := execSndMono_next h
    have hs : Writes (execWrites (.sndMono arg payload)) s u :=
      Writes.trans (t := beginSound 1#2 n l r (loadChunk 0x1020#16 arg payload s)) rfl hu.mono
    obtain rfl | ⟨c, rfl⟩ := ht <;> exact hs.trans rfl
  | sndStereo arg payload =>
    obtain ⟨n, l, r, u, hu, ht⟩ := execSndStereo_next h
    have hs : Writes (execWrites (.sndStereo arg payload)) s u :=
      Writes.trans (t := beginSound 2#2 n l r (loadChunk 0x1021#16 arg payload s)) rfl hu.mono
    obtain rfl | ⟨c, rfl⟩ := ht <;> exact hs.trans rfl
  | custom id arg payload => cases h; rfl
  | mot8 => obtain ⟨p, -, -, -, rfl⟩ := atBlock8_next (show execMot8 s = .next t from h); rfl
  | ccc8 => obtain ⟨p, -, -, -, rfl⟩ := atBlock8_next (show execCcc8 s = .next t from h); rfl
  | mot4 => obtain ⟨p, q, -, -, -, rfl⟩ := atBlock4_next (show execMot4 s = .next t from h); rfl
  | hostOpen source => rw [execHostOpen_next h]; rfl
  | hostNext => rw [execHostNext_next h]; rfl
  | hostDrop => rfl
  | _ => exact (exec_block_writes rfl h).mono

theorem exec_codebooks (h : exec i s = .next t) (hd : i ≠ .hostDrop) (hi : ∀ arg payload, i ≠ .codebook arg payload) :
    t.cb2 = s.cb2 ∧ t.cb4 = s.cb4 := by
  have hw := exec_writes h
  cases i with
  | codebook arg payload => exact absurd rfl (hi arg payload)
  | hostDrop => exact absurd rfl hd
  | _ => exact ⟨hw.field State.cb2, hw.field State.cb4⟩

theorem exec_dimensions (h : exec i s = .next t) (hd : i ≠ .hostDrop) (hi : ∀ arg payload, i ≠ .info arg payload) :
    t.width = s.width ∧ t.height = s.height ∧ t.hasAlpha = s.hasAlpha ∧ t.dimValid = s.dimValid := by
  have hw := exec_writes h
  cases i with
  | info arg payload => exact absurd rfl (hi arg payload)
  | hostDrop => exact absurd rfl hd
  | _ => exact ⟨hw.field State.width, hw.field State.height, hw.field State.hasAlpha, hw.field State.dimValid⟩

theorem exec_framerate (h : exec i s = .next t) (hd : i ≠ .hostDrop) (hi : ∀ g pad f, i ≠ .sig g pad f) :
    t.framerate = s.framerate := by
  have hw := exec_writes h
  cases i with
  | sig g pad f => exact absurd rfl (hi g pad f)
  | hostDrop => exact absurd rfl hd
  | _ => exact hw.field State.framerate

theorem exec_spos (h : exec i s = .next t) (hd : i ≠ .hostDrop) (hi : ∀ source, i ≠ .hostOpen source) :
    t.spos = s.spos := by
  have hw := exec_writes h
  cases i with
  | hostOpen source => exact absurd rfl (hi source)
  | hostDrop => exact absurd rfl hd
  | _ => exact hw.field State.spos

theorem exec_buffers (h : exec i s = .next t) (hd : i ≠ .hostDrop)
    (hc : ∀ arg payload, i ≠ .info arg payload ∧ i ≠ .frame arg payload)
    (hb : ∀ b, i ≠ .fcc8 b ∧ i ≠ .sdl8 b ∧ i ≠ .fcc4 b ∧ i ≠ .sdl4 b) (h4 : ∀ a b c d, i ≠ .ccc4 a b c d) :
    t.fb0 = s.fb0 ∧ t.fb1 = s.fb1 := by
  have hw := exec_writes h
  cases i with
  | info arg payload => exact absurd rfl (hc arg payload).1
  | frame arg payload => exact absurd rfl (hc arg payload).2
  | fcc8 b => exact absurd rfl (hb b).1
  | sdl8 b => exact absurd rfl (hb b).2.1
  | fcc4 b => exact absurd rfl (hb b).2.2.1
  | sdl4 b => exact absurd rfl (hb b).2.2.2
  | ccc4 a b c d => exact absurd rfl (h4 a b c d)
  | hostDrop => exact absurd rfl hd
  | _ => exact ⟨hw.field State.fb0, hw.field State.fb1⟩

/-! ## The previous buffer -/

theorem motionCopy_prev (n : Nat) (b : Byte) (x y : Nat) (s : State) : (motionCopy n b x y s).fb s.prev = s.fb s.prev := by
  rcases motionCopy_cases n b x y s with ⟨f, e, -⟩ | ⟨r, e⟩ <;> rw [e]
  · exact State.fb_drawBlock_prev ..
  · rfl

theorem atBlock8_prev {go : BlockPos → Ctl} {k : Nat → Nat → State → State} (h : atBlock8 s go k = .next t)
    (hk : ∀ x y, (k x y s).fb s.prev = s.fb s.prev) : t.fb s.prev = s.fb s.prev := by
  obtain ⟨p, -, -, -, rfl⟩ := atBlock8_next h
  exact hk p.x p.y

theorem atBlock4_prev {k : Nat → Nat → State → State} (h : atBlock4 s k = .next t)
    (hk : ∀ x y, (k x y s).fb s.prev = s.fb s.prev) : t.fb s.prev = s.fb s.prev := by
  obtain ⟨p, q, -, -, -, rfl⟩ := atBlock4_next h
  exact hk (p.subX q) (p.subY q)

theorem frameOneCopy_prev (s : State) : (frameOneCopy s).fb s.prev = s.fb s.prev := by
  unfold frameOneCopy
  split
  · exact State.fb_setFb_of_ne s s.prev_ne_cur _
  · rfl

/-- No command but INFO writes the previous buffer: what draws, and the frame-1 copy, write the current one. -/
theorem exec_prev (h : exec i s = .next t) (hd : i ≠ .hostDrop) (hi : ∀ arg payload, i ≠ .info arg payload) :
    t.fb s.prev = s.fb s.prev := by
  have hw := exec_writes h
  cases i with
  | info arg payload => exact absurd rfl (hi arg payload)
  | hostDrop => exact absurd rfl hd
  | frame arg payload =>
    obtain rfl | ⟨c, rfl⟩ := execFrame_next h
    · exact frameOneCopy_prev (loadChunk 0x1011#16 arg payload s)
    · rfl
  | fcc8 b => exact atBlock8_prev (show execFcc8 b s = .next t from h) fun x y => motionCopy_prev 8 b x y s
  | sdl8 c => exact atBlock8_prev (show execSdl8 c s = .next t from h) fun x y => State.fb_drawBlock_prev ..
  | fcc4 b => exact atBlock4_prev (show execFcc4 b s = .next t from h) fun x y => motionCopy_prev 4 b x y s
  | sdl4 c => exact atBlock4_prev (show execSdl4 c s = .next t from h) fun x y => State.fb_drawBlock_prev ..
  | ccc4 i0 i1 i2 i3 =>
    exact atBlock4_prev (show execCcc4 i0 i1 i2 i3 s = .next t from h) fun x y => State.fb_drawBlock_prev ..
  | _ => exact hw.field fun u => u.fb s.prev

end

/-- Settles O54: each clause is the field lemma of the frame `execWrites`; the last is `exec_prev`. -/
theorem whoWritesWhat : Obligations.WhoWritesWhat := fun _ _ _ h hd =>
  ⟨exec_codebooks h hd, exec_dimensions h hd, exec_framerate h hd, exec_spos h hd, exec_buffers h hd, exec_prev h hd⟩

/-! ## Dimensions and stream position in a step -/

/-- Settles O55: a fetch leaves the dimensions, INFO is refused once they are set, and no other command writes them. -/
theorem dimensionsAreFixedOnceSet : Obligations.DimensionsAreFixedOnceSet := by
  intro s t hv h hlive
  have hf := fetch_frame s
  obtain ⟨i, u, hr, hx⟩ | hs := step_next h
  · rw [hr] at hf
    have hu : Writes fetchWrites s u := hf
    have hd : i ≠ .hostDrop := by
      rintro rfl
      rw [execHostDrop_next hx] at hlive
      exact hlive rfl
    have hi (arg : Half) (payload : List Byte) : i ≠ .info arg payload := by
      rintro rfl
      have hx : execInfo arg payload u = .next t := hx
      rw [execInfo, if_pos ((hu.field State.dimValid).trans hv)] at hx
      cases hx
    obtain ⟨hw, hh, ha, hv'⟩ := exec_dimensions hx hd hi
    exact ⟨hv'.trans ((hu.field State.dimValid).trans hv), hw.trans (hu.field State.width), hh.trans (hu.field State.height),
      ha.trans (hu.field State.hasAlpha)⟩
  · rw [hs] at hf
    obtain rfl | rfl | ⟨u, hu, rfl | ⟨c, rfl⟩⟩ := hf
    · exact ⟨hv, rfl, rfl, rfl⟩
    · exact ⟨hv, rfl, rfl, rfl⟩
    · exact ⟨(hu.field State.dimValid).trans hv, hu.field State.width, hu.field State.height, hu.field State.hasAlpha⟩
    · exact ⟨(hu.field State.dimValid).trans hv, hu.field State.width, hu.field State.height, hu.field State.hasAlpha⟩

section
variable {i : Instr} {s u : State}

theorem fetchMode_run_spos {d : Depth} (h : fetchMode d s = .run i u) : u.spos = s.spos := by
  have hread (n : Nat) (t : State) (ht : t.spos = s.spos) : (payRead n t).Holds fun u => u.spos = s.spos :=
    payRead_holds n ht fun _ _ => ht
  have hmode : (getMode s).Holds fun u => u.spos = s.spos := by
    rcases getMode_cases s with ⟨-, e⟩ | ⟨-, _, -, -, -, -, e⟩ | ⟨-, e⟩ <;> rw [e] <;> exact rfl
  have hr : ((getMode s).bind fun code t => (payRead (operandBytes d code) t).bind fun ops u =>
      .ok (code, ops) u).Holds fun u => u.spos = s.spos :=
    hmode.bind fun _ t ht => (hread _ t ht).bind fun _ _ hu => hu
  unfold fetchMode at h
  split at h
  · cases h
  · next e =>
    rw [e] at hr
    split at h <;> cases h
    exact hr

/-- What a fetch reads before a command is at `SPOS` and after. -/
theorem fetch_run_spos (h : fetch s = .run i u) : s.spos ≤ u.spos := by
  unfold fetch at h
  have host (h : fetchHost s = .run i u) : s.spos ≤ u.spos := by
    unfold fetchHost at h
    split at h <;> cases h
    exact Nat.le_refl _
  split at h
  · exact host h
  · exact host h
  · unfold fetchHeader at h
    split at h
    iterate 3 cases h
    next e =>
    obtain ⟨-, ⟨a, rfl⟩, -⟩ := srcRead_ok_at e
    split at h <;> cases h
    exact Nat.le_add_right ..
  · obtain ⟨v, hv, rfl⟩ := fetchNext_run h
    obtain ⟨hd, payload, a, -, -, rfl, -⟩ := fetchChunk_run hv
    show s.spos ≤ s.spos + 8 + hd.size.toNat
    omega
  · unfold fetchBlock at h
    split at h
    · exact (fetchMode_run_spos h).ge
    · cases h
  · exact (fetchMode_run_spos h).ge

end

/-- Settles O57: a fetch reads forwards (`fetch_run_spos`), and of the commands only OPEN, which is refused while the stream
plays, and DROP, which ends it, write `SPOS`. -/
theorem streamPositionOnlyIncreases : Obligations.StreamPositionOnlyIncreases := by
  intro s t hst h hst'
  have hf := fetch_frame s
  obtain ⟨i, u, hr, hx⟩ | hs := step_next h
  · rw [hr] at hf
    have hu : u.st = .playing := (Writes.field State.st hf).trans hst
    have hd : i ≠ .hostDrop := by
      rintro rfl
      rw [execHostDrop_next hx] at hst'
      cases hst'
    have hi (source : ByteSource) : i ≠ .hostOpen source := by
      rintro rfl
      cases hu.symm.trans (execHostOpen_uninit hx)
    rw [exec_spos hx hd hi]
    exact fetch_run_spos hr
  · rw [hs] at hf
    obtain rfl | rfl | ⟨u, -, rfl | ⟨c, rfl⟩⟩ := hf
    · exact Nat.le_refl _
    · exact Nat.le_refl _
    · cases hst'
    · cases hst'

end Sys2Proof.Machine
end

section
/-! PROOFS. What a step hands out (R38, R181): it appends to `LOG` and to the results, at most one result, where it ends a
command. -/

namespace Sys2Proof.Machine

/-- `LOG` is only appended to, and at most one result is handed over, where the command ends. -/
structure Appends (s t : State) : Prop where
  log     : ∃ l, t.log = s.log ++ l
  results : t.results = s.results ∨ (t.ctl = .idle ∧ ∃ r, t.results = s.results ++ [r])

/-- Nothing is handed out. -/
def Quiet (s t : State) : Prop := t.log = s.log ∧ t.results = s.results

section
variable {s t u : State}

theorem Writes.quiet {w : State → State → State} (h : Writes w s t)
    (hw : ∀ a b, (w a b).log = a.log ∧ (w a b).results = a.results := by exact fun _ _ => ⟨rfl, rfl⟩) : Quiet s t :=
  ⟨h.field State.log fun a b => (hw a b).1, h.field State.results fun a b => (hw a b).2⟩

theorem Quiet.appends (h : Quiet s t) : Appends s t := ⟨⟨[], by rw [h.1, List.append_nil]⟩, .inl h.2⟩

/-- From a state reached quietly a command ends with one result: a fault taken, an event, or success of `OPEN`. -/
theorem Quiet.ends (h : Quiet s u) (hl : t.log = u.log := by rfl) (hc : t.ctl = .idle := by rfl)
    (hr : ∃ r, t.results = u.results ++ [r] := by exact ⟨_, rfl⟩) : Appends s t := by
  refine ⟨⟨[], by rw [hl, h.1, List.append_nil]⟩, .inr ⟨hc, ?_⟩⟩
  rwa [h.2] at hr

/-- What is handed out from a state reached quietly is handed out from where it was reached. -/
theorem Quiet.trans (h : Quiet s u) (h' : Appends u t) : Appends s t := by
  obtain ⟨hl, hr⟩ := h'
  rw [h.1] at hl
  rw [h.2] at hr
  exact ⟨hl, hr⟩

/-! ## The commands -/

theorem motionCopy_log_append (n : Nat) (b : Byte) (x y : Nat) (s : State) : ∃ l, (motionCopy n b x y s).log = s.log ++ l := by
  rcases motionCopy_cases n b x y s with ⟨f, e, -⟩ | ⟨r, e⟩ <;> rw [e]
  · exact ⟨[], (List.append_nil _).symm⟩
  · exact ⟨[r], rfl⟩

theorem atBlock8_log {go : BlockPos → Ctl} {k : Nat → Nat → State → State} (h : atBlock8 s go k = .next t)
    (hk : ∀ x y, ∃ l, (k x y s).log = s.log ++ l) : ∃ l, t.log = s.log ++ l := by
  obtain ⟨p, -, -, -, rfl⟩ := atBlock8_next h
  exact hk p.x p.y

theorem atBlock4_log {k : Nat → Nat → State → State} (h : atBlock4 s k = .next t)
    (hk : ∀ x y, ∃ l, (k x y s).log = s.log ++ l) : ∃ l, t.log = s.log ++ l := by
  obtain ⟨p, q, -, -, -, rfl⟩ := atBlock4_next h
  exact hk (p.subX q) (p.subY q)

/-- A block mode hands over no result; MotionCopy may log. -/
theorem exec_block_appends {i : Instr} {d : Depth} (hi : i.level = .block d) (h : exec i s = .next t) : Appends s t := by
  have hsame : ∃ l, s.log = s.log ++ l := ⟨[], (List.append_nil _).symm⟩
  refine ⟨?_, .inl ((exec_block_writes hi h).field State.results)⟩
  cases i with
  | mot8 => exact atBlock8_log (show execMot8 s = .next t from h) fun _ _ => hsame
  | fcc8 b => exact atBlock8_log (show execFcc8 b s = .next t from h) fun x y => motionCopy_log_append 8 b x y s
  | sdl8 c => exact atBlock8_log (show execSdl8 c s = .next t from h) fun _ _ => hsame
  | ccc8 => exact atBlock8_log (show execCcc8 s = .next t from h) fun _ _ => hsame
  | mot4 => exact atBlock4_log (show execMot4 s = .next t from h) fun _ _ => hsame
  | fcc4 b => exact atBlock4_log (show execFcc4 b s = .next t from h) fun x y => motionCopy_log_append 4 b x y s
  | sdl4 c => exact atBlock4_log (show execSdl4 c s = .next t from h) fun _ _ => hsame
  | ccc4 i0 i1 i2 i3 => exact atBlock4_log (show execCcc4 i0 i1 i2 i3 s = .next t from h) fun _ _ => hsame
  | _ => cases hi

theorem frameOneCopy_quiet (s : State) : Quiet s (frameOneCopy s) := by
  unfold frameOneCopy
  split
  · exact ⟨rfl, rfl⟩
  · exact ⟨rfl, rfl⟩

/-- Every command but `DROP`, which clears `LOG`, only appends. -/
theorem exec_appends {i : Instr} (h : exec i s = .next t) (hd : i ≠ .hostDrop) : Appends s t := by
  have hs : Quiet s s := ⟨rfl, rfl⟩
  cases i with
  | sig signature pad framerate =>
    obtain rfl | ⟨c, rfl⟩ := execSig_next (pad := pad) h
    · exact hs.ends
    · exact hs.ends
  | info arg payload =>
    obtain ⟨k, u, hu, ht⟩ := execInfo_next h
    have hq : Quiet s u := by rw [hu]; exact ⟨rfl, rfl⟩
    obtain ⟨width, height, rfl⟩ | ⟨c, rfl⟩ := ht
    · exact hq.ends
    · exact hq.ends
  | codebook arg payload =>
    obtain ⟨u, hu, ht⟩ := execCodebook_next h
    have hq := hu.quiet
    obtain rfl | ⟨c, rfl⟩ := ht
    · exact Quiet.appends (s := s) hq
    · exact Quiet.ends (s := s) hq
  | frame arg payload =>
    obtain rfl | ⟨c, rfl⟩ := execFrame_next h
    · have hq := frameOneCopy_quiet (loadChunk 0x1011#16 arg payload s)
      exact Quiet.appends (s := s) hq
    · exact hs.ends
  | sndMono arg payload =>
    obtain ⟨n, l, r, u, hu, ht⟩ := execSndMono_next h
    have hq := hu.quiet
    obtain rfl | ⟨c, rfl⟩ := ht
    · exact Quiet.ends (s := s) hq
    · exact Quiet.ends (s := s) hq
  | sndStereo arg payload =>
    obtain ⟨n, l, r, u, hu, ht⟩ := execSndStereo_next h
    have hq := hu.quiet
    obtain rfl | ⟨c, rfl⟩ := ht
    · exact Quiet.ends (s := s) hq
    · exact Quiet.ends (s := s) hq
  | custom id arg payload => cases h; exact ⟨⟨[_], rfl⟩, .inr ⟨rfl, _, rfl⟩⟩
  | hostOpen source => rw [execHostOpen_next h]; exact Quiet.appends ⟨rfl, rfl⟩
  | hostNext => rw [execHostNext_next h]; exact Quiet.appends ⟨rfl, rfl⟩
  | hostDrop => exact absurd rfl hd
  | _ => exact exec_block_appends rfl h

end

/-- Settles O58: a fetch is quiet but for the event or the fault it ends in, and a command that is not `DROP` only appends
(`exec_appends`). -/
theorem outputsAreAppended : Obligations.OutputsAreAppended := by
  intro s t h
  have hf := fetch_frame s
  obtain ⟨i, u, hr, hx⟩ | hs := step_next h
  · rw [hr] at hf
    have hq : Quiet s u := Writes.quiet hf
    by_cases hd : i = .hostDrop
    · subst hd
      rw [execHostDrop_next hx]
      exact ⟨.inl rfl, .inl hq.2⟩
    · have ha := hq.trans (exec_appends hx hd)
      exact ⟨.inr ha.log, ha.results⟩
  · have ha : Appends s t := by
      rw [hs] at hf
      obtain rfl | rfl | ⟨u, hu, ht⟩ := hf
      · exact Quiet.appends ⟨rfl, rfl⟩
      · exact Quiet.ends (u := s) ⟨rfl, rfl⟩
      · have hq := hu.quiet
        obtain rfl | ⟨c, rfl⟩ := ht
        · exact hq.ends
        · exact hq.ends
    exact ⟨.inr ha.log, ha.results⟩

end Sys2Proof.Machine
end

section
/-! PROOFS. A step of `NEXT` that fetches a chunk (R100, R104, R172), and the two ends of a stream's life: reset and `DROP` (R42,
R43, R178, R210). -/

namespace Sys2Proof.Machine

/-! ## FetchChunk, where the source serves it -/

/-- How many answers of the source a read of `n` bytes takes (R52, log 10). -/
def answersTaken (n : Nat) : Nat := if n = 0 then 0 else 1

section
variable {s : State}

/-- A read that is served and finds its bytes. -/
theorem srcRead_inside {n : Nat} (hs : s.ServesNext (answersTaken n)) (h : s.spos + n ≤ s.src.length) :
    srcRead n s = .ok ((s.src.drop s.spos).take n)
      { s with srcAns := s.srcAns.drop (answersTaken n), spos := s.spos + n } := by
  rcases Nat.eq_zero_or_pos n with rfl | hn
  · rfl
  · have hone : answersTaken n = 1 := if_neg (by omega)
    rw [hone] at hs ⊢
    rw [srcRead_serve hn hs.head, if_pos h, List.drop_one]

/-- Where the bytes at `SPOS` are a whole chunk and the source serves both reads, FetchChunk reads that chunk. -/
theorem fetchChunk_inside {hd : ChunkHeader} {body : List Byte} (hs : s.ServesNext (answersTaken hd.size.toNat + 1))
    (hh : decodeChunkHeader (s.src.drop s.spos) = .ok (hd, body)) (hlen : hd.size.toNat ≤ body.length) :
    fetchChunk s = .run (chunkOf hd.id hd.arg (body.take hd.size.toNat))
      { s with srcAns := s.srcAns.drop (answersTaken hd.size.toNat + 1), spos := s.spos + 8 + hd.size.toNat,
               chId := hd.id, chSize := hd.size, chArg := hd.arg } := by
  obtain ⟨h8, rfl, htake⟩ := decodeChunkHeader_inv hh
  simp only [List.length_drop] at h8 hlen
  have hheader : srcRead 8 s = .ok ((s.src.drop s.spos).take 8) { s with srcAns := s.srcAns.tail, spos := s.spos + 8 } := by
    rw [srcRead_serve (by decide) hs.head, if_pos (by omega)]
  have hpayload : srcRead hd.size.toNat
      (latchHeader hd.id hd.size hd.arg { s with srcAns := s.srcAns.tail, spos := s.spos + 8 }) =
        .ok ((s.src.drop (s.spos + 8)).take hd.size.toNat)
          { s with srcAns := s.srcAns.tail.drop (answersTaken hd.size.toNat), spos := s.spos + 8 + hd.size.toNat,
                   chId := hd.id, chSize := hd.size, chArg := hd.arg } :=
    srcRead_inside (hs.tail rfl) (show s.spos + 8 + hd.size.toNat ≤ s.src.length by omega)
  unfold fetchChunk
  rw [hheader]
  dsimp only
  rw [htake]
  dsimp only
  rw [hpayload, List.drop_drop, List.drop_tail]

end

/-- Settles O8: the step is the dispatch of the chunk FetchChunk reads (`fetchChunk_inside`), started. -/
theorem stepRunsTheChunkAtTheStreamPosition : Obligations.StepRunsTheChunkAtTheStreamPosition := by
  intro s i hd body rest hc hs hh hchunk
  have htaken : (if hd.size = 0 then 1 else 2) = answersTaken hd.size.toNat + 1 := by
    have hzero : hd.size = 0 ↔ hd.size.toNat = 0 := BitVec.toNat_eq
    simp only [answersTaken, hzero]
    split <;> rfl
  rw [htaken] at hs ⊢
  unfold decodeChunk at hchunk
  rw [hh] at hchunk
  dsimp only at hchunk
  split at hchunk <;> cases hchunk
  next hlen =>
  exact step_run (fetch_chunk hc (fetchChunk_inside hs hh (Nat.le_of_not_lt hlen)))

/-! ## Reset and `DROP` -/

/-- Settles O13: these are the fields of `State.resetWith`. -/
theorem resetValues : Obligations.ResetValues := fun _ =>
  ⟨rfl, rfl, rfl, rfl, rfl, rfl, rfl, rfl, rfl, fun _ => rfl, fun _ => rfl, rfl, rfl, rfl, rfl, rfl, rfl, rfl, rfl, rfl, rfl⟩

/-- A host command between commands is not held back. -/
theorem atIdle_of_idle {s : State} (hc : s.ctl = .idle) (k : Host.Outcome State Fault Refusal) : atIdle s k = k := by
  rw [atIdle, hc]

/-- Settles O21: between commands nothing holds `DROP` back. -/
theorem dropEndsTheInstance : Obligations.DropEndsTheInstance := fun _ hc => atIdle_of_idle hc _

end Sys2Proof.Machine
end

section
/-! PROOFS. The two reads (R52, R54): where the bytes are there, they are a window of `PAY` or of `SRC`. -/

namespace Sys2Proof.Machine

/-- A window inside a list holds as many bytes as asked for, those of the list in order. -/
theorem window_inside {l : List Byte} {a n : Nat} (h : a + n ≤ l.length) :
    ((l.drop a).take n).length = n ∧ ∀ k, k < n → ((l.drop a).take n)[k]? = l[a + k]? := by
  constructor
  · rw [List.length_take, List.length_drop]
    omega
  · intro k hk
    rw [List.getElem?_take_of_lt hk, List.getElem?_drop]

/-- `PAY` holds `CH_SIZE` bytes (R53). -/
def State.PayWhole (s : State) : Prop := s.pay.length = s.chSize.toNat

section
variable {s : State} {n : Nat}

theorem payRead_of_le (hw : s.PayWhole) (h : s.ppos + n ≤ s.pay.length) :
    payRead n s = .ok ((s.pay.drop s.ppos).take n) { s with ppos := s.ppos + n } :=
  payRead_of_fits (hw ▸ h) h

theorem payRead_of_gt (h : s.pay.length < s.ppos + n) :
    payRead n s = .raised (.payloadUnderrun s.chId s.ppos) s :=
  payRead_of_short fun hfit => absurd hfit.2 (Nat.not_le_of_lt h)

/-- The same after earlier reads of the same payload. -/
theorem payRead_at_of_le (hw : s.PayWhole) {p : Nat} (h : p + n ≤ s.pay.length) :
    payRead n { s with ppos := p } = .ok ((s.pay.drop p).take n) { s with ppos := p + n } :=
  payRead_of_le hw h

theorem payRead_at_of_gt {p : Nat} (h : s.pay.length < p + n) :
    payRead n { s with ppos := p } = .raised (.payloadUnderrun s.chId p) { s with ppos := p } :=
  payRead_of_gt h

end

/-- Settles O5: `payRead_of_gt` and `payRead_of_le`, with R53's premise. -/
theorem payReadRule : Obligations.PayReadRule := by
  intro s n hw
  rw [← hw]
  exact ⟨fun h => payRead_of_gt h, fun h => ⟨_, payRead_of_le hw h, window_inside h⟩⟩

/-- Settles O6: an answer of the source that is not to serve is passed on; a read that is served compares its end with that of
`SRC`. -/
theorem srcReadRule : Obligations.SrcReadRule := by
  intro s n
  refine ⟨rfl, fun _ hn ha => srcRead_fail hn ha, fun _ hn ha => srcRead_hang hn ha, fun hn hs hlt => ?_, fun hn hs hle => ?_⟩
  · exact ⟨_, _, by rw [srcRead_serve hn hs.head, if_neg (Nat.not_le_of_lt hlt)]⟩
  · exact ⟨_, by rw [srcRead_serve hn hs.head, if_pos hle], window_inside hle⟩

end Sys2Proof.Machine
end

section
/-! PROOFS. CODEBOOK, cell by cell (R120 to R126): what one cell does where its bytes are there, at which of its reads a cell
stops that is cut, and what the two loops have rebuilt after so many cells. -/

namespace Sys2Proof.Machine

/-! ## The cells of a codebook memory -/

/-- `m` is the codebook memory `old` of `side`×`side` cells with its first `n` cells rebuilt: element (row `r`, column `c`) of
cell `i` is `cell i r c`, and the rows below those cells are as they were (R29, R30, R56). -/
structure PixMem.Rebuilt (side n : Nat) (cell : Nat → Nat → Nat → Pixel) (old m : PixMem) : Prop where
  cells : ∀ i r c, i < n → r < side → c < side → m.read ((side * i + r) * side + c) = cell i r c
  rest  : ∀ a, side * n ≤ a / side → m.read a = old.read a

theorem PixMem.Rebuilt.zero (side : Nat) (cell : Nat → Nat → Nat → Pixel) (m : PixMem) : m.Rebuilt side 0 cell m :=
  ⟨fun _ _ _ hi => absurd hi (Nat.not_lt_zero _), fun _ _ => rfl⟩

/-- Drawing cell `n` after the first `n` cells. -/
theorem PixMem.Rebuilt.blit {side n : Nat} {cell : Nat → Nat → Nat → Pixel} {old m : PixMem} (h : old.Rebuilt side n cell m)
    {f : Nat → Nat → Pixel} (hf : ∀ r c, r < side → c < side → f r c = cell n r c) :
    old.Rebuilt side (n + 1) cell (m.blit side 0 (side * n) side f) where
  cells i r c hi hr hc := by
    obtain hlt | rfl := Nat.lt_succ_iff_lt_or_eq.1 hi
    · have hrow : ((side * i + r) * side + c) / side = side * i + r := by
        rw [Nat.mul_comm, Nat.mul_add_div (by omega), Nat.div_eq_of_lt hc, Nat.add_zero]
      have hbelow : side * i + r < side * n :=
        calc side * i + r < side * i + side := Nat.add_lt_add_left hr _
          _ = side * (i + 1) := rfl
          _ ≤ side * n := Nat.mul_le_mul_left side hlt
      rw [m.read_blit _ _ _ (Nat.zero_add side).le, if_neg (by omega)]
      exact h.cells i r c hlt hr hc
    · have hd := m.read_blit_inside (side * i) f (Nat.zero_add side).le hc hr
      rw [Nat.zero_add] at hd
      exact hd.trans (hf r c hr hc)
  rest a ha := by
    rw [Nat.mul_succ] at ha
    rw [m.read_blit _ _ _ (Nat.zero_add side).le, if_neg (by omega)]
    exact h.rest a (by omega)

/-! ## One cell -/

section
variable {s : State}

/-- Element (row `r`, column `c`) of the 2×2 cell whose record starts at byte `at_` of the payload (R122). -/
def State.recordCell (s : State) (at_ r c : Nat) : Pixel := recordPixel s.params s.hasAlpha s.pay at_ (2 * r + c)

/-- Element (row `r`, column `c`) of the 4×4 cell whose four index bytes start at byte `at_` of the payload (R123). -/
def State.indexedCell (s : State) (at_ r c : Nat) : Pixel :=
  s.cb2.read (4 * (s.pay.getD (at_ + (r / 2 * 2 + c / 2)) 0#8).toNat + (r % 2 * 2 + c % 2))

/-- The pixels of a CELL2 record, from the bytes its three reads give (R76, R122). -/
theorem cell2Pixel_windows (p : Params) (hasAlpha : Bool) (pay : List Byte) (at_ : Nat) {k : Nat} (hk : k < 4) :
    let n := if hasAlpha then 8 else 4
    cell2Pixel p hasAlpha ((pay.drop at_).take n) (((pay.drop (at_ + n)).take 1).getD 0 0#8)
      (((pay.drop (at_ + n + 1)).take 1).getD 0 0#8) k = recordPixel p hasAlpha pay at_ k := by
  unfold cell2Pixel lumaOf alphaOf recordPixel
  cases hasAlpha
  · simp only [Bool.false_eq_true, if_false, getD_window _ _ Nat.one_pos, getD_window _ _ hk, Nat.add_zero, Nat.add_assoc,
      Nat.reduceAdd]
  · have hy : 2 * k < 8 := by omega
    have ha : 2 * k + 1 < 8 := by omega
    simp only [if_true, getD_window _ _ Nat.one_pos, getD_window _ _ hy, getD_window _ _ ha, Nat.add_zero, Nat.add_assoc,
      Nat.reduceAdd]

/-- A 2×2 cell whose record is there. -/
theorem unpack2_whole (i : Nat) (hw : s.PayWhole) (h : s.ppos + bytesPerCell2 s.hasAlpha ≤ s.pay.length) :
    ∃ f, unpack2 i s = .ok ()
        { s with cb2 := s.cb2.blit 2 0 (2 * i) 2 f, ppos := s.ppos + bytesPerCell2 s.hasAlpha } ∧
      ∀ r c, r < 2 → c < 2 → f r c = s.recordCell s.ppos r c := by
  rw [bytesPerCell2_eq] at h ⊢
  unfold unpack2
  rw [payRead_of_le hw (by omega), Res.bind_ok, payRead_at_of_le hw (by omega), Res.bind_ok,
    payRead_at_of_le hw (by omega), Res.bind_ok]
  exact ⟨_, rfl, fun r c hr hc => cell2Pixel_windows _ _ _ _ (by omega)⟩

/-- How far into a CELL2 record that is cut after `rem` bytes its reads get: to the start of the first one that does not fit,
of the luma bytes, of Cb or of Cr (R122, R125). -/
def cutRecordAt (bpc rem : Nat) : Nat := if rem < bpc - 2 then 0 else rem

/-- A 2×2 cell whose record is cut. -/
theorem unpack2_cut (i : Nat) (hw : s.PayWhole) {rem : Nat} (hlen : s.pay.length = s.ppos + rem)
    (h : rem < bytesPerCell2 s.hasAlpha) :
    let at_ := s.ppos + cutRecordAt (bytesPerCell2 s.hasAlpha) rem
    unpack2 i s = .raised (.payloadUnderrun s.chId at_) { s with ppos := at_ } := by
  rw [bytesPerCell2_eq] at h ⊢
  generalize hn : (if s.hasAlpha then 8 else 4) = n at h ⊢
  unfold unpack2
  rw [hn]
  by_cases hluma : rem < n
  · have hat : cutRecordAt (n + 2) rem = 0 := if_pos hluma
    rw [payRead_of_gt (by omega), hat]
    rfl
  · have hat : cutRecordAt (n + 2) rem = rem := if_neg hluma
    rw [payRead_of_le hw (by omega), Res.bind_ok, hat]
    obtain rfl | rfl : rem = n ∨ rem = n + 1 := by omega
    · rw [payRead_at_of_gt (by omega)]
      rfl
    · rw [payRead_at_of_le hw (by omega), Res.bind_ok, payRead_at_of_gt (by omega)]
      rfl

/-- A 4×4 cell whose index bytes are there. -/
theorem assemble4_whole (i : Nat) (hw : s.PayWhole) (h : s.ppos + 4 ≤ s.pay.length) :
    ∃ f, assemble4 i s = .ok () { s with cb4 := s.cb4.blit 4 0 (4 * i) 4 f, ppos := s.ppos + 4 } ∧
      ∀ r c, r < 4 → c < 4 → f r c = s.indexedCell s.ppos r c := by
  unfold assemble4
  rw [payRead_of_le hw h, Res.bind_ok]
  refine ⟨_, rfl, fun r c hr hc => ?_⟩
  have hq : r / 2 * 2 + c / 2 < 4 := by omega
  unfold State.quadCells State.cell2 State.indexedCell
  dsimp only
  rw [getD_window _ _ hq]
  congr 1
  omega

/-- A 4×4 cell whose index bytes are cut. -/
theorem assemble4_cut (i : Nat) (h : s.pay.length < s.ppos + 4) :
    assemble4 i s = .raised (.payloadUnderrun s.chId s.ppos) s := by
  rw [assemble4, payRead_of_gt h, Res.bind_raised]

/-! ## The two loops -/

/-- The first `n` 2×2 cells, where their records are there. -/
theorem unpack2_loop (hw : s.PayWhole) (h0 : s.ppos = 0) {n : Nat} (h : n * bytesPerCell2 s.hasAlpha ≤ s.pay.length) :
    ∃ m, forFrom unpack2 n 0 s = .ok () { s with cb2 := m, ppos := n * bytesPerCell2 s.hasAlpha } ∧
      s.cb2.Rebuilt 2 n (fun i => s.recordCell (i * bytesPerCell2 s.hasAlpha)) m := by
  induction n with
  | zero =>
    refine ⟨s.cb2, ?_, .zero ..⟩
    rw [forFrom_zero, Nat.zero_mul, ← h0]
  | succ n ih =>
    rw [Nat.succ_mul] at h ⊢
    obtain ⟨m, hloop, hm⟩ := ih (by omega)
    obtain ⟨f, hcell, hf⟩ := unpack2_whole (s := { s with cb2 := m, ppos := n * bytesPerCell2 s.hasAlpha }) n hw h
    refine ⟨_, ?_, hm.blit hf⟩
    rw [forFrom_snoc, hloop, Res.bind_ok, Nat.zero_add, hcell]

/-- The first `n` 4×4 cells, where their index bytes are there. -/
theorem assemble4_loop (hw : s.PayWhole) {n : Nat} (h : s.ppos + 4 * n ≤ s.pay.length) :
    ∃ m, forFrom assemble4 n 0 s = .ok () { s with cb4 := m, ppos := s.ppos + 4 * n } ∧
      s.cb4.Rebuilt 4 n (fun i => s.indexedCell (s.ppos + 4 * i)) m := by
  induction n with
  | zero => exact ⟨s.cb4, rfl, .zero ..⟩
  | succ n ih =>
    obtain ⟨m, hloop, hm⟩ := ih (by omega)
    obtain ⟨f, hcell, hf⟩ := assemble4_whole (s := { s with cb4 := m, ppos := s.ppos + 4 * n }) n hw (by dsimp only; omega)
    refine ⟨_, ?_, hm.blit hf⟩
    rw [forFrom_snoc, hloop, Res.bind_ok, Nat.zero_add, hcell]
    rfl

/-- The loop over 2×2 cells where the payload ends before the records of all `n` do: the whole records are unpacked, and the
next one is cut (R125). -/
theorem unpack2_loop_cut (hw : s.PayWhole) (h0 : s.ppos = 0) {n : Nat} (h : s.pay.length < n * bytesPerCell2 s.hasAlpha) :
    let bpc := bytesPerCell2 s.hasAlpha
    let whole := s.pay.length / bpc
    let at_ := whole * bpc + cutRecordAt bpc (s.pay.length % bpc)
    ∃ m, forFrom unpack2 n 0 s = .raised (.payloadUnderrun s.chId at_) { s with cb2 := m, ppos := at_ } ∧
      s.cb2.Rebuilt 2 whole (fun i => s.recordCell (i * bpc)) m := by
  intro bpc whole at_
  have hbpc : 0 < bpc := Nat.pos_of_mul_pos_left (Nat.zero_lt_of_lt h)
  have hwhole : whole < n := (Nat.div_lt_iff_lt_mul hbpc).2 h
  obtain ⟨m, hloop, hm⟩ := unpack2_loop hw h0 (n := whole) (Nat.div_mul_le_self ..)
  have hcut := unpack2_cut (s := { s with cb2 := m, ppos := whole * bpc }) (0 + whole) hw
    (Nat.div_add_mod' ..).symm (Nat.mod_lt _ hbpc)
  exact ⟨m, forFrom_raised hwhole hloop hcut, hm⟩

/-- The loop over 4×4 cells where the payload ends before the index bytes of all `n` do (R125). -/
theorem assemble4_loop_cut (hw : s.PayWhole) {n : Nat} (hle : s.ppos ≤ s.pay.length) (h : s.pay.length < s.ppos + 4 * n) :
    let whole := (s.pay.length - s.ppos) / 4
    let at_ := s.ppos + 4 * whole
    ∃ m, forFrom assemble4 n 0 s = .raised (.payloadUnderrun s.chId at_) { s with cb4 := m, ppos := at_ } ∧
      s.cb4.Rebuilt 4 whole (fun i => s.indexedCell (s.ppos + 4 * i)) m := by
  intro whole at_
  obtain ⟨m, hloop, hm⟩ := assemble4_loop hw (n := whole) (by omega)
  have hcut := assemble4_cut (s := { s with cb4 := m, ppos := at_ }) (0 + whole) (by dsimp only; omega)
  exact ⟨m, forFrom_raised (by omega) hloop hcut, hm⟩

/-- Both loops, where the payload is shorter than the counts need (R125). -/
theorem codebook_loops_cut (hw : s.PayWhole) (h0 : s.ppos = 0) {n2 n4 : Nat}
    (h : s.pay.length < n2 * bytesPerCell2 s.hasAlpha + 4 * n4) :
    let bpc := bytesPerCell2 s.hasAlpha
    let at_ := codebookUnderrunAt s.pay.length n2 bpc
    ∃ m2 m4, ((forFrom unpack2 n2 0 s).bind fun _ t => forFrom assemble4 n4 0 t) =
        .raised (.payloadUnderrun s.chId at_) { s with cb2 := m2, cb4 := m4, ppos := at_ } ∧
      s.cb2.Rebuilt 2 (min n2 (s.pay.length / bpc)) (fun i => s.recordCell (i * bpc)) m2 ∧
      s.cb4.Rebuilt 4 ((s.pay.length - n2 * bpc) / 4)
        (fun i => State.indexedCell { s with cb2 := m2 } (n2 * bpc + 4 * i)) m4 := by
  intro bpc at_
  have hbpc : 0 < bpc := by
    show 0 < bytesPerCell2 s.hasAlpha
    rw [bytesPerCell2_eq]
    omega
  by_cases hfit : n2 * bpc ≤ s.pay.length
  · have hat : at_ = n2 * bpc + 4 * ((s.pay.length - n2 * bpc) / 4) := by
      rw [Nat.mul_comm 4]
      exact if_pos hfit
    have hmin : min n2 (s.pay.length / bpc) = n2 := Nat.min_eq_left ((Nat.le_div_iff_mul_le hbpc).2 hfit)
    obtain ⟨m2, hloop2, hm2⟩ := unpack2_loop hw h0 hfit
    obtain ⟨m4, hloop4, hm4⟩ := assemble4_loop_cut (s := { s with cb2 := m2, ppos := n2 * bpc }) hw hfit h
    refine ⟨m2, m4, ?_, by rwa [hmin], hm4⟩
    rw [hloop2, Res.bind_ok, hloop4, hat]
  · have hlt : s.pay.length < n2 * bpc := Nat.lt_of_not_le hfit
    have hat : at_ = s.pay.length / bpc * bpc + cutRecordAt bpc (s.pay.length % bpc) := if_neg hfit
    have hmin : min n2 (s.pay.length / bpc) = s.pay.length / bpc :=
      Nat.min_eq_right ((Nat.div_lt_iff_lt_mul hbpc).2 hlt).le
    have hnone : (s.pay.length - n2 * bpc) / 4 = 0 := by omega
    obtain ⟨m2, hloop2, hm2⟩ := unpack2_loop_cut hw h0 hlt
    refine ⟨m2, s.cb4, ?_, by rwa [hmin], by rw [hnone]; exact .zero ..⟩
    rw [hloop2, Res.bind_raised, hat]

/-! ## CODEBOOK -/

/-- What the statements say of 2×2 cells rebuilt: pixel by pixel, and of the elements after them. -/
theorem PixMem.Rebuilt.read_records {old m : PixMem} {n bpc : Nat} (h : old.Rebuilt 2 n (fun i => s.recordCell (i * bpc)) m) :
    (∀ i k, i < n → k < 4 → m.read (4 * i + k) = recordPixel s.params s.hasAlpha s.pay (i * bpc) k) ∧
      ∀ a, 4 * n ≤ a → m.read a = old.read a := by
  refine ⟨fun i k hi hk => ?_, fun a ha => h.rest a (by omega)⟩
  have hread := h.cells i (k / 2) (k % 2) hi (by omega) (by omega)
  unfold State.recordCell at hread
  rwa [Nat.div_add_mod, show (2 * i + k / 2) * 2 + k % 2 = 4 * i + k by omega] at hread

/-- The same of 4×4 cells. -/
theorem PixMem.Rebuilt.read_quads {old m : PixMem} {n base : Nat}
    (h : old.Rebuilt 4 n (fun i => s.indexedCell (base + 4 * i)) m) :
    (∀ i r c, i < n → r < 4 → c < 4 → m.read (16 * i + 4 * r + c) = s.indexedCell (base + 4 * i) r c) ∧
      ∀ a, 16 * n ≤ a → m.read a = old.read a := by
  refine ⟨fun i r c hi hr hc => ?_, fun a ha => h.rest a (by omega)⟩
  have hread := h.cells i r c hi hr hc
  rwa [show (4 * i + r) * 4 + c = 16 * i + 4 * r + c by omega] at hread

/-- The payload that a chunk's dispatch loads is whole. -/
theorem loadChunk_payWhole (id arg : Half) {payload : List Byte} (h : payload.length < 2 ^ 32) :
    (loadChunk id arg payload s).PayWhole := (Nat.mod_eq_of_lt h).symm

theorem exec_codebook_eq (arg : Half) (payload : List Byte) : exec (.codebook arg payload) s =
    ((forFrom unpack2 (count2 arg) 0 (loadChunk 0x1002#16 arg payload s)).bind fun _ t =>
      forFrom assemble4 (count4 arg (BitVec.ofNat 32 payload.length) s.hasAlpha) 0 t).settle
        fun _ t => { t with ctl := .fetch } := rfl

end

/-- Settles O28: the loops stop where the payload ends (`codebook_loops_cut`), and the fault is taken there. -/
theorem codebookUnderrunKeepsWholeCells : Obligations.CodebookUnderrunKeepsWholeCells := by
  intro s arg payload hlen n2 bpc n4 w2 w4 at_ hshort
  obtain ⟨m2, m4, hloops, hm2, hm4⟩ := codebook_loops_cut (s := loadChunk 0x1002#16 arg payload s) (n2 := n2) (n4 := n4)
    (loadChunk_payWhole _ _ hlen) rfl hshort
  obtain ⟨hcells2, hrest2⟩ := hm2.read_records
  obtain ⟨hcells4, hrest4⟩ := hm4.read_quads
  have hexec : exec (.codebook arg payload) s = .next (takeFault (.payloadUnderrun 0x1002#16 at_)
      { loadChunk 0x1002#16 arg payload s with cb2 := m2, cb4 := m4, ppos := at_ }) := by
    rw [exec_codebook_eq, hloops, Res.settle_raised]
    rfl
  exact ⟨_, hexec, rfl, rfl, rfl, rfl, hcells2, hrest2, hcells4, hrest4, rfl⟩

end Sys2Proof.Machine
end

section
/-! PROOFS. The stops of the model's own checks (R55, R70, R220; log 16) are not reached from the invariant: a fetch hands a block
mode over only inside a pass, at that mode's depth and at a block of the frame, and a host command only between commands. -/

namespace Sys2Proof.Machine

/-- An outcome that is none of the stops of the model's own checks. -/
def Unstopped (o : Host.Outcome State Fault Refusal) : Prop :=
  o ≠ .fault .blockOutsideFrame ∧ o ≠ .refused .noBlockSelected ∧ o ≠ .refused .commandsOverlap

theorem Unstopped.next (t : State) : Unstopped (.next t) := ⟨nofun, nofun, nofun⟩

section
variable {i : Instr} {s u : State}

/-! ## The commands -/

theorem Unstopped.settle {α : Type} (r : Res α) (k : α → State → State) : Unstopped (r.settle k) := by
  cases r with
  | ok a s => exact .next _
  | raised c s => exact .next _

theorem execInfo_unstopped (arg : Half) (payload : List Byte) (s : State) : Unstopped (execInfo arg payload s) := by
  unfold execInfo
  split
  · exact ⟨nofun, nofun, nofun⟩
  split
  · exact .next _
  · dsimp only
    split
    · exact .next _
    · exact ⟨nofun, nofun, nofun⟩

theorem exec_chunk_unstopped (hi : i.level = .chunk) (s : State) : Unstopped (exec i s) := by
  cases i with
  | info arg payload => exact execInfo_unstopped arg payload s
  | codebook arg payload => exact .settle _ _
  | frame arg payload =>
    show Unstopped (execFrame arg payload s)
    unfold execFrame
    dsimp only
    split <;> exact .next _
  | sndMono arg payload => exact .settle _ _
  | sndStereo arg payload => exact .settle _ _
  | custom id arg payload => exact .next _
  | _ => cases hi

theorem execSig_unstopped (signature : Half) (pad : List Byte) (framerate : Half) (s : State) :
    Unstopped (execSig signature pad framerate s) := by
  unfold execSig
  split <;> exact .next _

theorem atIdle_unstopped {k : Host.Outcome State Fault Refusal} (hs : s.AtRest) (hk : Unstopped k) :
    Unstopped (atIdle s k) := by
  obtain hc | hc := hs
  · rwa [atIdle_of_idle hc]
  · rw [atIdle, hc]
    exact ⟨nofun, nofun, nofun⟩

theorem exec_host_unstopped (c : HostCmd) (hs : s.AtRest) : Unstopped (exec c.instr s) := by
  cases c with
  | openSource source =>
    refine atIdle_unstopped hs ?_
    split
    · exact .next _
    · exact ⟨nofun, nofun, nofun⟩
  | next =>
    refine atIdle_unstopped hs ?_
    split
    · exact .next _
    · exact ⟨nofun, nofun, nofun⟩
  | drop => exact atIdle_unstopped hs (.next _)

theorem atBlock8_unstopped {p : BlockPos} (go : BlockPos → Ctl) (k : Nat → Nat → State → State) (hc : s.ctl = .block p)
    (hy : p.my < s.height.toNat / 16) (hx : p.mx < s.width.toNat / 16) : Unstopped (atBlock8 s go k) := by
  rw [atBlock8_inside go k hc (BlockPos.x_inside hx) (BlockPos.y_inside hy)]
  exact .next _

theorem atBlock4_unstopped {p : BlockPos} {q : Fin 4} (k : Nat → Nat → State → State) (hc : s.ctl = .sub p q)
    (hy : p.my < s.height.toNat / 16) (hx : p.mx < s.width.toNat / 16) : Unstopped (atBlock4 s k) := by
  rw [atBlock4_inside k hc ((p.subX_inside q).trans (BlockPos.x_inside hx)) ((p.subY_inside q).trans (BlockPos.y_inside hy))]
  exact .next _

theorem exec_block8_unstopped {p : BlockPos} (hi : i.level = .block .d8) (hc : s.ctl = .block p)
    (hy : p.my < s.height.toNat / 16) (hx : p.mx < s.width.toNat / 16) : Unstopped (exec i s) := by
  cases i with
  | mot8 => exact (atBlock8_unstopped _ _ hc hy hx : Unstopped (execMot8 s))
  | fcc8 b => exact (atBlock8_unstopped _ _ hc hy hx : Unstopped (execFcc8 b s))
  | sdl8 c => exact (atBlock8_unstopped _ _ hc hy hx : Unstopped (execSdl8 c s))
  | ccc8 => exact (atBlock8_unstopped _ _ hc hy hx : Unstopped (execCcc8 s))
  | _ => cases hi

theorem exec_block4_unstopped {p : BlockPos} {q : Fin 4} (hi : i.level = .block .d4) (hc : s.ctl = .sub p q)
    (hy : p.my < s.height.toNat / 16) (hx : p.mx < s.width.toNat / 16) : Unstopped (exec i s) := by
  cases i with
  | mot4 => exact (atBlock4_unstopped _ hc hy hx : Unstopped (execMot4 s))
  | fcc4 b => exact (atBlock4_unstopped _ hc hy hx : Unstopped (execFcc4 b s))
  | sdl4 c => exact (atBlock4_unstopped _ hc hy hx : Unstopped (execSdl4 c s))
  | ccc4 i0 i1 i2 i3 => exact (atBlock4_unstopped _ hc hy hx : Unstopped (execCcc4 i0 i1 i2 i3 s))
  | _ => cases hi

/-! ## The fetches -/

/-- A fetch that is stuck on the source only, and after which no command is stopped. -/
def Fetched.Unstopped : Fetched → Prop
  | .run i u   => Machine.Unstopped (exec i u)
  | .settled _ => True
  | .stuck f   => f = .sourceNeverAnswers

theorem fetchHost_unstopped (hs : s.AtRest) : (fetchHost s).Unstopped := by
  unfold fetchHost
  split
  · trivial
  · exact exec_host_unstopped _ hs

theorem fetchHeader_unstopped (s : State) : (fetchHeader s).Unstopped := by
  unfold fetchHeader
  split
  · rfl
  · trivial
  · trivial
  · split
    · next hd =>
      obtain ⟨_, pad, _, rfl⟩ := decodeStreamHeader_sig hd
      exact execSig_unstopped _ pad _ _
    · trivial

theorem chunkOf_level (id arg : Half) (payload : List Byte) : (chunkOf id arg payload).level = .chunk := by
  unfold chunkOf
  split_ifs <;> rfl

theorem fetchChunk_stuck {f : Fault} (h : fetchChunk s = .stuck f) : f = .sourceNeverAnswers := by
  unfold fetchChunk at h
  split at h
  · cases h; rfl
  · cases h
  · cases h
  · split at h
    · cases h
    · dsimp only at h
      split at h <;> cases h
      rfl

theorem fetchNext_unstopped (s : State) : (fetchNext s).Unstopped := by
  unfold fetchNext
  split
  · next h =>
    obtain ⟨hd, payload, -, rfl, -⟩ := fetchChunk_run h
    exact exec_chunk_unstopped (chunkOf_level ..) _
  · trivial
  · next h => exact fetchChunk_stuck h

/-- A mode fetch at a depth: whatever holds of the block modes of that depth at the pass's own place. -/
theorem fetchMode_unstopped {d : Depth} {s : State}
    (h : ∀ i u, i.level = .block d → Writes fetchWrites s u → Machine.Unstopped (exec i u)) :
    (fetchMode d s).Unstopped := by
  have hf := fetchMode_frame d s
  unfold fetchMode at hf ⊢
  split
  · trivial
  · next e =>
    rw [e] at hf
    split
    · next hd =>
      dsimp only at hf
      rw [hd] at hf
      exact h _ _ (decodeMode_level hd) hf
    · trivial

theorem fetchBlock_unstopped {p : BlockPos} (h : s.Inv) (hc : s.ctl = .block p) : (fetchBlock p s).Unstopped := by
  unfold fetchBlock
  split
  · next hy =>
    obtain ⟨-, -, ⟨-, hx⟩ | ⟨hend, -⟩⟩ := h.at_block hc
    · refine fetchMode_unstopped fun i u hi hu => ?_
      rw [← hu.field State.height] at hy
      rw [← hu.field State.width] at hx
      exact exec_block8_unstopped hi ((hu.field State.ctl).trans hc) hy hx
    · omega
  · trivial

theorem fetchSub_unstopped {p : BlockPos} {q : Fin 4} (h : s.Inv) (hc : s.ctl = .sub p q) : (fetchMode .d4 s).Unstopped := by
  obtain ⟨-, -, hy, hx⟩ := h.at_sub hc
  refine fetchMode_unstopped fun i u hi hu => ?_
  rw [← hu.field State.height] at hy
  rw [← hu.field State.width] at hx
  exact exec_block4_unstopped hi ((hu.field State.ctl).trans hc) hy hx

theorem fetch_unstopped (h : s.Inv) : (fetch s).Unstopped := by
  unfold fetch
  split
  · next hc => exact fetchHost_unstopped (.inl hc)
  · next hc => exact fetchHost_unstopped (.inr hc)
  · exact fetchHeader_unstopped s
  · exact fetchNext_unstopped s
  · next hc => exact fetchBlock_unstopped h hc
  · next hc => exact fetchSub_unstopped h hc

end

/-- Settles O16: no command that a fetch hands over is stopped (`fetch_unstopped`), and a fetch is stuck on the source only. -/
theorem internalStopsAreUnreachable : Obligations.InternalStopsAreUnreachable := by
  intro s h
  have hf := fetch_unstopped h
  show Unstopped (step s)
  unfold step
  split
  · next e => rwa [e] at hf
  · exact .next _
  · next e =>
    rw [e] at hf
    obtain rfl : _ = Fault.sourceNeverAnswers := hf
    exact ⟨nofun, nofun, nofun⟩

end Sys2Proof.Machine
end

section
/-! PROOFS. The two round trips of the encoding (R71 to R73, R81, R86): one lemma each way for a stream header, a chunk and a block
mode, and what follows from them. -/

namespace Sys2Proof

/-! ## The stream header -/

theorem decodeStreamHeader_encode (signature framerate : Half) (pad rest : List Byte) :
    decodeStreamHeader pad.length (bytes16 signature ++ pad ++ bytes16 framerate ++ rest) =
      .ok (.sig signature pad framerate, rest) := by
  simp [decodeStreamHeader, bytes16]

/-- What decodes as a stream header was spelled by one. -/
theorem decodeStreamHeader_inv {hdrPad : Nat} {bytes rest : List Byte} {i : Instr}
    (h : decodeStreamHeader hdrPad bytes = .ok (i, rest)) :
    ∃ signature pad framerate, i = .sig signature pad framerate ∧ pad.length = hdrPad ∧
      bytes = bytes16 signature ++ pad ++ bytes16 framerate ++ rest := by
  unfold decodeStreamHeader at h
  split at h
  · next b0 b1 t =>
    split at h <;> cases h
    next f0 f1 ht =>
    refine ⟨_, _, _, rfl, ?_, ?_⟩
    · have hlen := congrArg List.length ht
      simp only [List.length_drop, List.length_cons] at hlen
      rw [List.length_take]
      omega
    · calc b0 :: b1 :: t = b0 :: b1 :: (t.take hdrPad ++ f0 :: f1 :: rest) := by rw [← ht, List.take_append_drop]
        _ = _ := by simp [bytes16_le16]
  · cases h

/-! ## A chunk -/

theorem encode_chunkOf (id arg : Half) (payload : List Byte) :
    encode (chunkOf id arg payload) = some (.stream (encodeChunk id arg payload)) := by
  unfold chunkOf
  split_ifs <;> (subst_vars; rfl)

theorem chunkOf_wf (p : Params) (id arg : Half) (payload : List Byte) :
    (chunkOf id arg payload).wf p = payloadFits payload := by
  unfold chunkOf
  split_ifs with h1 h2 h3 h4 h5
  iterate 5 rfl
  simp [Instr.wf, recognisedIds, h1, h2, h3, h4, h5]

theorem chunkOf_custom {id : Half} (h : id ∉ recognisedIds) (arg : Half) (payload : List Byte) :
    chunkOf id arg payload = .custom id arg payload := by
  obtain ⟨h1, h2, h3, h4, h5⟩ : id ≠ 0x1001#16 ∧ id ≠ 0x1002#16 ∧ id ≠ 0x1011#16 ∧ id ≠ 0x1020#16 ∧ id ≠ 0x1021#16 := by
    simpa [recognisedIds] using h
  rw [chunkOf, if_neg h1, if_neg h2, if_neg h3, if_neg h4, if_neg h5]

/-- A well-formed chunk command is what the level-1 opcode map gives for its id. -/
theorem Instr.eq_chunkOf {i : Instr} {p : Params} (hi : i.level = .chunk) (hwf : i.wf p = true) :
    ∃ id arg payload, i = chunkOf id arg payload ∧ payload.length < 2 ^ 32 := by
  suffices h : ∃ id arg payload, i = chunkOf id arg payload by
    obtain ⟨id, arg, payload, rfl⟩ := h
    rw [chunkOf_wf] at hwf
    exact ⟨id, arg, payload, rfl, of_decide_eq_true hwf⟩
  cases i with
  | info arg payload => exact ⟨0x1001#16, arg, payload, rfl⟩
  | codebook arg payload => exact ⟨0x1002#16, arg, payload, rfl⟩
  | frame arg payload => exact ⟨0x1011#16, arg, payload, rfl⟩
  | sndMono arg payload => exact ⟨0x1020#16, arg, payload, rfl⟩
  | sndStereo arg payload => exact ⟨0x1021#16, arg, payload, rfl⟩
  | custom id arg payload =>
    have hid : id ∉ recognisedIds := fun h => by simp [Instr.wf, h] at hwf
    exact ⟨id, arg, payload, (chunkOf_custom hid arg payload).symm⟩
  | _ => cases hi

/-- The bytes of a chunk header are those of its fields. -/
theorem decodeChunkHeader_bytes {bytes body : List Byte} {h : ChunkHeader} (e : decodeChunkHeader bytes = .ok (h, body)) :
    bytes = bytes16 h.id ++ bytes32 h.size ++ bytes16 h.arg ++ body := by
  unfold decodeChunkHeader at e
  split at e <;> cases e
  simp only [bytes16_le16, bytes32_le32, List.cons_append, List.nil_append]

/-- A header whose payload is there makes a chunk. -/
theorem decodeChunk_of_header {bytes body : List Byte} {h : ChunkHeader} (e : decodeChunkHeader bytes = .ok (h, body))
    (hlen : h.size.toNat ≤ body.length) :
    decodeChunk bytes = .ok (chunkOf h.id h.arg (body.take h.size.toNat), body.drop h.size.toNat) := by
  rw [decodeChunk, e]
  exact if_neg (Nat.not_lt_of_le hlen)

/-- What decodes as a chunk was spelled by one. -/
theorem decodeChunk_inv {bytes rest : List Byte} {i : Instr} (h : decodeChunk bytes = .ok (i, rest)) :
    ∃ id arg payload, i = chunkOf id arg payload ∧ payload.length < 2 ^ 32 ∧ bytes = encodeChunk id arg payload ++ rest := by
  unfold decodeChunk at h
  split at h
  · cases h
  next hd body e =>
  split at h <;> cases h
  next hlen =>
  have hpay : (body.take hd.size.toNat).length = hd.size.toNat := List.length_take_of_le (Nat.le_of_not_lt hlen)
  refine ⟨hd.id, hd.arg, _, rfl, hpay.trans_lt hd.size.isLt, ?_⟩
  rw [decodeChunkHeader_bytes e, encodeChunk, hpay, BitVec.ofNat_toNat, BitVec.setWidth_eq, List.append_assoc _ (body.take _),
    List.take_append_drop]

/-! ## A block mode -/

theorem decodeMode_encode {i : Instr} {d : Depth} {code : BitVec 2} {ops : List Byte} (hi : i.level = .block d)
    (he : encode i = some (.mode code ops)) (rest : List Byte) : decodeMode d code (ops ++ rest) = .ok (i, rest) := by
  cases i <;> cases hi <;> cases he <;> rfl

/-- What decodes as a block mode was spelled by it. -/
theorem decodeMode_inv {d : Depth} {code : BitVec 2} {bytes rest : List Byte} {i : Instr}
    (h : decodeMode d code bytes = .ok (i, rest)) : ∃ ops, encode i = some (.mode code ops) ∧ bytes = ops ++ rest := by
  unfold decodeMode at h
  split_ifs at h with h0 h1 h2
  · subst h0
    cases d <;> cases h <;> exact ⟨[], rfl, rfl⟩
  · subst h1
    rcases bytes with _ | ⟨b, t⟩
    · cases h
    · cases d <;> cases h <;> exact ⟨[b], rfl, rfl⟩
  · subst h2
    rcases bytes with _ | ⟨c, t⟩
    · cases h
    · cases d <;> cases h <;> exact ⟨[c], rfl, rfl⟩
  · obtain rfl : code = 3#2 := by bv_omega
    cases d with
    | d8 => cases h; exact ⟨[], rfl, rfl⟩
    | d4 =>
      dsimp only at h
      split at h <;> cases h
      next i0 i1 i2 i3 => exact ⟨[i0, i1, i2, i3], rfl, rfl⟩

theorem Instr.wf_of_block {i : Instr} {d : Depth} (hi : i.level = .block d) (p : Params) : i.wf p = true := by
  cases i <;> cases hi <;> rfl

/-- A block mode is encoded as a mode code with operand bytes. -/
theorem encode_block {i : Instr} {d : Depth} (hi : i.level = .block d) : ∃ code ops, encode i = some (.mode code ops) := by
  cases i <;> cases hi <;> exact ⟨_, _, rfl⟩

/-! ## The round trips -/

/-- Settles O1, level by level: a stream header, a chunk and a block mode are each decoded from what encodes them; a host command
is not encoded. -/
theorem decodeAfterEncode : Obligations.DecodeAfterEncode := by
  intro p i e rest hwf he
  cases hl : i.level with
  | host => cases i <;> cases hl <;> cases he
  | header =>
    cases i <;> cases hl
    next signature pad framerate =>
    cases he
    have hpad : pad.length = p.hdrPad := eq_of_beq hwf
    rw [← hpad]
    exact decodeStreamHeader_encode signature framerate pad rest
  | chunk =>
    obtain ⟨id, arg, payload, rfl, hlen⟩ := Instr.eq_chunkOf hl hwf
    obtain rfl := Option.some.inj ((encode_chunkOf id arg payload).symm.trans he)
    exact decodeChunk_encode id arg payload rest hlen
  | block d =>
    obtain ⟨code, ops, henc⟩ := encode_block hl
    obtain rfl := Option.some.inj (henc.symm.trans he)
    exact decodeMode_encode hl henc rest

/-- Settles O2: what each level's decoder accepts was spelled by the command it gives (`decodeStreamHeader_inv`, `decodeChunk_inv`,
`decodeMode_inv`). -/
theorem encodeAfterDecode : Obligations.EncodeAfterDecode := by
  intro p lvl e i rest h
  unfold decode at h
  split at h
  · next bytes =>
    obtain ⟨signature, pad, framerate, rfl, hpad, rfl⟩ := decodeStreamHeader_inv h
    exact ⟨rfl, beq_of_eq hpad, _, rfl, rfl⟩
  · next bytes =>
    obtain ⟨id, arg, payload, rfl, hlen, rfl⟩ := decodeChunk_inv h
    exact ⟨Machine.chunkOf_level id arg payload, (chunkOf_wf p id arg payload).trans (decide_eq_true hlen), _,
      encode_chunkOf id arg payload, rfl⟩
  · next d code bytes =>
    have hl := decodeMode_level h
    obtain ⟨ops, henc, rfl⟩ := decodeMode_inv h
    exact ⟨hl, Instr.wf_of_block hl p, _, henc, rfl⟩
  · cases h

/-- Settles O3: a header makes a chunk once its payload is there (`decodeChunk_of_header`), eight bytes make a header, and the operand
bytes a code needs decode (`decodeMode_total`), so they do with any bytes after them. -/
theorem noIllegalEncoding : Obligations.NoIllegalEncoding := by
  refine ⟨fun h bytes rest e hlen => ⟨_, decodeChunk_of_header e hlen⟩, fun bytes hlen => ?_, fun d code bytes hlen => ?_⟩
  · match bytes, hlen with
    | _ :: _ :: _ :: _ :: _ :: _ :: _ :: _ :: _, _ => exact ⟨_, rfl⟩
  · obtain ⟨i, hi⟩ := decodeMode_total d code (bytes.take (operandBytes d code)) (List.length_take_of_le hlen)
    obtain ⟨ops, henc, hops⟩ := decodeMode_inv hi
    rw [List.append_nil] at hops
    have hl := decodeMode_level hi
    have hdec := decodeMode_encode hl henc (bytes.drop (operandBytes d code))
    rw [← hops, List.take_append_drop] at hdec
    exact ⟨i, hl, hdec⟩

/-- Settles O4 by running the decoder. -/
theorem sampleWordsDecode : Obligations.SampleWordsDecode := ⟨rfl, rfl, rfl, rfl, rfl⟩

end Sys2Proof
end

section
/-! PROOFS. The mode cursor and the motion vector as numbers (R82, R136), and the steps that read a stream header (R71, R105, R171)
and a block mode (R79, R138, R142). -/

namespace Sys2Proof.Machine

/-! ## GetMode -/

section
variable {s : State}

theorem getMode_of_left (h : s.mbLeft ≠ 0) :
    getMode s = .ok (modeCode s.mbWord (s.mbLeft - 1)) { s with mbLeft := s.mbLeft - 1 } := if_neg h

theorem getMode_of_refill {b0 b1 : Byte} {t : State} (h : s.mbLeft = 0) (hr : payRead 2 s = .ok [b0, b1] t) :
    getMode s = .ok (modeCode (le16 b0 b1) 7) { t with mbWord := le16 b0 b1, mbLeft := 7 } := by
  simp [getMode, h, hr]

theorem getMode_of_underrun {c : Cause} {t : State} (h : s.mbLeft = 0) (hr : payRead 2 s = .raised c t) :
    getMode s = .raised c t := by
  rw [getMode, if_pos h, hr]; rfl

end

/-- The code at the high end of a full word is its top two bits. -/
theorem modeCode_seven_toNat (word : Half) : (modeCode word 7).toNat = word.toNat / 4 ^ 7 := by
  rw [modeCode_toNat]
  have := word.isLt
  exact Nat.mod_eq_of_lt (by simp; omega)

/-- Settles O7: the three branches of GetMode. -/
theorem getModeRule : Obligations.GetModeRule := by
  intro s
  refine ⟨fun hne _ => ?_, fun b0 b1 t hz hr => ?_, fun c t hz hr => getMode_of_underrun hz hr⟩
  · have hcount : (s.mbLeft - 1).toNat = s.mbLeft.toNat - 1 := by bv_omega
    exact ⟨_, _, getMode_of_left hne, rfl, hcount, modeCode_toNat ..⟩
  · exact ⟨_, _, getMode_of_refill hz hr, rfl, le16_toNat b0 b1, modeCode_seven_toNat _⟩

/-! ## The motion vector -/

theorem motionX_eq (b : Byte) (ax : BitVec 8) : motionX b ax = 8 - (b.toNat / 16 : Nat) - ax.toInt := by
  rw [motionX, highNibble_toNat]

theorem motionY_eq (b : Byte) (ay : BitVec 8) : motionY b ay = 8 - (b.toNat % 16 : Nat) - ay.toInt := by
  rw [motionY, lowNibble_toNat]

/-- A component of the motion vector: 8 less a nibble and a signed byte. -/
theorem motion_range {n : Nat} (hn : n < 16) (a : BitVec 8) : -134 ≤ 8 - (n : Int) - a.toInt ∧ 8 - (n : Int) - a.toInt ≤ 136 := by
  have hlo := a.le_toInt
  have hhi := a.toInt_lt
  omega

/-- Settles O38: both components are 8 less a nibble and a signed byte. -/
theorem motionVectorRule : Obligations.MotionVectorRule := by
  refine ⟨fun b ax ay => ?_, by decide, by decide⟩
  rw [motionX_eq, motionY_eq]
  have hx := motion_range (show b.toNat / 16 < 16 by omega) ax
  have hy := motion_range (show b.toNat % 16 < 16 by omega) ay
  exact ⟨rfl, rfl, hx.1, hx.2, hy.1, hy.2⟩

/-! ## A step that reads the stream header -/

section
variable {s : State}

theorem fetch_header (hc : s.ctl = .header) : fetch s = fetchHeader s := by
  simp only [fetch, hc]

/-- Where the bytes at `SPOS` are a stream header and the source serves the read, the fetch reads that header. -/
theorem fetchHeader_inside {i : Instr} {rest : List Byte} (hs : s.ServesNext 1)
    (hd : decodeStreamHeader s.params.hdrPad (s.src.drop s.spos) = .ok (i, rest)) :
    fetchHeader s = .run i { s with srcAns := s.srcAns.tail, spos := s.spos + (4 + s.params.hdrPad) } := by
  obtain ⟨signature, pad, framerate, rfl, hpad, hbytes⟩ := decodeStreamHeader_inv hd
  have hhdr : (bytes16 signature ++ pad ++ bytes16 framerate).length = 4 + s.params.hdrPad := by
    simp [bytes16, hpad]; omega
  have hlen := congrArg List.length hbytes
  rw [List.length_append, hhdr, List.length_drop] at hlen
  have hread : srcRead (4 + s.params.hdrPad) s = .ok (bytes16 signature ++ pad ++ bytes16 framerate)
      { s with srcAns := s.srcAns.tail, spos := s.spos + (4 + s.params.hdrPad) } := by
    rw [srcRead_serve (by omega) hs.head, if_pos (by omega), hbytes, List.take_left' hhdr]
  have hdec := decodeStreamHeader_encode signature framerate pad []
  rw [List.append_nil, hpad] at hdec
  rw [fetchHeader, hread]
  dsimp only
  rw [hdec]

/-- Where the header read comes short or fails, the fetch takes `IOError(OPEN_READ)`. -/
theorem fetchHeader_unread
    (h : (s.ServesNext 1 ∧ s.src.length < s.spos + (4 + s.params.hdrPad)) ∨ ∃ rest, s.srcAns = .fail :: rest) :
    ∃ u, Writes sourceWrites s u ∧ fetchHeader s = .settled (takeFault .openRead u) := by
  obtain ⟨hs, hlt⟩ | ⟨rest, hf⟩ := h
  · have e := (srcRead_serve (by omega) hs.head).trans (if_neg (Nat.not_le_of_lt hlt))
    exact ⟨_, srcRead_short_source e, by rw [fetchHeader, e]⟩
  · have e := srcRead_fail (n := 4 + s.params.hdrPad) (by omega) hf
    exact ⟨_, srcRead_fail_source e, by rw [fetchHeader, e]⟩

end

/-- Settles O9: the step is the dispatch of the header the fetch reads (`fetchHeader_inside`), or the fault it takes
(`fetchHeader_unread`). -/
theorem stepReadsTheStreamHeader : Obligations.StepReadsTheStreamHeader := by
  intro s hc
  refine ⟨fun i rest hs hd => step_run ((fetch_header hc).trans (fetchHeader_inside hs hd)), fun h => ?_⟩
  obtain ⟨u, hu, hf⟩ := fetchHeader_unread h
  refine ⟨_, step_settled ((fetch_header hc).trans hf), ?_, ?_⟩
  · rw [takeFault_results, hu.field State.results]
  · rw [hu]; rfl

/-! ## A step that reads a block mode -/

section
variable {s t u : State} {d : Depth} {code : BitVec 2}

theorem fetchMode_run {ops rest : List Byte} {i : Instr} (hg : getMode s = .ok code t)
    (hp : payRead (operandBytes d code) t = .ok ops u) (hd : decodeMode d code ops = .ok (i, rest)) :
    fetchMode d s = .run i u := by
  simp only [fetchMode, hg, Res.bind_ok, hp, hd]

theorem fetchMode_word_underrun {c : Cause} (hg : getMode s = .raised c t) : fetchMode d s = .settled (takeFault c t) := by
  simp only [fetchMode, hg, Res.bind_raised]

theorem fetchMode_operand_underrun {c : Cause} (hg : getMode s = .ok code t)
    (hp : payRead (operandBytes d code) t = .raised c u) : fetchMode d s = .settled (takeFault c u) := by
  simp only [fetchMode, hg, Res.bind_ok, hp, Res.bind_raised]

end

/-- Inside a pass the fetch is that of a block mode at the depth the pass stands at. -/
theorem fetch_pass {s : State} {d : Depth}
    (h : (d = .d8 ∧ ∃ p, s.ctl = .block p ∧ p.my < s.height.toNat / 16) ∨ (d = .d4 ∧ ∃ p q, s.ctl = .sub p q)) :
    fetch s = fetchMode d s := by
  obtain ⟨rfl, p, hc, hy⟩ | ⟨rfl, p, q, hc⟩ := h
  · simp only [fetch, hc, fetchBlock, if_pos hy]
  · simp only [fetch, hc]

/-- Settles O10: inside a pass a step fetches a block mode (`fetch_pass`), which has these three ends. -/
theorem stepRunsTheBlockModeSelected : Obligations.StepRunsTheBlockModeSelected := by
  intro s d h
  have hf := fetch_pass h
  exact ⟨fun _ _ _ _ _ hg hp hd => step_run (hf.trans (fetchMode_run hg hp hd)),
    fun _ _ hg => step_settled (hf.trans (fetchMode_word_underrun hg)),
    fun _ _ _ _ hg hp => step_settled (hf.trans (fetchMode_operand_underrun hg hp))⟩

end Sys2Proof.Machine
end

section
/-! PROOFS. INFO and CUSTOM (R174, R175). -/

namespace Sys2Proof.Machine

/-! ## INFO, by what stands in its way -/

section
variable {s : State} {arg : Half} {payload : List Byte}

theorem execInfo_known (h : s.dimValid = true) : execInfo arg payload s = .refused .secondInfo := if_pos h

theorem execInfo_short (h : s.dimValid = false) (hlen : payload.length < 4) :
    execInfo arg payload s = .next (takeFault (.payloadUnderrun 0x1001#16 0) (loadChunk 0x1001#16 arg payload s)) := by
  have hr : payRead 4 (loadChunk 0x1001#16 arg payload s) =
      .raised (.payloadUnderrun 0x1001#16 0) (loadChunk 0x1001#16 arg payload s) :=
    payRead_of_gt (show payload.length < 0 + 4 by omega)
  simp only [execInfo, h, hr, Bool.false_eq_true, if_false]

/-- With its four bytes there, INFO turns on whether they spell dimensions the spec defines. -/
theorem execInfo_read (arg : Half) (b0 b1 b2 b3 : Byte) (more : List Byte) (h : s.dimValid = false)
    (hlen : (b0 :: b1 :: b2 :: b3 :: more).length < 2 ^ 32) :
    execInfo arg (b0 :: b1 :: b2 :: b3 :: more) s =
      if legalDimension (le16 b0 b1) && legalDimension (le16 b2 b3) then
        .next (setDimensions (le16 b0 b1) (le16 b2 b3)
          { loadChunk 0x1001#16 arg (b0 :: b1 :: b2 :: b3 :: more) s with ppos := 4 })
      else .refused .illegalDimensions := by
  have hr : payRead 4 (loadChunk 0x1001#16 arg (b0 :: b1 :: b2 :: b3 :: more) s) =
      .ok [b0, b1, b2, b3] { loadChunk 0x1001#16 arg (b0 :: b1 :: b2 :: b3 :: more) s with ppos := 4 } :=
    payRead_of_le (loadChunk_payWhole _ arg hlen) (show 0 + 4 ≤ more.length + 4 by omega)
  simp only [execInfo, h, hr, Bool.false_eq_true, if_false]
  rfl

end

/-- Settles O23: `execInfo_read` with legal dimensions. -/
theorem infoSetsTheDimensions : Obligations.InfoSetsTheDimensions := by
  intro s arg b0 b1 b2 b3 more hd hlen hw hh
  have hx := execInfo_read arg b0 b1 b2 b3 more hd hlen
  rw [hw, hh] at hx
  refine ⟨_, hx, le16_toNat b0 b1, le16_toNat b2 b3, ?_, rfl, rfl, fun i a => ?_, rfl, rfl⟩
  · exact bne_iff_ne
  · show PixMem.read (if i = 0 then [] else []) a = 0
    rw [ite_self]
    rfl

/-- Settles O24: a second INFO is not read, a short one under-runs at its first byte, and `execInfo_read` refuses the rest. -/
theorem infoFaultsAndRefusals : Obligations.InfoFaultsAndRefusals := by
  intro s arg payload
  refine ⟨fun hd => execInfo_known hd, fun hd hlen => execInfo_short hd hlen, ?_⟩
  rintro b0 b1 b2 b3 more hd rfl hlen hillegal
  refine (execInfo_read arg b0 b1 b2 b3 more hd hlen).trans (if_neg ?_)
  obtain h | h := hillegal <;> simp [h]

/-- Settles O25: the record and the event are CUSTOM's whole effect beside the load. -/
theorem customHandsTheChunkOver : Obligations.CustomHandsTheChunkOver := fun _ _ _ _ => rfl

end Sys2Proof.Machine
end

section
/-! PROOFS. A step of `NEXT` whose chunk cannot be read: the end of the stream and the faults of the two reads (R101, R102, R176,
R195). -/

namespace Sys2Proof.Machine

section
variable {s u : State} {hd : ChunkHeader} {body : List Byte}

/-! ## The header read -/

theorem fetchChunk_header_short (h : srcRead 8 s = .short u) : fetchChunk s = .settled (endStream u) := by
  rw [fetchChunk, h]

theorem fetchChunk_header_fail (h : srcRead 8 s = .fail u) : fetchChunk s = .settled (takeFault .headerRead u) := by
  rw [fetchChunk, h]

/-! ## The payload read -/

/-- Where FetchChunk reads the payload: the header `hd` has been served and stands in the latches. -/
def headerRead (hd : ChunkHeader) (s : State) : State :=
  latchHeader hd.id hd.size hd.arg { s with srcAns := s.srcAns.tail, spos := s.spos + 8 }

/-- A chunk header whose read is served, and whose payload read is not, is the fault of the payload read. -/
theorem fetchChunk_payload_unread (hs : s.ServesNext 1) (hh : decodeChunkHeader (s.src.drop s.spos) = .ok (hd, body))
    (hp : srcRead hd.size.toNat (headerRead hd s) = .short u ∨ srcRead hd.size.toNat (headerRead hd s) = .fail u) :
    fetchChunk s = .settled (takeFault (.payloadRead hd.id hd.size) u) := by
  obtain ⟨h8, -, htake⟩ := decodeChunkHeader_inv hh
  rw [List.length_drop] at h8
  have hheader : srcRead 8 s = .ok ((s.src.drop s.spos).take 8) { s with srcAns := s.srcAns.tail, spos := s.spos + 8 } := by
    rw [srcRead_serve (by decide) hs.head, if_pos (by omega)]
  unfold headerRead at hp
  unfold fetchChunk
  rw [hheader]
  dsimp only
  rw [htake]
  obtain hp | hp := hp <;> (dsimp only; rw [hp])

/-- A payload of more bytes than the source has left comes short. -/
theorem srcRead_payload_short (hs : s.ServesNext 2) (hh : decodeChunkHeader (s.src.drop s.spos) = .ok (hd, body))
    (hlen : body.length < hd.size.toNat) : ∃ v, srcRead hd.size.toNat (headerRead hd s) = .short v := by
  obtain ⟨h8, rfl, -⟩ := decodeChunkHeader_inv hh
  simp only [List.length_drop] at h8 hlen
  have hserve : (headerRead hd s).ServesNext 1 := hs.tail rfl
  have hcut : ¬ s.spos + 8 + hd.size.toNat ≤ s.src.length := by omega
  exact ⟨_, (srcRead_serve (by omega) hserve.head).trans (if_neg hcut)⟩

end

/-- Settles O12: the header read comes short or fails (`fetchChunk_header_short`, `fetchChunk_header_fail`), or the payload read does
(`fetchChunk_payload_unread`); what a read leaves unchanged is `srcRead_short`. -/
theorem fetchEndsOrFaults : Obligations.FetchEndsOrFaults := by
  intro s hc
  have hsettled {t : State} (h : fetchChunk s = .settled t) : step s = .next t := step_settled (fetch_settled hc h)
  refine ⟨fun hs hlt => ?_, fun hd body hs hh hlen => ?_, fun hd body rest ha hh hsize => ?_, fun rest ha => ?_⟩
  · have hread := (srcRead_serve (by decide) hs.head).trans (if_neg (Nat.not_le_of_lt hlt))
    exact ⟨_, hsettled (fetchChunk_header_short hread), rfl, rfl, rfl⟩
  · obtain ⟨v, hread⟩ := srcRead_payload_short hs hh hlen
    have hone : s.ServesNext 1 := fun a ha => hs a (List.take_subset_take_left _ (by decide) ha)
    refine ⟨_, hsettled (fetchChunk_payload_unread hone hh (.inl hread)), rfl, rfl, rfl, ?_, ?_⟩ <;>
      rw [srcRead_short hread] <;> rfl
  · have hone : s.ServesNext 1 := by simp [State.ServesNext, ha]
    have htail : (headerRead hd s).srcAns = .fail :: rest := congrArg List.tail ha
    have hpos : 0 < hd.size.toNat := Nat.pos_of_ne_zero fun h0 => hsize (BitVec.toNat_eq.mpr h0)
    exact ⟨_, hsettled (fetchChunk_payload_unread hone hh (.inr (srcRead_fail hpos htail))), rfl, rfl⟩
  · exact ⟨_, hsettled (fetchChunk_header_fail (srcRead_fail (by decide) ha)), rfl, rfl⟩

end Sys2Proof.Machine
end

section
/-! PROOFS. The colourspace converter (R110 to R115): the two layouts as numbers, alpha in them, and grey of `CSC_DEFAULT`. -/

namespace Sys2Proof.Machine

/-! ## The two layouts -/

/-- Appended bit vectors as numbers: the left part stands above the right one. -/
theorem toNat_append_add {m n : Nat} (x : BitVec m) (y : BitVec n) : (x ++ y).toNat = x.toNat * 2 ^ n + y.toNat := by
  rw [BitVec.toNat_append, ← Nat.shiftLeft_add_eq_or_of_lt y.isLt, Nat.shiftLeft_eq]

theorem packBgr565_toNat (r g b : Byte) :
    (packBgr565 r g b).toNat = r.toNat / 8 * 2 ^ 11 + g.toNat / 4 * 2 ^ 5 + b.toNat / 8 := by
  simp only [packBgr565, toNat_append_add, BitVec.extractLsb'_toNat, Nat.shiftRight_eq_div_pow, BitVec.toNat_ofNat]
  omega

theorem packRgba8888_toNat (r g b a : Byte) :
    (packRgba8888 r g b a).toNat = a.toNat * 2 ^ 24 + b.toNat * 2 ^ 16 + g.toNat * 2 ^ 8 + r.toNat := by
  simp only [packRgba8888, toNat_append_add]
  omega

/-! ## Alpha -/

/-- Bits 31:24 of an `RGBA8888` pixel are alpha. -/
theorem packRgba8888_div (r g b a : Byte) : (packRgba8888 r g b a).toNat / 2 ^ 24 = a.toNat := by
  rw [packRgba8888_toNat]
  omega

/-- Bits 23:0 of an `RGBA8888` pixel are the colours. -/
theorem packRgba8888_mod (r g b a : Byte) :
    (packRgba8888 r g b a).toNat % 2 ^ 24 = b.toNat * 2 ^ 16 + g.toNat * 2 ^ 8 + r.toNat := by
  rw [packRgba8888_toNat]
  omega

/-- Under a `CSC` of the form R115 requires, `RGBA8888` keeps alpha above colours that do not depend on it. -/
theorem pix_rgba8888_alpha {p : Params} (h : PassesAlpha p.csc) (hf : p.pixFmt = .rgba8888) (y cb cr a a' : Byte) :
    (pix p y cb cr a).toNat / 2 ^ 24 = a.toNat ∧
    (pix p y cb cr a).toNat % 2 ^ 24 = (pix p y cb cr a').toNat % 2 ^ 24 := by
  obtain ⟨rgb, hrgb⟩ := h
  rw [pix, pix, hf, hrgb, hrgb]
  exact ⟨packRgba8888_div .., (packRgba8888_mod ..).trans (packRgba8888_mod ..).symm⟩

/-- Under a `CSC` of the form R115 requires, `BGR565` drops alpha. -/
theorem pix_bgr565_alpha {p : Params} (h : PassesAlpha p.csc) (hf : p.pixFmt = .bgr565) (y cb cr a a' : Byte) :
    pix p y cb cr a = pix p y cb cr a' := by
  obtain ⟨rgb, hrgb⟩ := h
  rw [pix, pix, hf, hrgb, hrgb]
  rfl

theorem pix_bgr565_lt {p : Params} (hf : p.pixFmt = .bgr565) (y cb cr a : Byte) : (pix p y cb cr a).toNat < 2 ^ 16 := by
  have h := pixelFits_pix p y cb cr a
  rwa [hf] at h

/-- Settles O50: alpha by format (`pix_rgba8888_alpha`, `pix_bgr565_alpha`), and the layouts as numbers. -/
theorem alphaPassesThrough : Obligations.AlphaPassesThrough :=
  ⟨cscDefault_passesAlpha,
    fun _ y cb cr a a' h =>
      ⟨fun hf => pix_rgba8888_alpha h hf y cb cr a a', fun hf => pix_bgr565_alpha h hf y cb cr a a'⟩,
    fun r g b a => ⟨packBgr565_toNat r g b, packRgba8888_toNat r g b a⟩,
    fun _ _ _ _ _ => rfl,
    fun _ y cb cr a hf => pix_bgr565_lt hf y cb cr a⟩

/-! ## Grey -/

/-- `clamp8` leaves a byte as it is. -/
theorem clamp8_toNat (y : Byte) : clamp8 y.toNat = y := by
  rw [clamp8, if_neg (by omega), if_neg (by omega), BitVec.ofInt_natCast, BitVec.ofNat_toNat, BitVec.setWidth_eq]

/-- With neutral chroma all three chroma terms are zero, and each colour is the clamped luma. -/
theorem cscDefaultRgb_neutral (y : Byte) :
    cscDefaultRgb y 128#8 128#8 = (clamp8 y.toNat, clamp8 y.toNat, clamp8 y.toNat) := by
  simp [cscDefaultRgb]

/-- Settles O51: neutral chroma leaves the luma (`cscDefaultRgb_neutral`), a byte that the clamp keeps; the colour is evaluated. -/
theorem neutralChromaIsGrey : Obligations.NeutralChromaIsGrey := by
  refine ⟨fun y => ?_, by decide⟩
  rw [cscDefaultRgb_neutral, clamp8_toNat]

end Sys2Proof.Machine
end

section
/-! PROOFS. CODEBOOK where the payload suffices (R120 to R124, R126), its counts as numbers (R121), and the solid 4×4 cell
(R127). -/

namespace Sys2Proof.Machine

/-! ## The completed command -/

/-- Both loops, where the payload holds the bytes the counts need. -/
theorem codebook_loops {s : State} (hw : s.PayWhole) (h0 : s.ppos = 0) {n2 n4 : Nat}
    (h : n2 * bytesPerCell2 s.hasAlpha + 4 * n4 ≤ s.pay.length) :
    let bpc := bytesPerCell2 s.hasAlpha
    ∃ m2 m4, ((forFrom unpack2 n2 0 s).bind fun _ t => forFrom assemble4 n4 0 t) =
        .ok () { s with cb2 := m2, cb4 := m4, ppos := n2 * bpc + 4 * n4 } ∧
      s.cb2.Rebuilt 2 n2 (fun i => s.recordCell (i * bpc)) m2 ∧
      s.cb4.Rebuilt 4 n4 (fun i => State.indexedCell { s with cb2 := m2 } (n2 * bpc + 4 * i)) m4 := by
  intro bpc
  obtain ⟨m2, hloop2, hm2⟩ := unpack2_loop hw h0 (Nat.le_of_add_right_le h)
  obtain ⟨m4, hloop4, hm4⟩ := assemble4_loop (s := { s with cb2 := m2, ppos := n2 * bpc }) hw h
  exact ⟨m2, m4, by rw [hloop2, Res.bind_ok, hloop4], hm2, hm4⟩

/-- Settles O27: both loops run to their ends (`codebook_loops`), and `NEXT` goes on to the next chunk. -/
theorem codebookRebuildsThePrefix : Obligations.CodebookRebuildsThePrefix := by
  intro s arg payload hlen n2 bpc n4 hfit
  obtain ⟨m2, m4, hloops, hm2, hm4⟩ := codebook_loops (s := loadChunk 0x1002#16 arg payload s) (n2 := n2) (n4 := n4)
    (loadChunk_payWhole _ _ hlen) rfl hfit
  obtain ⟨hcells2, hrest2⟩ := hm2.read_records
  obtain ⟨hcells4, hrest4⟩ := hm4.read_quads
  have hexec : exec (.codebook arg payload) s = .next { loadChunk 0x1002#16 arg payload s with
      cb2 := m2, cb4 := m4, ppos := n2 * bpc + 4 * n4, ctl := .fetch } := by
    rw [exec_codebook_eq, hloops, Res.settle_ok]
    rfl
  exact ⟨_, hexec, hcells2, hrest2, hcells4, hrest4, rfl⟩

/-! ## The solid cell -/

/-- A 4×4 square is solid where each of its quadrants names one and the same solid 2×2 cell. -/
theorem State.quadCells_of_solid {s : State} {j : Byte} {colour : Pixel} {ix : Nat → Byte} (hix : ∀ q, q < 4 → ix q = j)
    (hj : ∀ k, k < 4 → s.cb2.read (4 * j.toNat + k) = colour) {r c : Nat} (hr : r < 4) (hc : c < 4) :
    s.quadCells ix r c = colour := by
  have hquad : r / 2 * 2 + c / 2 < 4 := by omega
  rw [State.quadCells, State.cell2, hix _ hquad,
    show (2 * j.toNat + r % 2) * 2 + c % 2 = 4 * j.toNat + (r % 2 * 2 + c % 2) by omega]
  exact hj _ (by omega)

/-- Settles O29: element `k` of the cell is row `k / 4`, column `k % 4` of a square whose quadrants all name the solid cell `j`. -/
theorem solidCellAssemblesSolid : Obligations.SolidCellAssemblesSolid := by
  intro s t i j colour hj hread
  have hix : ∀ q, q < 4 → [j, j, j, j].getD q 0#8 = j := fun q hq => by
    rw [List.getD_eq_getElem _ _ hq]
    exact List.eq_of_mem_replicate (n := 4) (List.getElem_mem hq)
  refine ⟨_, by rw [assemble4, hread, Res.bind_ok], fun k hk => ?_⟩
  have hrow : k / 4 < 4 := by omega
  have hcol : k % 4 < 4 := by omega
  have hdrawn := t.cb4.read_blit_inside (4 * i) (s.quadCells fun q => [j, j, j, j].getD q 0#8) (Nat.zero_add 4).le hcol hrow
  rw [show (4 * i + k / 4) * 4 + (0 + k % 4) = 16 * i + k by omega] at hdrawn
  exact hdrawn.trans (State.quadCells_of_solid hix hj hrow hcol)

/-! ## The counts -/

theorem count2_eq (arg : Half) : count2 arg = if arg.toNat / 256 = 0 then 256 else arg.toNat / 256 := by
  simp only [count2, highByte_eq_zero, highByte_toNat]

theorem count4_eq (arg : Half) (size : Word) (hasAlpha : Bool) : count4 arg size hasAlpha =
    if arg.toNat % 256 ≠ 0 then arg.toNat % 256
    else if size.toNat > count2 arg * bytesPerCell2 hasAlpha then 256 else 0 := by
  simp only [count4, ne_eq, lowByte_eq_zero, lowByte_toNat]

theorem count2_pos (arg : Half) : 1 ≤ count2 arg := by
  rw [count2_eq]
  split <;> omega

/-- A CODEBOOK updates no 4×4 cell exactly where its low byte is 0 and its 2×2 cells take all of its bytes (R121). -/
theorem count4_eq_zero (arg : Half) (size : Word) (hasAlpha : Bool) : count4 arg size hasAlpha = 0 ↔
    arg.toNat % 256 = 0 ∧ size.toNat ≤ count2 arg * bytesPerCell2 hasAlpha := by
  rw [count4_eq]
  by_cases hlow : arg.toNat % 256 = 0
  · rw [if_neg (not_not.2 hlow)]
    split <;> omega
  · rw [if_pos hlow]
    exact ⟨fun h => absurd h hlow, fun h => absurd h.1 hlow⟩

/-- Settles O26: the two bytes of the argument as numbers (`count2_eq`, `count4_eq`), and what follows from them. -/
theorem codebookCounts : Obligations.CodebookCounts := fun arg size hasAlpha =>
  ⟨count2_eq arg, rfl, count4_eq arg size hasAlpha, count2_pos arg, count4_eq_zero arg size hasAlpha⟩

end Sys2Proof.Machine
end

section
/-! PROOFS. The start of a FRAME pass (R130, R131, R133 to R135) and the eight block modes at a block inside the frame (R139 to R147). -/

namespace Sys2Proof.Machine

/-! ## The start of a pass -/

section
variable {s : State} (arg : Half) (payload : List Byte)

theorem exec_frame_known (h : s.dimValid = true) :
    exec (.frame arg payload) s = .next (beginPass (loadChunk 0x1011#16 arg payload s)) := if_pos h

theorem exec_frame_unknown (h : s.dimValid = false) :
    exec (.frame arg payload) s = .next (takeFault .frameBeforeInfo (loadChunk 0x1011#16 arg payload s)) :=
  if_neg (ne_true_of_eq_false h)

end

/-- In frame 1 the current buffer is `FB[1]` and the previous one `FB[0]` (R132). -/
theorem frameOneCopy_one {s : State} (h : s.frameCnt = 1) :
    frameOneCopy s = { s with fb1 := PixMem.copyFirst s.fbLen s.fb0 s.fb1 } := by
  have hcur : s.cur = 1 := by rw [State.cur, h]; rfl
  have hprev : s.prev = 0 := by rw [State.prev, hcur]; rfl
  rw [frameOneCopy, if_pos h, hcur, hprev]
  rfl

theorem frameOneCopy_other {s : State} (h : s.frameCnt ≠ 1) : frameOneCopy s = s := if_neg h

theorem frameOneCopy_fb0 (s : State) : (frameOneCopy s).fb0 = s.fb0 := by
  by_cases h : s.frameCnt = 1
  · rw [frameOneCopy_one h]
  · rw [frameOneCopy_other h]

theorem frameOneCopy_fb1_read (s : State) (a : Nat) :
    (frameOneCopy s).fb1.read a = if s.frameCnt = 1 ∧ a < s.fbLen then s.fb0.read a else s.fb1.read a := by
  by_cases h : s.frameCnt = 1
  · rw [frameOneCopy_one h, PixMem.read_copyFirst]
    simp only [h, true_and]
  · rw [frameOneCopy_other h, if_neg fun hc => h hc.1]

/-- What the start of a pass leaves: the frame-1 copy in the frame buffers, and the registers it sets (R130, R134, R135). -/
theorem beginPass_eq (s : State) : beginPass s =
    { s with fb0 := (frameOneCopy s).fb0, fb1 := (frameOneCopy s).fb1, argX := baseX s.chArg, argY := baseY s.chArg,
             mbWord := 0, mbLeft := 0, ctl := .block ⟨0, 0, 0⟩ } := by
  by_cases h : s.frameCnt = 1
  · rw [beginPass, frameOneCopy_one h]
  · rw [beginPass, frameOneCopy_other h]

/-- Settles O30: `beginPass_eq`, with the copy read element by element (`frameOneCopy_fb0`, `frameOneCopy_fb1_read`). -/
theorem frameBeginsAPass : Obligations.FrameBeginsAPass := by
  intro s arg payload hd
  have hlen : (loadChunk 0x1011#16 arg payload s).fbLen = s.width.toNat * s.height.toNat := if_pos hd
  refine ⟨_, exec_frame_known arg payload hd, ?_⟩
  rw [beginPass_eq]
  refine ⟨highByte_toNat arg, lowByte_toNat arg, fun a => ?_, fun a => ?_, rfl⟩
  · exact congrArg (PixMem.read · a) (frameOneCopy_fb0 _)
  · rw [frameOneCopy_fb1_read, hlen]
    rfl

/-- Settles O31: `exec_frame_unknown`. -/
theorem frameBeforeInfoFaults : Obligations.FrameBeforeInfoFaults := fun _ arg payload hd =>
  exec_frame_unknown arg payload hd

/-- Settles O39: both bytes of the argument as numbers, read as signed; the examples are evaluated. -/
theorem baseOffsetRule : Obligations.BaseOffsetRule := by
  refine ⟨fun arg => ⟨?_, ?_⟩, by decide⟩
  · rw [baseX, BitVec.toInt_eq_toNat_bmod, highByte_toNat]
    rfl
  · rw [baseY, BitVec.toInt_eq_toNat_bmod, lowByte_toNat]
    rfl

/-! ## The block modes that draw nothing -/

section
variable {s : State} {p : BlockPos}

theorem exec_mot8_inside (hc : s.ctl = .block p) (hx : p.x + 8 ≤ s.width.toNat) (hy : p.y + 8 ≤ s.height.toNat) :
    exec .mot8 s = .next { s with ctl := afterBlock s p } :=
  atBlock8_inside (afterBlock s) (fun _ _ s => s) hc hx hy

theorem exec_ccc8_inside (hc : s.ctl = .block p) (hx : p.x + 8 ≤ s.width.toNat) (hy : p.y + 8 ≤ s.height.toNat) :
    exec .ccc8 s = .next { s with ctl := .sub p 0 } :=
  atBlock8_inside (fun p => .sub p 0) (fun _ _ s => s) hc hx hy

theorem exec_mot4_inside {q : Fin 4} (hc : s.ctl = .sub p q) (hx : p.subX q + 4 ≤ s.width.toNat)
    (hy : p.subY q + 4 ≤ s.height.toNat) : exec .mot4 s = .next { s with ctl := afterSub s p q } :=
  atBlock4_inside (fun _ _ s => s) hc hx hy

end

/-- Settles O32: at a block inside the frame these three move the control point only. -/
theorem motAndCcc8OnlyMoveThePass : Obligations.MotAndCcc8OnlyMoveThePass := fun _ _ _ =>
  ⟨fun hc hx hy => ⟨exec_mot8_inside hc hx hy, exec_ccc8_inside hc hx hy⟩, fun hc hx hy => exec_mot4_inside hc hx hy⟩

/-! ## The block modes that draw cells -/

/-- Element (row `r`, column `c`) of a 4×4 cell is element `4·r + c` of its sixteen (R30, R56). -/
theorem State.cell4_eq (s : State) (i : Byte) (r c : Nat) : s.cell4 i r c = s.cb4.read (16 * i.toNat + (r * 4 + c)) := by
  rw [State.cell4, show (4 * i.toNat + r) * 4 + c = 16 * i.toNat + (r * 4 + c) by omega]

/-- Element (row `r`, column `c`) of a 2×2 cell is element `2·r + c` of its four (R29, R56). -/
theorem State.cell2_eq (s : State) (i : Byte) (r c : Nat) : s.cell2 i r c = s.cb2.read (4 * i.toNat + (r * 2 + c)) := by
  rw [State.cell2, show (2 * i.toNat + r) * 2 + c = 4 * i.toNat + (r * 2 + c) by omega]

theorem indexOf_eq (i0 i1 i2 i3 : Byte) {q : Nat} (hq : q < 4) : indexOf i0 i1 i2 i3 q = [i0, i1, i2, i3].getD q 0#8 := by
  interval_cases q <;> rfl

/-- Settles O33: what `exec_sdl8_inside` draws. -/
theorem sdl8UpsamplesTheCell : Obligations.Sdl8UpsamplesTheCell := fun s p c hc hx hy =>
  ⟨_, exec_sdl8_inside c hc hx hy, drawBlock_draws s p.y _ _ _ hx fun j i _ _ => s.cell4_eq c (j / 2) (i / 2)⟩

/-- Settles O34: what `exec_sdl4_inside` draws. -/
theorem sdl4CopiesTheCell : Obligations.Sdl4CopiesTheCell := fun s p q c hc hx hy =>
  ⟨_, exec_sdl4_inside c hc hx hy, drawBlock_draws s (p.subY q) _ _ _ hx fun j i _ _ => s.cell4_eq c j i⟩

/-- Settles O35: what `exec_ccc4_inside` draws, the four index bytes as a list. -/
theorem ccc4AssemblesFourCells : Obligations.Ccc4AssemblesFourCells := by
  intro s p q i0 i1 i2 i3 hc hx hy
  refine ⟨_, exec_ccc4_inside i0 i1 i2 i3 hc hx hy, drawBlock_draws s (p.subY q) _ _ _ hx fun j i hi hj => ?_⟩
  rw [State.quadCells, State.cell2_eq, indexOf_eq i0 i1 i2 i3 (show j / 2 * 2 + i / 2 < 4 by omega)]

/-! ## The block modes that move a block -/

section
variable {s : State} {n px py : Nat} {b : Byte} (c : Ctl)

/-- In bounds, MotionCopy with the move of the pass draws the displaced block of the previous buffer. -/
theorem motionCopy_draws {sx sy : Nat} (hx : px + n ≤ s.width.toNat)
    (hsx : (sx : Int) = px + (8 - (b.toNat / 16 : Nat) - s.argX.toInt))
    (hsy : (sy : Int) = py + (8 - (b.toNat % 16 : Nat) - s.argY.toInt))
    (hw : sx + n ≤ s.width.toNat) (hh : sy + n ≤ s.height.toNat) :
    DrawsBlock s { motionCopy n b px py s with ctl := c } px py n
      (fun j i => (s.fb s.prev).read ((sy + j) * s.width.toNat + (sx + i))) c := by
  rw [motionCopy_inside hsx hsy hw hh]
  exact drawBlock_draws s py _ _ c hx fun _ _ _ _ => rfl

/-- Out of bounds, MotionCopy with the move of the pass appends one record. -/
theorem motionCopy_logs {dx dy : Int} (hdx : dx = 8 - (b.toNat / 16 : Nat) - s.argX.toInt)
    (hdy : dy = 8 - (b.toNat % 16 : Nat) - s.argY.toInt)
    (hout : ¬(0 ≤ px + dx ∧ px + dx ≤ (s.width.toNat : Int) - n ∧ 0 ≤ py + dy ∧ py + dy ≤ (s.height.toNat : Int) - n)) :
    { motionCopy n b px py s with ctl := c } = { s with log := s.log ++ [.oobMotion n px py dx dy], ctl := c } := by
  rw [motionCopy_outside hdx hdy hout]
  rfl

end

/-- Settles O36: FCC is MotionCopy at its block, in bounds (`motionCopy_draws`). -/
theorem fccCopiesFromThePreviousBuffer : Obligations.FccCopiesFromThePreviousBuffer := fun _ _ _ b _ _ =>
  ⟨fun hc hx hy hsx hsy hw hh => ⟨_, exec_fcc8_inside b hc hx hy, motionCopy_draws _ hx hsx hsy hw hh⟩,
    fun hc hx hy hsx hsy hw hh => ⟨_, exec_fcc4_inside b hc hx hy, motionCopy_draws _ hx hsx hsy hw hh⟩⟩

/-- Settles O37: FCC is MotionCopy at its block, out of bounds (`motionCopy_logs`). -/
theorem fccOutOfBoundsIsLogged : Obligations.FccOutOfBoundsIsLogged := by
  intro s p q b dx dy
  exact ⟨fun hc hx hy hout => (exec_fcc8_inside b hc hx hy).trans (congrArg _ (motionCopy_logs _ rfl rfl hout)),
    fun hc hx hy hout => (exec_fcc4_inside b hc hx hy).trans (congrArg _ (motionCopy_logs _ rfl rfl hout))⟩

end Sys2Proof.Machine
end

section
/-! PROOFS. The end of a FRAME pass (R148): the one step that hands over a `Video` event, and the one that advances `FRAME_CNT`. -/

namespace Sys2Proof.Machine

/-! ## The end of a pass changes the roles of the buffers -/

theorem State.cur_of_frameCnt_succ {s t : State} (h : t.frameCnt = s.frameCnt + 1) : t.cur = s.prev := by
  rcases Nat.mod_two_eq_zero_or_one s.frameCnt with h0 | h1
  · rw [State.cur, State.prev, State.cur, h0, if_neg (by omega)]
    rfl
  · rw [State.cur, State.prev, State.cur, h1, if_pos (by omega)]
    rfl

theorem State.prev_of_frameCnt_succ {s t : State} (h : t.frameCnt = s.frameCnt + 1) : t.prev = s.cur := by
  have hroles := State.cur_of_frameCnt_succ h
  rw [State.prev, hroles, State.prev]
  generalize s.cur = i
  fin_cases i <;> rfl

theorem step_endPass {s : State} {p : BlockPos} (hc : s.ctl = .block p) (hend : ¬ p.my < s.height.toNat / 16) :
    step s = .next (endPass s) := by
  refine step_settled ?_
  simp only [fetch, hc, fetchBlock, if_neg hend]

/-! ## What counts passes -/

/-- A `Video` event (R179). -/
def Result.isVideo : Result → Bool
  | .event (.video _ _) => true
  | _                   => false

/-- The `Video` events handed over so far. -/
def State.videos (s : State) : List Result := s.results.filter Result.isVideo

/-- `FRAME_CNT` and the `Video` events handed over so far. -/
def State.passes (s : State) : Nat × List Result := (s.frameCnt, s.videos)

section
variable {s t : State}

theorem State.passes_append {r : Result} (hr : r.isVideo = false) (hf : t.frameCnt = s.frameCnt := by rfl)
    (h : t.results = s.results ++ [r] := by rfl) : t.passes = s.passes := by
  have hnone : [r].filter Result.isVideo = [] := by simp [hr]
  rw [State.passes, State.videos, hf, h, List.filter_append, hnone, List.append_nil]
  rfl

/-- Where no `Video` event has been added, none has been handed over. -/
theorem State.results_ne_video (h : t.videos = s.videos) (buffer : Fin 2) (pixels : PixMem) :
    t.results ≠ s.results ++ [.event (.video buffer pixels)] := by
  intro hr
  have hv : t.videos = s.videos ++ [.event (.video buffer pixels)] := by
    rw [State.videos, hr, List.filter_append]
    rfl
  have hlen := congrArg List.length (hv.symm.trans h)
  rw [List.length_append, List.length_singleton] at hlen
  omega

theorem takeFault_passes (c : Cause) (s : State) : (takeFault c s).passes = s.passes :=
  State.passes_append (r := .fault c) rfl

theorem endStream_passes (s : State) : (endStream s).passes = s.passes :=
  State.passes_append (r := .event .endOfFile) rfl

theorem endSound_passes (s : State) : (endSound s).passes = s.passes :=
  State.passes_append (r := .event (.audio s.audCh (s.audBuf.take s.audLen))) rfl

theorem frameOneCopy_passes (s : State) : (frameOneCopy s).passes = s.passes :=
  (frameOneCopy_writes s).field State.passes

/-! ## The commands -/

/-- No command changes `FRAME_CNT`, but for DROP, or hands over a `Video` event. -/
theorem exec_passes {i : Instr} (h : exec i s = .next t) (hd : i ≠ .hostDrop) : t.passes = s.passes := by
  cases i with
  | sig signature pad framerate =>
    obtain rfl | ⟨c, rfl⟩ := execSig_next (pad := pad) h
    · exact State.passes_append (r := .opened) rfl
    · exact takeFault_passes c s
  | info arg payload =>
    obtain ⟨k, u, rfl, ⟨width, height, rfl⟩ | ⟨c, rfl⟩⟩ := execInfo_next h
    · exact State.passes_append (r := .event (.initVideo width height _)) rfl
    · exact takeFault_passes c _
  | codebook arg payload =>
    obtain ⟨u, hu, rfl | ⟨c, rfl⟩⟩ := execCodebook_next h
    · exact hu.field State.passes
    · exact (takeFault_passes c u).trans (hu.field State.passes)
  | frame arg payload =>
    obtain rfl | ⟨c, rfl⟩ := execFrame_next h
    · exact frameOneCopy_passes (loadChunk 0x1011#16 arg payload s)
    · exact takeFault_passes c _
  | sndMono arg payload =>
    obtain ⟨n, l, r, u, hu, rfl | ⟨c, rfl⟩⟩ := execSndMono_next h
    · exact (endSound_passes u).trans (hu.field State.passes)
    · exact (takeFault_passes c u).trans (hu.field State.passes)
  | sndStereo arg payload =>
    obtain ⟨n, l, r, u, hu, rfl | ⟨c, rfl⟩⟩ := execSndStereo_next h
    · exact (endSound_passes u).trans (hu.field State.passes)
    · exact (takeFault_passes c u).trans (hu.field State.passes)
  | custom id arg payload =>
    cases h
    exact State.passes_append (r := .event (.custom _ _ _)) rfl
  | hostOpen source => rw [execHostOpen_next h]; rfl
  | hostNext => rw [execHostNext_next h]; rfl
  | hostDrop => exact absurd rfl hd
  | _ => exact (exec_block_writes rfl h).field State.passes

/-! ## The fetches -/

theorem endPass_ne_takeFault (s u : State) (c : Cause) : endPass s ≠ takeFault c u := fun h => by
  simpa [endPass] using congrArg (fun t => t.results.getLast?) h

theorem endPass_ne_endStream (s u : State) : endPass s ≠ endStream u := fun h => by
  simpa [endPass, endStream] using congrArg (fun t => t.results.getLast?) h

theorem fetchHeader_settled (h : fetchHeader s = .settled t) : ∃ c u, t = takeFault c u := by
  unfold fetchHeader at h
  split at h
  · cases h
  · cases h; exact ⟨_, _, rfl⟩
  · cases h; exact ⟨_, _, rfl⟩
  · split at h <;> cases h
    exact ⟨_, _, rfl⟩

theorem fetchMode_settled {d : Depth} (h : fetchMode d s = .settled t) : ∃ c u, t = takeFault c u := by
  unfold fetchMode at h
  split at h
  · cases h; exact ⟨_, _, rfl⟩
  · split at h <;> cases h
    exact ⟨_, _, rfl⟩

theorem fetchHost_settled (h : fetchHost s = .settled t) : t = s := by
  unfold fetchHost at h
  split at h <;> cases h
  rfl

/-- Where a pass does not end, the fetch that is over at once is idle, the end of the stream, or a fault. -/
theorem fetch_ne_endPass (hend : ∀ p, s.ctl = .block p → p.my < s.height.toNat / 16) :
    fetch s ≠ .settled (endPass s) := by
  intro h
  have hidle : endPass s ≠ s := fun e => absurd (congrArg State.frameCnt e) (Nat.succ_ne_self _)
  have hfault (hf : ∃ c u, endPass s = takeFault c u) : False := by
    obtain ⟨c, u, e⟩ := hf
    exact endPass_ne_takeFault s u c e
  unfold fetch at h
  split at h
  · exact hidle (fetchHost_settled h)
  · exact hidle (fetchHost_settled h)
  · exact hfault (fetchHeader_settled h)
  · obtain ⟨u, -, e⟩ | ⟨c, u, -, e⟩ := fetchChunk_settled (fetchNext_settled h)
    · exact endPass_ne_endStream s u e
    · exact endPass_ne_takeFault s u c e
  · next p hc =>
    rw [fetchBlock, if_pos (hend p hc)] at h
    exact hfault (fetchMode_settled h)
  · exact hfault (fetchMode_settled h)

theorem fetch_settled_passes (hend : ∀ p, s.ctl = .block p → p.my < s.height.toNat / 16)
    (h : fetch s = .settled t) : t.passes = s.passes := by
  have hf := fetch_frame s
  rw [h] at hf
  obtain rfl | rfl | ⟨u, hu, rfl | ⟨c, rfl⟩⟩ := hf
  · rfl
  · exact absurd h (fetch_ne_endPass hend)
  · exact (endStream_passes u).trans (hu.field State.passes)
  · exact (takeFault_passes c u).trans (hu.field State.passes)

end

/-- Settles O41: the step past the last row is `endPass`; before it neither the fetch (`fetch_settled_passes`) nor the command it runs
(`exec_passes`) counts a pass, and DROP hands over nothing. -/
theorem passEndsWithVideo : Obligations.PassEndsWithVideo := by
  refine ⟨fun s p hc hend => ⟨_, step_endPass hc hend, rfl, State.cur_of_frameCnt_succ rfl, State.prev_of_frameCnt_succ rfl⟩,
    fun s t hend h => ?_⟩
  have hpasses (hp : t.passes = s.passes) : (t.ctl ≠ .dropped → t.frameCnt = s.frameCnt) ∧
      ∀ buffer pixels, t.results ≠ s.results ++ [.event (.video buffer pixels)] :=
    ⟨fun _ => congrArg Prod.fst hp, State.results_ne_video (congrArg Prod.snd hp)⟩
  obtain ⟨i, u, hr, hx⟩ | hs := step_next h
  · have hf := fetch_frame s
    rw [hr] at hf
    have hu : u.passes = s.passes := Writes.field State.passes hf
    by_cases hd : i = .hostDrop
    · subst hd
      rw [execHostDrop_next hx]
      exact ⟨fun hlive => absurd rfl hlive, State.results_ne_video (congrArg Prod.snd hu)⟩
    · exact hpasses ((exec_passes hx hd).trans hu)
  · exact hpasses (fetch_settled_passes hend hs)

end Sys2Proof.Machine
end

section
/-! PROOFS. A 16×16 frame whose four blocks use SDL naming one solid cell (R137, R141, R153). -/

namespace Sys2Proof.Machine

/-- A pass over a frame of one macroblock begins: the payload names cell `c` for each of the four blocks, the cell is solid, and no
mode code has been read. -/
structure SolidPass (unused c : Byte) (more : List Byte) (colour : Pixel) (s : State) : Prop where
  width  : s.width = 16
  height : s.height = 16
  pay    : s.pay = unused :: 0xAA#8 :: c :: c :: c :: c :: more
  whole  : s.PayWhole
  cell   : ∀ k, k < 16 → s.cb4.read (16 * c.toNat + k) = colour
  start  : s.ctl = .block ⟨0, 0, 0⟩ ∧ s.mbLeft = 0 ∧ s.ppos = 0

/-- Where block `k` of the macroblock stands, and the end of the pass after it (R130, R137). -/
def oneMacroblock (k : Nat) : BlockPos := ⟨k / 4, 0, Fin.ofNat 4 k⟩

/-- The mode cursor and `PPOS` before block `k`: the word holds eight codes and is read with the first (R135, R136). -/
def CursorAt (word : Half) (k : Nat) (t : State) : Prop :=
  (k = 0 ∧ t.mbLeft = 0 ∧ t.ppos = 0) ∨ (0 < k ∧ t.mbWord = word ∧ t.mbLeft.toNat = 8 - k ∧ t.ppos = k + 2)

/-- What the blocks of the pass write. -/
def passWrites (s t : State) : State :=
  { s with fb0 := t.fb0, fb1 := t.fb1, ppos := t.ppos, mbWord := t.mbWord, mbLeft := t.mbLeft, ctl := t.ctl }

/-- The block of the macroblock that element `a` of a buffer 16 pixels wide lies in. -/
def blockOfElement (a : Nat) : Nat := a / 128 * 2 + a % 16 / 8

/-- Of the pass that began at `s`, the first `k` blocks are done, and their pixels have the colour. -/
structure SolidUpTo (unused : Byte) (colour : Pixel) (s : State) (k : Nat) (t : State) : Prop where
  writes : Writes passWrites s t
  place  : t.ctl = .block (oneMacroblock k)
  cursor : CursorAt (le16 unused 0xAA#8) k t
  solid  : ∀ a, a < 256 → blockOfElement a < k → (t.fb s.cur).read a = colour

/-! ## Where the blocks stand -/

theorem oneMacroblock_x {k : Nat} (hk : k < 4) : (oneMacroblock k).x = 8 * (k % 2) := by
  interval_cases k <;> rfl

theorem oneMacroblock_y {k : Nat} (hk : k < 4) : (oneMacroblock k).y = 8 * (k / 2) := by
  interval_cases k <;> rfl

theorem oneMacroblock_next {k : Nat} (hk : k < 4) : (oneMacroblock k).next 16 = oneMacroblock (k + 1) := by
  interval_cases k <;> rfl

theorem blockOfElement_lt {a : Nat} (h : a < 256) : blockOfElement a < 4 := by
  unfold blockOfElement
  omega

/-- A block of one colour gives its elements the colour and no others. -/
theorem DrawsBlock.read_macroblock {s t : State} {k a : Nat} {f : Nat → Nat → Pixel} {colour : Pixel} {c : Ctl}
    (h : DrawsBlock s t (oneMacroblock k).x (oneMacroblock k).y 8 f c) (hk : k < 4) (hw : s.width.toNat = 16)
    (hf : ∀ j i, i < 8 → j < 8 → f j i = colour) (ha : a < 256) :
    (t.fb s.cur).read a = if blockOfElement a = k then colour else (s.fb s.cur).read a := by
  obtain ⟨hdrawn, houtside, -, -⟩ := h
  rw [oneMacroblock_x hk, oneMacroblock_y hk, hw] at hdrawn houtside
  unfold blockOfElement
  split
  · have hi : a % 8 < 8 := by omega
    have hj : a / 16 % 8 < 8 := by omega
    have hread := hdrawn (a % 8) (a / 16 % 8) hi hj
    rw [show (8 * (k / 2) + a / 16 % 8) * 16 + (8 * (k % 2) + a % 8) = a by omega] at hread
    exact hread.trans (hf _ _ hi hj)
  · exact houtside a fun i j hi hj => by omega

/-! ## The mode codes -/

/-- The upper four codes of a mode word with high byte 0xAA are SDL. -/
theorem modeCode_aa (unused : Byte) {left : BitVec 4} (h4 : 4 ≤ left.toNat) (h8 : left.toNat < 8) :
    modeCode (le16 unused 0xAA#8) left = 2#2 := by
  apply BitVec.eq_of_toNat_eq
  rw [modeCode_toNat, le16_toNat]
  generalize left.toNat = l at h4 h8
  interval_cases l <;> simp <;> omega

section
variable {unused c : Byte} {more : List Byte} {colour : Pixel} {s t : State} {k : Nat}

/-- The code of block `k`. -/
theorem CursorAt.getMode_sdl (h : CursorAt (le16 unused 0xAA#8) k t) (hk : k < 4)
    (hpay : t.pay = unused :: 0xAA#8 :: c :: c :: c :: c :: more) (hw : t.PayWhole) :
    ∃ left : BitVec 4, left.toNat = 7 - k ∧
      getMode t = .ok 2#2 { t with mbWord := le16 unused 0xAA#8, mbLeft := left, ppos := k + 2 } := by
  obtain ⟨rfl, hl, hp⟩ | ⟨hpos, hword, hl, hp⟩ := h
  · have hread : payRead 2 t = .ok [unused, 0xAA#8] { t with ppos := 2 } := by
      rw [payRead_of_le hw (by rw [hp, hpay]; simp), hp, hpay]
      rfl
    refine ⟨7, rfl, ?_⟩
    rw [getMode_of_refill hl hread, modeCode_aa unused (by decide) (by decide)]
  · have hne : t.mbLeft ≠ 0 := fun h0 => by
      rw [h0] at hl
      have hzero : 0 = 8 - k := hl
      omega
    have hleft : (t.mbLeft - 1).toNat = 7 - k := by bv_omega
    refine ⟨t.mbLeft - 1, hleft, ?_⟩
    rw [getMode_of_left hne, hword, modeCode_aa unused (by omega) (by omega), ← hword, ← hp]

/-- The fetch of block `k` reads SDL naming the cell. -/
theorem CursorAt.fetchMode_sdl (h : CursorAt (le16 unused 0xAA#8) k t) (hk : k < 4)
    (hpay : t.pay = unused :: 0xAA#8 :: c :: c :: c :: c :: more) (hw : t.PayWhole) :
    ∃ u, fetchMode .d8 t = .run (.sdl8 c) u ∧ Writes passWrites t u ∧ u.ctl = t.ctl ∧ u.fb = t.fb ∧
      CursorAt (le16 unused 0xAA#8) (k + 1) u := by
  obtain ⟨left, hleft, hmode⟩ := h.getMode_sdl hk hpay hw
  have hin : k + 2 + 1 ≤ t.pay.length := by
    simp only [hpay, List.length_cons]
    omega
  have hop : (t.pay.drop (k + 2)).take 1 = [c] := by
    rw [hpay]
    interval_cases k <;> rfl
  have hread := payRead_of_le (n := 1)
    (s := { t with mbWord := le16 unused 0xAA#8, mbLeft := left, ppos := k + 2 }) hw hin
  dsimp only at hread
  rw [hop] at hread
  exact ⟨_, fetchMode_run hmode hread rfl, rfl, rfl, rfl, .inr ⟨k.succ_pos, rfl, hleft.trans (by omega), rfl⟩⟩

/-! ## One block -/

/-- The next block's fetch, where the pass stands: what the pass does not write is as it was when it began. -/
theorem SolidUpTo.fetch_sdl (hs : SolidPass unused c more colour s) (h : SolidUpTo unused colour s k t) (hk : k < 4) :
    ∃ u, fetch t = .run (.sdl8 c) u ∧ Writes passWrites s u ∧ u.ctl = .block (oneMacroblock k) ∧ u.fb = t.fb ∧
      CursorAt (le16 unused 0xAA#8) (k + 1) u := by
  have hpay : t.pay = unused :: 0xAA#8 :: c :: c :: c :: c :: more := (h.writes.field State.pay).trans hs.pay
  have hwhole : t.PayWhole := (h.writes.field State.PayWhole).mpr hs.whole
  have hrow : (oneMacroblock k).my < t.height.toNat / 16 := by
    rw [h.writes.field State.height, hs.height]
    show k / 4 < 1
    omega
  obtain ⟨u, hfetch, hu, hctl, hfb, hcursor⟩ := h.cursor.fetchMode_sdl hk hpay hwhole
  exact ⟨u, (fetch_pass (.inl ⟨rfl, _, h.place, hrow⟩)).trans hfetch, h.writes.trans hu, hctl.trans h.place, hfb, hcursor⟩

/-- One block on: it is drawn in the colour, and the blocks before it stay. -/
theorem SolidUpTo.step_sdl (hs : SolidPass unused c more colour s) (h : SolidUpTo unused colour s k t) (hk : k < 4) :
    ∃ u, step t = .next u ∧ SolidUpTo unused colour s (k + 1) u := by
  obtain ⟨v, hfetch, hv, hctl, hfb, hcursor⟩ := h.fetch_sdl hs hk
  have hcur : v.cur = s.cur := hv.field State.cur
  have hcb4 : v.cb4 = s.cb4 := hv.field State.cb4
  have hwidth : v.width.toNat = 16 := by rw [hv.field State.width, hs.width]; rfl
  have hheight : v.height.toNat = 16 := by rw [hv.field State.height, hs.height]; rfl
  have hx : (oneMacroblock k).x + 8 ≤ v.width.toNat := by rw [oneMacroblock_x hk]; omega
  have hy : (oneMacroblock k).y + 8 ≤ v.height.toNat := by rw [oneMacroblock_y hk]; omega
  obtain ⟨u, hexec, hdraw⟩ := sdl8UpsamplesTheCell v (oneMacroblock k) c hctl hx hy
  have hframe := hdraw.frame
  refine ⟨u, (step_run hfetch).trans hexec, ?_, ?_, ?_, fun a ha hblock => ?_⟩
  · exact hv.trans (by rw [hframe]; rfl)
  · rw [hframe]
    show Ctl.block ((oneMacroblock k).next v.width.toNat) = _
    rw [hwidth, oneMacroblock_next hk]
  · rw [hframe]
    exact hcursor
  · have hread := hdraw.read_macroblock hk hwidth (fun j i _ _ => hcb4 ▸ hs.cell _ (by omega)) ha
    rw [hcur] at hread
    rw [hread, hfb]
    split
    · rfl
    · exact h.solid a ha (by omega)

/-! ## The pass -/

theorem SolidPass.zero (hs : SolidPass unused c more colour s) : SolidUpTo unused colour s 0 s :=
  ⟨rfl, hs.start.1, .inl ⟨rfl, hs.start.2⟩, fun _ _ h => absurd h (Nat.not_lt_zero _)⟩

/-- The blocks that are left, and the end of the pass. -/
theorem SolidUpTo.runs_to_end (hs : SolidPass unused c more colour s) {n : Nat} (hn : k + n = 4)
    (h : SolidUpTo unused colour s k t) : ∃ u, RunsTo (n + 1) t (endPass u) ∧ SolidUpTo unused colour s 4 u := by
  induction n generalizing k t with
  | zero =>
    obtain rfl : k = 4 := hn
    have hend : ¬ (oneMacroblock 4).my < t.height.toNat / 16 := by
      rw [h.writes.field State.height, hs.height]
      decide
    exact ⟨t, (RunsTo.zero _).step (step_endPass h.place hend), h⟩
  | succ n ih =>
    obtain ⟨t', hstep, h'⟩ := h.step_sdl hs (by omega)
    obtain ⟨u, hrun, hu⟩ := ih (by omega) h'
    exact ⟨u, hrun.step hstep, hu⟩

end

/-- FRAME on a 16×16 frame with that payload begins such a pass. -/
theorem beginPass_solidPass {unused c : Byte} {more : List Byte} {colour : Pixel} {s : State} (arg : Half)
    (hlen : more.length + 6 < 2 ^ 32) (hw : s.width = 16) (hh : s.height = 16)
    (hcell : ∀ k, k < 16 → s.cb4.read (16 * c.toNat + k) = colour) :
    SolidPass unused c more colour
      (beginPass (loadChunk 0x1011#16 arg (unused :: 0xAA#8 :: c :: c :: c :: c :: more) s)) := by
  rw [beginPass_eq]
  exact ⟨hw, hh, rfl, loadChunk_payWhole (s := s) 0x1011#16 arg hlen, hcell, rfl, rfl, rfl⟩

/-- Settles O42: the pass begins (`beginPass_solidPass`), its four blocks draw the colour one after the other, and it ends
(`SolidUpTo.runs_to_end`). -/
theorem solidFrameDecodesSolid : Obligations.SolidFrameDecodesSolid := by
  intro s arg unused c more colour hlen hd hw hh hcell
  have hs := beginPass_solidPass (unused := unused) arg hlen hw hh hcell
  have hexec := exec_frame_known arg (unused :: 0xAA#8 :: c :: c :: c :: c :: more) hd
  rw [beginPass_eq] at hs hexec
  obtain ⟨u, hrun, hu⟩ := hs.zero.runs_to_end hs (Nat.zero_add 4)
  have hcur : u.cur = s.cur := hu.writes.field State.cur
  have hcount : u.frameCnt = s.frameCnt := hu.writes.field State.frameCnt
  have hresults : u.results = s.results := hu.writes.field State.results
  refine ⟨_, endPass u, hexec, hrun, rfl, congrArg Nat.succ hcount, ?_, fun a ha => hu.solid a ha (blockOfElement_lt ha)⟩
  show u.results ++ [.event (.video u.cur (u.fb u.cur))] = s.results ++ [.event (.video s.cur (u.fb s.cur))]
  rw [hresults, hcur]

end Sys2Proof.Machine
end

section
/-! PROOFS. The operands of the DPCM decoder as numbers: `SQUARE_LUT`, the seeds and `add16` (R160, R163, R165). -/

namespace Sys2Proof.Machine

/-! ## SQUARE_LUT -/

theorem squareLut_of_le {i : Byte} (h : i.toNat ≤ 127) : squareLut i = (i.toNat : Int) ^ 2 := by
  rw [squareLut, if_pos (by omega), sq]

theorem squareLut_of_gt {i : Byte} (h : ¬ i.toNat ≤ 127) : squareLut i = -((i.toNat : Int) - 128) ^ 2 := by
  rw [squareLut, if_neg (by omega), sq]

/-- The square of what the low seven bits can hold. -/
theorem sq_le_of_seven_bits {v : Int} (h0 : 0 ≤ v) (h1 : v ≤ 127) : v ^ 2 ≤ 16129 :=
  calc v ^ 2 ≤ 127 ^ 2 := pow_le_pow_left₀ h0 h1 2
    _ = 16129 := by norm_num

theorem squareLut_bounds (i : Byte) : -16129 ≤ squareLut i ∧ squareLut i ≤ 16129 := by
  by_cases h : i.toNat ≤ 127
  · have hle := sq_le_of_seven_bits (v := i.toNat) (by omega) (by omega)
    have hnonneg := sq_nonneg (i.toNat : Int)
    rw [squareLut_of_le h]
    omega
  · have hle := sq_le_of_seven_bits (v := (i.toNat : Int) - 128) (by omega) (by omega)
    have hnonneg := sq_nonneg ((i.toNat : Int) - 128)
    rw [squareLut_of_gt h]
    omega

/-- Settles O43: the two halves of the table, and the bounds of a square of seven bits. -/
theorem squareTable : Obligations.SquareTable := by
  refine ⟨fun i => ?_, squareLut_bounds, by decide, by decide, by decide⟩
  split
  · next h => exact squareLut_of_le h
  · next h => exact squareLut_of_gt h

/-! ## The seeds -/

theorem seedOfByte_toNat (b : Byte) : (seedOfByte b).toNat = b.toNat * 256 := by
  rw [seedOfByte, BitVec.toNat_append]
  simp [Nat.shiftLeft_eq]

/-- Settles O45: a seed byte is the high byte (`seedOfByte_toNat`) of one of the argument's two bytes. -/
theorem seedRule : Obligations.SeedRule := by
  intro arg
  simp only [monoSeed, seedOfByte_toNat, lowByte_toNat, highByte_toNat, true_and]

/-! ## add16 -/

theorem add16_wrap (a : Half) (d : Int) :
    ∃ r, add16 .wrap a d = some r ∧ r.toInt = Int.bmod (a.toInt + d) 65536 :=
  ⟨_, rfl, BitVec.toInt_ofInt ..⟩

theorem add16_saturate (a : Half) (d : Int) :
    ∃ r, add16 .saturate a d = some r ∧ r.toInt = max (-32768) (min 32767 (a.toInt + d)) :=
  ⟨_, rfl, ofInt16_toInt (by omega) (by omega)⟩

theorem add16_fault_eq_none (a : Half) (d : Int) :
    add16 .fault a d = none ↔ a.toInt + d < -32768 ∨ 32767 < a.toInt + d := by
  rw [← accOverflows_iff]
  simp only [add16, ite_eq_left_iff, reduceCtorEq, imp_false, not_not]

/-- Where the sum fits, every mode gives it. -/
theorem add16_of_fits {a : Half} {d : Int} (h1 : -32768 ≤ a.toInt + d) (h2 : a.toInt + d ≤ 32767) (mode : AccOverflow) :
    add16 mode a d = some (BitVec.ofInt 16 (a.toInt + d)) := by
  cases mode with
  | wrap => rfl
  | saturate => rw [add16, min_eq_right h2, max_eq_right h1]
  | fault =>
    have hfits : ¬ accOverflows (a.toInt + d) = true := by
      rw [accOverflows_iff]
      omega
    rw [add16, if_neg hfits]

/-- Settles O44: one lemma a mode, and `add16_of_fits`. -/
theorem accumulatorStep : Obligations.AccumulatorStep := fun a d =>
  ⟨add16_wrap a d, add16_saturate a d, add16_fault_eq_none a d,
    fun h1 h2 mode => ⟨_, add16_of_fits h1 h2 mode, ofInt16_toInt h1 h2⟩⟩

end Sys2Proof.Machine
end

section
/-! PROOFS. What the bytes of a sound chunk decode to (R161 to R163). Mono and stereo decode the same way, in the order in which the
samples stand in the buffer: with `p` channels, sample `j` belongs to channel `j % p`. -/

namespace Sys2Proof.Machine

/-! ## The samples of one channel -/

/-- The accumulator of a channel before its sample `i`: the sample before it, or the seed. -/
def sumBefore (seed : Half) (stride off i : Nat) (out : List Half) : Half :=
  if i = 0 then seed else out.getD (stride * (i - 1) + off) 0#16

@[simp] theorem sumBefore_zero (seed : Half) (stride off : Nat) (out : List Half) : sumBefore seed stride off 0 out = seed := rfl

@[simp] theorem sumBefore_succ (seed : Half) (stride off i : Nat) (out : List Half) :
    sumBefore seed stride off (i + 1) out = out.getD (stride * i + off) 0#16 := rfl

section
variable {mode : AccOverflow} {seed : Half} {stride off n : Nat} {payload : List Byte} {out : List Half}

theorem ChannelDecodes.succ_iff : ChannelDecodes mode seed stride off (n + 1) payload out ↔
    ChannelDecodes mode seed stride off n payload out ∧
      add16 mode (sumBefore seed stride off n out) (squareLut (payload.getD (stride * n + off) 0#8)) =
        some (out.getD (stride * n + off) 0#16) :=
  Nat.forall_lt_succ_right

theorem sumBefore_append {i : Nat} (h : i ≠ 0 → stride * (i - 1) + off < out.length) (more : List Half) :
    sumBefore seed stride off i (out ++ more) = sumBefore seed stride off i out := by
  cases i with
  | zero => rfl
  | succ i => exact List.getD_append _ _ _ _ (h i.succ_ne_zero)

/-- Samples that follow those of the channel make no difference to them. -/
theorem ChannelDecodes.append_iff (h : ∀ i, i < n → stride * i + off < out.length) (more : List Half) :
    ChannelDecodes mode seed stride off n payload (out ++ more) ↔ ChannelDecodes mode seed stride off n payload out := by
  refine forall₂_congr fun i hi => ?_
  have hsum := sumBefore_append (seed := seed) (fun _ => h (i - 1) (by omega)) more
  unfold sumBefore at hsum
  rw [hsum, List.getD_append _ _ _ _ (h i hi)]

theorem sumBefore_of_pos {i : Nat} (hi : 0 < i) (hlt : stride * (i - 1) + off < out.length) :
    some (sumBefore seed stride off i out) = out[stride * (i - 1) + off]? := by
  rw [sumBefore, if_neg hi.ne', List.getD_eq_getElem _ _ hlt, List.getElem?_eq_getElem hlt]

theorem sumBefore_length (seed : Half) (out : List Half) : sumBefore seed 1 0 out.length out = out.getLastD seed := by
  induction out using List.reverseRecOn with
  | nil => rfl
  | append_singleton out a => simp

end

/-! ## The order of the samples -/

/-- The channel of sample `j` where there are `p` channels. -/
def channelOf (p j : Nat) : Fin 2 := Fin.ofNat 2 (j % p)

/-- How many of the first `k` samples belong to channel `c`. -/
def samplesOf (p : Nat) (c : Fin 2) (k : Nat) : Nat := if c.val < p then (k + (p - 1 - c.val)) / p else 0

section
variable {p : Nat} {c : Fin 2}

/-- A sample of channel `c` is the next of that channel. -/
theorem samplesOf_succ_self (hp : p = 1 ∨ p = 2) (k : Nat) :
    samplesOf p (channelOf p k) (k + 1) = samplesOf p (channelOf p k) k + 1 ∧
      p * samplesOf p (channelOf p k) k + (channelOf p k).val = k := by
  have hval : (channelOf p k).val = k % p % 2 := rfl
  obtain rfl | rfl := hp <;> simp only [samplesOf, hval] <;> split <;> omega

theorem samplesOf_succ_of_ne (hp : p = 1 ∨ p = 2) {k : Nat} (h : channelOf p k ≠ c) :
    samplesOf p c (k + 1) = samplesOf p c k := by
  have hne : k % p % 2 ≠ c.val := fun e => h (Fin.ext e)
  have hc := c.isLt
  obtain rfl | rfl := hp <;> simp only [samplesOf] <;> split <;> omega

/-- The samples of a channel among the first `k` stand before index `k`. -/
theorem samplesOf_lt (hp : p = 1 ∨ p = 2) {i k : Nat} (h : i < samplesOf p c k) : p * i + c.val < k := by
  unfold samplesOf at h
  split at h
  · obtain rfl | rfl := hp <;> omega
  · omega

/-! One sample more: its own channel takes it, and the other has what it had. -/

section
variable {mode : AccOverflow} {seed : Half} {payload : List Byte} {out : List Half}

theorem ChannelDecodes.concat_own (hp : p = 1 ∨ p = 2) (hc : channelOf p out.length = c) (a : Half) :
    ChannelDecodes mode seed p c.val (samplesOf p c (out.length + 1)) payload (out ++ [a]) ↔
      ChannelDecodes mode seed p c.val (samplesOf p c out.length) payload out ∧
        add16 mode (sumBefore seed p c.val (samplesOf p c out.length) out) (squareLut (payload.getD out.length 0#8)) =
          some a := by
  obtain ⟨hsucc, hat⟩ := samplesOf_succ_self hp out.length
  rw [hc] at hsucc hat
  rw [hsucc, ChannelDecodes.succ_iff, ChannelDecodes.append_iff fun _ => samplesOf_lt hp,
    sumBefore_append fun hne => samplesOf_lt hp (by omega), hat]
  simp

theorem ChannelDecodes.concat_other (hp : p = 1 ∨ p = 2) (hc : channelOf p out.length ≠ c) (a : Half) :
    ChannelDecodes mode seed p c.val (samplesOf p c (out.length + 1)) payload (out ++ [a]) ↔
      ChannelDecodes mode seed p c.val (samplesOf p c out.length) payload out := by
  rw [samplesOf_succ_of_ne hp hc, ChannelDecodes.append_iff fun _ => samplesOf_lt hp]

end

end

/-! ## What the samples decode to -/

/-- The samples `out` are those of the first bytes of the payload, decoded in order by `p` channels from the seeds, and leave the
accumulators `sums`. -/
inductive DecodesTo (p : Nat) (mode : AccOverflow) (payload : List Byte) (seeds : Fin 2 → Half) :
    List Half → (Fin 2 → Half) → Prop
  | nil : DecodesTo p mode payload seeds [] seeds
  | snoc {out : List Half} {sums : Fin 2 → Half} {a : Half} (h : DecodesTo p mode payload seeds out sums)
      (ha : add16 mode (sums (channelOf p out.length)) (squareLut (payload.getD out.length 0#8)) = some a) :
      DecodesTo p mode payload seeds (out ++ [a]) (Function.update sums (channelOf p out.length) a)

section
variable {p : Nat} {mode : AccOverflow} {payload : List Byte} {seeds sums : Fin 2 → Half} {out : List Half}

/-- Any number of samples decode, in the mode `fault` where some do. -/
theorem exists_decodesTo {k : Nat}
    (hf : mode = .fault → ∃ out, out.length = k ∧ ∃ sums, DecodesTo p mode payload seeds out sums) :
    ∃ out, out.length = k ∧ ∃ sums, DecodesTo p mode payload seeds out sums := by
  by_cases hm : mode = .fault
  · exact hf hm
  clear hf
  induction k with
  | zero => exact ⟨[], rfl, seeds, .nil⟩
  | succ k ih =>
    obtain ⟨out, rfl, sums, hd⟩ := ih
    obtain ⟨a, ha⟩ := add16_some hm (sums (channelOf p out.length)) (squareLut (payload.getD out.length 0#8))
    exact ⟨out ++ [a], List.length_append, _, hd.snoc ha⟩

/-- The accumulator of a channel holds the last of its samples. -/
theorem DecodesTo.sums_eq (hp : p = 1 ∨ p = 2) (h : DecodesTo p mode payload seeds out sums) (c : Fin 2) :
    sums c = sumBefore (seeds c) p c.val (samplesOf p c out.length) out := by
  induction h with
  | nil =>
    have hnone : samplesOf p c 0 = 0 := by
      by_contra hne
      exact absurd (samplesOf_lt hp (Nat.pos_of_ne_zero hne)) (Nat.not_lt_zero _)
    rw [List.length_nil, hnone, sumBefore_zero]
  | @snoc out sums a _ _ ih =>
    rw [List.length_append, List.length_singleton]
    by_cases hc : channelOf p out.length = c
    · subst hc
      obtain ⟨hsucc, hat⟩ := samplesOf_succ_self hp out.length
      rw [hsucc, sumBefore_succ, hat, Function.update_self]
      simp
    · rw [samplesOf_succ_of_ne hp hc, sumBefore_append fun hne => samplesOf_lt hp (by omega),
        Function.update_of_ne (Ne.symm hc), ih]

/-- Samples decode in order exactly where each channel's do. -/
theorem decodesTo_iff (hp : p = 1 ∨ p = 2) : (∃ sums, DecodesTo p mode payload seeds out sums) ↔
    ∀ c, ChannelDecodes mode (seeds c) p c.val (samplesOf p c out.length) payload out := by
  constructor
  · rintro ⟨sums, h⟩
    induction h with
    | nil => exact fun c i hi => absurd (samplesOf_lt hp hi) (Nat.not_lt_zero _)
    | @snoc out sums a h ha ih =>
      intro c
      rw [List.length_append]
      by_cases hc : channelOf p out.length = c
      · rw [hc, h.sums_eq hp] at ha
        exact (ChannelDecodes.concat_own hp hc _).2 ⟨ih c, ha⟩
      · exact (ChannelDecodes.concat_other hp hc _).2 (ih c)
  · intro h
    induction out using List.reverseRecOn with
    | nil => exact ⟨seeds, .nil⟩
    | append_singleton out a ih =>
      rw [List.length_append] at h
      obtain ⟨sums, hd⟩ := ih fun c => by
        by_cases hc : channelOf p out.length = c
        · exact ((ChannelDecodes.concat_own hp hc a).1 (h c)).1
        · exact (ChannelDecodes.concat_other hp hc a).1 (h c)
      obtain ⟨-, ha⟩ := (ChannelDecodes.concat_own hp rfl a).1 (h _)
      rw [← hd.sums_eq hp] at ha
      exact ⟨_, hd.snoc ha⟩

end

end Sys2Proof.Machine
end

section
/-! PROOFS. SND_MONO and SND_STEREO (R161 to R164, R166): the loop does what its samples decode to, and the chunk ends with its event,
or with the fault of the first sample that overflows. -/

namespace Sys2Proof.Machine

/-! ## One sample -/

section
variable {s : State} {ch : Fin 2} {a : Half}

theorem decodeSample_some (hw : s.PayWhole) (hlt : s.ppos < s.pay.length) (k j : Nat)
    (h : add16 s.params.accOverflow (s.acc ch) (squareLut (s.pay.getD s.ppos 0#8)) = some a) :
    decodeSample ch k j s = .ok () (writeSample j a (State.setAcc { s with ppos := s.ppos + 1 } ch a)) := by
  have hacc : State.acc { s with ppos := s.ppos + 1 } ch = s.acc ch := rfl
  simp only [decodeSample, payRead_of_le (n := 1) hw hlt, Res.bind_ok, getD_window _ _ Nat.one_pos, Nat.add_zero, hacc, h]

theorem decodeSample_none (hw : s.PayWhole) (hlt : s.ppos < s.pay.length) (k j : Nat)
    (h : add16 s.params.accOverflow (s.acc ch) (squareLut (s.pay.getD s.ppos 0#8)) = none) :
    decodeSample ch k j s = .raised (.accOverflow ch.val k) { s with ppos := s.ppos + 1 } := by
  have hacc : State.acc { s with ppos := s.ppos + 1 } ch = s.acc ch := rfl
  simp only [decodeSample, payRead_of_le (n := 1) hw hlt, Res.bind_ok, getD_window _ _ Nat.one_pos, Nat.add_zero, hacc, h]

end

/-! ## The loop over the samples -/

/-- Sample `j` where there are `p` channels; `j / p` is its index within its channel (log 17). -/
def decodeNth (p j : Nat) (s : State) : Res Unit := decodeSample (channelOf p j) (j / p) j s

theorem decodeNth_one : decodeNth 1 = fun j => decodeSample 0 j j := by
  funext j s
  rw [decodeNth, channelOf, Nat.mod_one, Nat.div_one]
  rfl

/-- The pairs of a stereo chunk are its samples in order, two at a time. -/
theorem forFrom_decodePair (n : Nat) (s : State) : forFrom decodePair n 0 s = forFrom (decodeNth 2) (2 * n) 0 s := by
  induction n with
  | zero => rfl
  | succ n ih =>
    have hleft : decodeNth 2 (2 * n) = decodeSample 0 n (2 * n) := by
      funext t
      rw [decodeNth, channelOf, Nat.mul_mod_right, Nat.mul_div_cancel_left n Nat.two_pos]
      rfl
    have hright : decodeNth 2 (2 * n + 1) = decodeSample 1 n (2 * n + 1) := by
      funext t
      rw [decodeNth, channelOf, show (2 * n + 1) % 2 = 1 by omega, show (2 * n + 1) / 2 = n by omega]
      rfl
    rw [forFrom_snoc, ih, Nat.mul_succ, forFrom_snoc, forFrom_snoc, Res.bind_assoc]
    simp only [Nat.zero_add, hleft, hright]
    rfl

/-- The state inside a sound chunk with the samples `out` decoded: one payload byte each, the first of `AUD_BUF`, and the
accumulators as given. -/
def State.sounded (s : State) (out : List Half) (sums : Fin 2 → Half) : State :=
  { s with acc0 := sums 0, acc1 := sums 1, ppos := out.length, audBuf := out ++ s.audBuf.drop out.length }

section
variable {p : Nat} {s : State} {sums : Fin 2 → Half} {out : List Half}

@[simp] theorem State.sounded_acc (ch : Fin 2) : (s.sounded out sums).acc ch = sums ch := by
  fin_cases ch <;> rfl

theorem State.sounded_nil (h0 : s.ppos = 0) : s.sounded [] s.acc = s :=
  calc s.sounded [] s.acc = { s with ppos := 0 } := rfl
    _ = s := by rw [← h0]

/-- The next sample written. -/
theorem State.sounded_concat (ch : Fin 2) (a : Half) :
    writeSample out.length a (State.setAcc { s.sounded out sums with ppos := out.length + 1 } ch a) =
      s.sounded (out ++ [a]) (Function.update sums ch a) := by
  have hbuf : (out ++ s.audBuf.drop out.length).take out.length ++ a :: (out ++ s.audBuf.drop out.length).drop (out.length + 1) =
      (out ++ [a]) ++ s.audBuf.drop (out ++ [a]).length := by
    simp [List.drop_append]
  unfold writeSample State.setAcc
  simp only [State.sounded, hbuf]
  fin_cases ch <;> simp

/-- The loop does what the samples decode to. -/
theorem forFrom_decodeNth (hw : s.PayWhole) (h0 : s.ppos = 0) (hlen : out.length ≤ s.pay.length)
    (h : DecodesTo p s.params.accOverflow s.pay s.acc out sums) :
    forFrom (decodeNth p) out.length 0 s = .ok () (s.sounded out sums) := by
  induction h with
  | nil => rw [State.sounded_nil h0]; rfl
  | @snoc out sums a _ ha ih =>
    rw [List.length_append, List.length_singleton] at hlen ⊢
    have hstep := decodeSample_some (s := s.sounded out sums) hw hlen (out.length / p) out.length
      (ch := channelOf p out.length) (by rwa [State.sounded_acc])
    rw [forFrom_snoc, ih (by omega), Res.bind_ok, Nat.zero_add, decodeNth, hstep]
    exact congrArg _ (State.sounded_concat ..)

/-- The loop stops at the first sample that overflows. -/
theorem forFrom_decodeNth_overflow (hw : s.PayWhole) (h0 : s.ppos = 0) {n : Nat} (hn : n ≤ s.pay.length) (hk : out.length < n)
    (h : DecodesTo p s.params.accOverflow s.pay s.acc out sums)
    (hover : add16 s.params.accOverflow (sums (channelOf p out.length)) (squareLut (s.pay.getD out.length 0#8)) = none) :
    forFrom (decodeNth p) n 0 s = .raised (.accOverflow (channelOf p out.length).val (out.length / p))
      { s.sounded out sums with ppos := out.length + 1 } := by
  refine forFrom_raised hk (forFrom_decodeNth hw h0 (by omega) h) ?_
  rw [Nat.zero_add]
  exact decodeSample_none (s := s.sounded out sums) hw (hk.trans_le hn) _ _ (by rwa [State.sounded_acc])

/-- A sound chunk whose samples all decode ends with its event. -/
theorem soundChunk_completes (hw : s.PayWhole) (h0 : s.ppos = 0) {n : Nat} (hn : n ≤ s.pay.length) (hlen : s.audLen = n)
    (hbuf : s.audBuf.length ≤ n) (hout : out.length = n) (h : DecodesTo p s.params.accOverflow s.pay s.acc out sums) :
    ((forFrom (decodeNth p) n 0 s).settle fun _ t => endSound t) =
      .next { s with acc0 := sums 0, acc1 := sums 1, ppos := n, audBuf := out, ctl := .idle,
                     results := s.results ++ [.event (.audio s.audCh out)] } := by
  subst hout
  have hwhole : s.sounded out sums = { s with acc0 := sums 0, acc1 := sums 1, ppos := out.length, audBuf := out } := by
    rw [State.sounded, List.drop_of_length_le hbuf, List.append_nil]
  rw [forFrom_decodeNth hw h0 hn h, Res.settle_ok, hwhole, endSound, emit]
  simp only [hlen, List.take_length]

/-- A sound chunk takes a fault at its first sample that overflows. -/
theorem soundChunk_overflows (hw : s.PayWhole) (h0 : s.ppos = 0) {n : Nat} (hn : n ≤ s.pay.length) (hk : out.length < n)
    (h : DecodesTo p s.params.accOverflow s.pay s.acc out sums)
    (hover : add16 s.params.accOverflow (sums (channelOf p out.length)) (squareLut (s.pay.getD out.length 0#8)) = none) :
    ((forFrom (decodeNth p) n 0 s).settle fun _ t => endSound t) =
      .next (takeFault (.accOverflow (channelOf p out.length).val (out.length / p))
        { s with acc0 := sums 0, acc1 := sums 1, ppos := out.length + 1, audBuf := out ++ s.audBuf.drop out.length }) := by
  rw [forFrom_decodeNth_overflow hw h0 hn hk h hover, Res.settle_raised]
  rfl

end

/-! ## Mono and stereo -/

section
variable (s : State) (arg : Half) (payload : List Byte)

/-- Where the samples of SND_MONO begin. -/
def monoStart : State :=
  beginSound 1#2 payload.length (monoSeed s.params.monoSeed arg) s.acc1 (loadChunk 0x1020#16 arg payload s)

/-- Where the samples of SND_STEREO begin. -/
def stereoStart : State :=
  beginSound 2#2 (2 * (payload.length / 2)) (seedOfByte (highByte arg)) (seedOfByte (lowByte arg))
    (loadChunk 0x1021#16 arg payload s)

variable {payload}

theorem monoStart_payWhole (h : payload.length < 2 ^ 32) : (monoStart s arg payload).PayWhole :=
  loadChunk_payWhole (s := s) 0x1020#16 arg h

theorem stereoStart_payWhole (h : payload.length < 2 ^ 32) : (stereoStart s arg payload).PayWhole :=
  loadChunk_payWhole (s := s) 0x1021#16 arg h

theorem exec_sndMono_eq (h : payload.length < 2 ^ 32) : exec (.sndMono arg payload) s =
    (forFrom (decodeNth 1) payload.length 0 (monoStart s arg payload)).settle fun _ t => endSound t := by
  have hsize : (BitVec.ofNat 32 payload.length).toNat = payload.length := Nat.mod_eq_of_lt h
  unfold monoStart
  rw [decodeNth_one, ← hsize]
  rfl

theorem exec_sndStereo_eq (h : payload.length < 2 ^ 32) : exec (.sndStereo arg payload) s =
    (forFrom (decodeNth 2) (2 * (payload.length / 2)) 0 (stereoStart s arg payload)).settle fun _ t => endSound t := by
  have hsize : (BitVec.ofNat 32 payload.length).toNat = payload.length := Nat.mod_eq_of_lt h
  unfold stereoStart
  rw [← forFrom_decodePair, ← hsize]
  rfl

end

theorem channelOf_two (k : Nat) : channelOf 2 k = if k % 2 = 0 then 0 else 1 := by
  obtain h | h := Nat.mod_two_eq_zero_or_one k <;> rw [channelOf, h] <;> rfl

/-- The accumulator of the left channel after the samples `out` of a stereo chunk. -/
theorem sumBefore_left (seed : Half) (out : List Half) : sumBefore seed 2 0 ((out.length + 1) / 2) out =
    if out.length = 0 then seed else out.getD ((out.length - 1) / 2 * 2) 0#16 := by
  by_cases h : out.length = 0
  · rw [if_pos h, sumBefore, if_pos (by omega)]
  · rw [if_neg h, sumBefore, if_neg (by omega), show 2 * ((out.length + 1) / 2 - 1) + 0 = (out.length - 1) / 2 * 2 by omega]

/-- The accumulator of the right channel after them. -/
theorem sumBefore_right (seed : Half) (out : List Half) : sumBefore seed 2 1 (out.length / 2) out =
    if out.length < 2 then seed else out.getD ((out.length / 2 - 1) * 2 + 1) 0#16 := by
  by_cases h : out.length < 2
  · rw [if_pos h, sumBefore, if_pos (by omega)]
  · rw [if_neg h, sumBefore, if_neg (by omega), Nat.mul_comm]

theorem samplesOf_mono (k : Nat) : samplesOf 1 0 k = k := Nat.div_one k

section
variable {mode : AccOverflow} {payload : List Byte} {seeds sums : Fin 2 → Half} {out : List Half}

theorem decodesTo_mono_iff : (∃ sums, DecodesTo 1 mode payload seeds out sums) ↔
    ChannelDecodes mode (seeds 0) 1 0 out.length payload out := by
  rw [decodesTo_iff (.inl rfl), Fin.forall_fin_two, samplesOf_mono]
  exact and_iff_left fun i hi => absurd hi (Nat.not_lt_zero i)

theorem decodesTo_stereo_iff : (∃ sums, DecodesTo 2 mode payload seeds out sums) ↔
    ChannelDecodes mode (seeds 0) 2 0 ((out.length + 1) / 2) payload out ∧
      ChannelDecodes mode (seeds 1) 2 1 (out.length / 2) payload out := by
  rw [decodesTo_iff (.inr rfl), Fin.forall_fin_two]
  rfl

theorem DecodesTo.mono_sums (h : DecodesTo 1 mode payload seeds out sums) :
    sums 0 = out.getLastD (seeds 0) ∧ sums 1 = seeds 1 := by
  refine ⟨?_, h.sums_eq (.inl rfl) 1⟩
  rw [h.sums_eq (.inl rfl), samplesOf_mono]
  exact sumBefore_length _ out

theorem DecodesTo.stereo_sums (h : DecodesTo 2 mode payload seeds out sums) :
    sums 0 = sumBefore (seeds 0) 2 0 ((out.length + 1) / 2) out ∧ sums 1 = sumBefore (seeds 1) 2 1 (out.length / 2) out :=
  ⟨h.sums_eq (.inr rfl) 0, h.sums_eq (.inr rfl) 1⟩

end

/-- Settles O46: the samples decode (`exists_decodesTo`), and the chunk completes with them (`soundChunk_completes`). -/
theorem sndMonoDecodesEveryByte : Obligations.SndMonoDecodesEveryByte := by
  intro s arg payload seed Decodes hlen hfault
  have hiff (out : List Half) : Decodes out ↔ out.length = payload.length ∧
      ∃ sums, DecodesTo 1 s.params.accOverflow payload (monoStart s arg payload).acc out sums :=
    and_congr_right fun hout => by rw [decodesTo_mono_iff, hout]; rfl
  obtain ⟨out, hout, sums, hd⟩ := exists_decodesTo fun hm => (hfault hm).imp fun out => (hiff out).1
  obtain ⟨hsum, hright⟩ := hd.mono_sums
  have hexec := (exec_sndMono_eq s arg hlen).trans
    (soundChunk_completes (monoStart_payWhole s arg hlen) rfl le_rfl rfl (List.length_take_le ..) hout hd)
  rw [hsum, hright] at hexec
  exact ⟨_, out, hexec, (hiff out).2 ⟨hout, sums, hd⟩, rfl⟩

/-- Settles O47: the samples decode (`exists_decodesTo`), and the chunk completes with them (`soundChunk_completes`); each
accumulator is left with the last sample of its channel. -/
theorem sndStereoDecodesPairs : Obligations.SndStereoDecodesPairs := by
  intro s arg payload n Decodes hlen hfault
  have hleft : (2 * n + 1) / 2 = n := by omega
  have hright : 2 * n / 2 = n := by omega
  have hiff (out : List Half) : Decodes out ↔ out.length = 2 * n ∧
      ∃ sums, DecodesTo 2 s.params.accOverflow payload (stereoStart s arg payload).acc out sums :=
    and_congr_right fun hout => by rw [decodesTo_stereo_iff, hout, hleft, hright]; rfl
  obtain ⟨out, hout, sums, hd⟩ := exists_decodesTo fun hm => (hfault hm).imp fun out => (hiff out).1
  obtain ⟨hsum0, hsum1⟩ := hd.stereo_sums
  rw [hout, hleft] at hsum0
  rw [hout, hright] at hsum1
  have hexec := (exec_sndStereo_eq s arg hlen).trans (soundChunk_completes (stereoStart_payWhole s arg hlen) rfl
    (show 2 * n ≤ payload.length by omega) rfl (List.length_take_le ..) hout hd)
  refine ⟨_, out, hexec, (hiff out).2 ⟨hout, sums, hd⟩, fun hnone => ?_, fun hpos => ?_, rfl⟩
  · exact ⟨hsum0.trans (if_pos hnone), hsum1.trans (if_pos hnone)⟩
  · have hlast0 : 2 * n - 2 = 2 * (n - 1) + 0 := by omega
    have hlast1 : 2 * n - 1 = 2 * (n - 1) + 1 := by omega
    rw [hlast0, hlast1]
    exact ⟨hsum0 ▸ sumBefore_of_pos hpos (by omega), hsum1 ▸ sumBefore_of_pos hpos (by omega)⟩

/-- Settles O48: the samples before `k` decode, and the loop stops at sample `k` (`soundChunk_overflows`). -/
theorem sndMonoOverflowFaults : Obligations.SndMonoOverflowFaults := by
  intro s arg payload out seed k hlen hmode hk hdecodes hover
  rw [← hmode] at hdecodes hover
  obtain ⟨sums, hd⟩ := (decodesTo_mono_iff (seeds := (monoStart s arg payload).acc)).2 hdecodes
  obtain ⟨hsum, hright⟩ := hd.mono_sums
  have hch : channelOf 1 k = 0 := by rw [channelOf, Nat.mod_one]; rfl
  have hexec := (exec_sndMono_eq s arg hlen).trans
    (soundChunk_overflows (monoStart_payWhole s arg hlen) rfl le_rfl hk hd (by rw [hch, hsum]; exact hover))
  rw [hch, Nat.div_one, hsum, hright] at hexec
  exact ⟨_, hexec, rfl, rfl, rfl, rfl, List.take_left, rfl, rfl⟩

/-- Settles O49: the samples before `k` decode, and the loop stops at sample `k` (`soundChunk_overflows`). -/
theorem sndStereoOverflowFaults : Obligations.SndStereoOverflowFaults := by
  intro s arg payload out left right k l r hlen hmode hk hdecodes0 hdecodes1 hover
  rw [← hmode] at hdecodes0 hdecodes1 hover
  obtain ⟨sums, hd⟩ := (decodesTo_stereo_iff (seeds := (stereoStart s arg payload).acc)).2 ⟨hdecodes0, hdecodes1⟩
  obtain ⟨hsum0, hsum1⟩ := hd.stereo_sums
  replace hsum0 : sums 0 = l := hsum0.trans (sumBefore_left left out)
  replace hsum1 : sums 1 = r := hsum1.trans (sumBefore_right right out)
  have hsum : sums (channelOf 2 k) = if k % 2 = 0 then l else r := by
    rw [channelOf_two]
    split <;> assumption
  have hexec := (exec_sndStereo_eq s arg hlen).trans (soundChunk_overflows (stereoStart_payWhole s arg hlen) rfl
    (show 2 * (payload.length / 2) ≤ payload.length by omega) hk hd (by rw [hsum]; exact hover))
  have hval : (channelOf 2 k).val = k % 2 := Nat.mod_mod ..
  rw [hval, hsum0, hsum1] at hexec
  exact ⟨_, hexec, rfl, List.take_left, rfl, rfl⟩

end Sys2Proof.Machine
end

section
/-! PROOFS. The host commands and the stream header (R170, R171, R172, R178, R182), and what is left after a fault (R197). -/

namespace Sys2Proof.Machine

/-! ## A step between commands -/

section
variable {s : State}

theorem fetch_atRest (h : s.AtRest) : fetch s = fetchHost s := by
  obtain hc | hc := h <;> rw [fetch, hc]

theorem step_hostIdle (h : s.AtRest) (hq : s.host = []) : step s = .next s :=
  step_settled (by rw [fetch_atRest h, fetchHost, hq])

theorem step_hostCommand {c : HostCmd} {rest : List HostCmd} (h : s.AtRest) (hq : s.host = c :: rest) :
    step s = exec c.instr { s with host := rest } :=
  step_run (by rw [fetch_atRest h, fetchHost, hq])

/-- Settles O11: between commands the fetch is the host's queue (`step_hostIdle`, `step_hostCommand`). -/
theorem stepRunsTheHostCommand : Obligations.StepRunsTheHostCommand := fun _ h =>
  ⟨step_hostIdle h, fun _ _ => step_hostCommand h⟩

/-! ## OPEN and NEXT, by `ST` -/

theorem execHostOpen_of_uninit (source : ByteSource) (hc : s.ctl = .idle) (hst : s.st = .uninit) :
    execHostOpen source s =
      .next { s with src := source.bytes, srcAns := source.answers, spos := 0, ctl := .header } :=
  (atIdle_of_idle hc _).trans (if_pos hst)

theorem execHostOpen_of_opened (source : ByteSource) (hc : s.ctl = .idle) (hst : s.st ≠ .uninit) :
    execHostOpen source s = .refused .openOutsideUninit :=
  (atIdle_of_idle hc _).trans (if_neg hst)

theorem execHostNext_of_playing (hc : s.ctl = .idle) (hst : s.st = .playing) :
    execHostNext s = .next { s with ctl := .fetch } :=
  (atIdle_of_idle hc _).trans (if_pos hst)

theorem execHostNext_of_not_playing (hc : s.ctl = .idle) (hst : s.st ≠ .playing) :
    execHostNext s = .refused .nextOutsidePlaying :=
  (atIdle_of_idle hc _).trans (if_neg hst)

theorem atIdle_of_dropped (hc : s.ctl = .dropped) (k : Host.Outcome State Fault Refusal) :
    atIdle s k = .refused .instanceDropped := by
  rw [atIdle, hc]

end

/-- Settles O17. -/
theorem openTakesTheSource : Obligations.OpenTakesTheSource := fun _ source => execHostOpen_of_uninit source

/-- Settles O20. -/
theorem nextStartsFetching : Obligations.NextStartsFetching := fun _ => execHostNext_of_playing

/-- Settles O22: between commands `ST` is what refuses OPEN and NEXT; after DROP nothing is let through (`atIdle_of_dropped`). -/
theorem commandsOutsideTheirStateAreRefused : Obligations.CommandsOutsideTheirStateAreRefused := fun _ source =>
  ⟨execHostNext_of_not_playing, execHostOpen_of_opened source,
    fun hc => ⟨atIdle_of_dropped hc _, atIdle_of_dropped hc _, atIdle_of_dropped hc _⟩⟩

/-! ## The stream header, by its signature -/

/-- Settles O18: the signature is `STREAM_MAGIC`. -/
theorem streamHeaderStartsPlaying : Obligations.StreamHeaderStartsPlaying := fun _ _ _ => if_pos rfl

/-- Settles O19: the signature is another, and the fault's numbers are those of `Cause.code` and `Cause.info`. -/
theorem wrongMagicIsAParseError : Obligations.WrongMagicIsAParseError := fun _ _ _ _ hne => if_neg hne

/-! ## After a fault -/

/-- In `FAULT` the one command that ends in a next state is `DROP`. -/
theorem exec_host_of_fault {s t : State} {c : HostCmd} (hst : s.st = .fault) (h : exec c.instr s = .next t) :
    c = .drop ∧ t.ctl = .dropped := by
  cases c with
  | openSource source => cases hst.symm.trans (execHostOpen_uninit h)
  | next => cases hst.symm.trans (execHostNext_playing h)
  | drop => exact ⟨rfl, by rw [execHostDrop_next h]⟩

/-- Settles O53: a step between commands keeps the state or runs the command pending, which is `DROP` (`exec_host_of_fault`). -/
theorem afterAFaultOnlyDrop : Obligations.AfterAFaultOnlyDrop := by
  intro s t hc hst h
  cases hq : s.host with
  | nil =>
    rw [step_hostIdle (.inl hc) hq] at h
    cases h
    exact .inl ⟨rfl, rfl⟩
  | cons c rest =>
    rw [step_hostCommand (.inl hc) hq] at h
    obtain ⟨rfl, hd⟩ := exec_host_of_fault (s := { s with host := rest }) hst h
    exact .inr ⟨rest, rfl, hd⟩

end Sys2Proof.Machine
end

section
/-! PROOFS. Every host command ends (R172, R181, R222): a block mode brings a pass nearer its end, a chunk that hands nothing over
brings `NEXT` nearer the end of the source, and every other step inside a command hands over its result. -/

namespace Sys2Proof.Machine

/-! ## Running a command to its end -/

/-- The outcome of steps from `s` that end its command: at rest with one result more, or at an INFO the spec gives no meaning. -/
def State.EndsWith (s : State) (o : Host.Outcome State Fault Refusal) : Prop :=
  (∃ t, o = .next t ∧ t.ctl = .idle ∧ ∃ r, t.results = s.results ++ [r]) ∨
    o = .refused .secondInfo ∨ o = .refused .illegalDimensions

/-- Finitely many steps end the command that runs. -/
def State.CommandEnds (s : State) : Prop := ∃ k, s.EndsWith (Sys2Proof.core.run k s)

section
variable {s t u : State} {i : Instr} {o : Host.Outcome State Fault Refusal}

/-- A result is handed over, from a state in which none was yet. -/
theorem State.EndsWith.result (ho : o = .next t) (hu : u.results = s.results) (hc : t.ctl = .idle := by rfl)
    (hr : ∃ r, t.results = u.results ++ [r] := by exact ⟨_, rfl⟩) : s.EndsWith o :=
  .inl ⟨t, ho, hc, hu ▸ hr⟩

theorem State.EndsWith.of_results (h : t.EndsWith o) (ht : t.results = s.results) : s.EndsWith o := by
  unfold State.EndsWith at h
  rwa [ht] at h

theorem core_run_one (s : State) : Sys2Proof.core.run 1 s = step s := by
  show Sys2Proof.core.run 1 s = Sys2Proof.core.step s
  simp only [Host.Core.run]
  cases Sys2Proof.core.step s <;> rfl

theorem core_run_succ (k : Nat) (h : step s = .next t) : Sys2Proof.core.run (k + 1) s = Sys2Proof.core.run k t := by
  have hs : Sys2Proof.core.step s = .next t := h
  show Host.Core.run Sys2Proof.core (k + 1) s = _
  simp only [Host.Core.run, hs]

theorem State.CommandEnds.of_step (h : s.EndsWith (step s)) : s.CommandEnds := ⟨1, by rwa [core_run_one]⟩

theorem State.CommandEnds.after_step (h : step s = .next t) (hr : t.results = s.results) (ht : t.CommandEnds) :
    s.CommandEnds := by
  obtain ⟨k, hk⟩ := ht
  exact ⟨k + 1, by rw [core_run_succ k h]; exact hk.of_results hr⟩

/-- Where a step ends the command or hands nothing over and makes a measure smaller, the command ends. -/
theorem State.CommandEnds.of_measure {P : State → Prop} (left : State → Nat)
    (hstep : ∀ s, P s → s.CommandEnds ∨ ∃ t, step s = .next t ∧ t.results = s.results ∧ P t ∧ left t < left s)
    (h : P s) : s.CommandEnds := by
  induction hn : left s using Nat.strong_induction_on generalizing s with
  | _ n ih =>
    subst hn
    obtain hends | ⟨t, ht, hr, hp, hlt⟩ := hstep s h
    · exact hends
    · exact .after_step ht hr (ih _ hlt hp rfl)

/-! ## The fetches -/

theorem fetchMode_ne_stuck (d : Depth) (f : Fault) : fetchMode d s ≠ .stuck f := by
  unfold fetchMode
  split
  · nofun
  · split <;> nofun

/-- A fetch that is over at once inside a command is over at rest. -/
theorem fetch_settled_idle (hs : ¬ s.AtRest) (h : fetch s = .settled t) : t.ctl = .idle := by
  have hfault (hf : ∃ c u, t = takeFault c u) : t.ctl = .idle := by
    obtain ⟨c, u, rfl⟩ := hf
    rfl
  unfold fetch at h
  split at h
  · next hc => exact absurd (.inl hc) hs
  · next hc => exact absurd (.inr hc) hs
  · exact hfault (fetchHeader_settled h)
  · obtain ⟨u, -, rfl⟩ | ⟨c, u, -, rfl⟩ := fetchChunk_settled (fetchNext_settled h) <;> rfl
  · unfold fetchBlock at h
    split at h
    · exact hfault (fetchMode_settled h)
    · cases h; rfl
  · exact hfault (fetchMode_settled h)

/-- It hands over the event or the fault it ends in. -/
theorem fetch_settled_ends (hs : ¬ s.AtRest) (h : fetch s = .settled t) : s.EndsWith (step s) := by
  have hidle := fetch_settled_idle hs h
  have hf := fetch_frame s
  rw [h] at hf
  obtain rfl | rfl | ⟨u, hu, rfl | ⟨c, rfl⟩⟩ := hf
  · exact absurd (.inl hidle) hs
  · exact .result (u := s) (step_settled h) rfl
  · exact .result (step_settled h) (hu.field State.results)
  · exact .result (step_settled h) (hu.field State.results)

/-- A source that answers is never stuck on. -/
theorem srcRead_ne_hang (hs : s.SourceAnswers) (n : Nat) : srcRead n s ≠ .hang := by
  intro h
  obtain ⟨-, e⟩ | ⟨⟨l, ha⟩, -⟩ | e | ⟨-, e⟩ | ⟨-, e⟩ := srcRead_cases n s
  · cases h.symm.trans e
  · exact hs .hang (by rw [ha]; exact List.mem_cons_self) rfl
  iterate 3 cases h.symm.trans e

/-- A read leaves a source that answers. -/
theorem srcRead_ok_answers {n : Nat} {b : List Byte} (hs : s.SourceAnswers) (h : srcRead n s = .ok b t) : t.SourceAnswers := by
  have htail : ∀ a ∈ s.srcAns.tail, a ≠ .hang := fun a ha => hs a (List.mem_of_mem_tail ha)
  obtain ⟨-, e⟩ | ⟨-, e⟩ | e | ⟨-, e⟩ | ⟨-, e⟩ := srcRead_cases n s <;> cases h.symm.trans e
  · exact hs
  · exact htail

theorem latchHeader_answers {id arg : Half} {size : Word} (hs : s.SourceAnswers) :
    (latchHeader id size arg s).SourceAnswers := hs

theorem fetchHeader_ne_stuck (hs : s.SourceAnswers) (f : Fault) : fetchHeader s ≠ .stuck f := by
  unfold fetchHeader
  split
  · next h => exact absurd h (srcRead_ne_hang hs _)
  · nofun
  · nofun
  · split <;> nofun

theorem fetchChunk_ne_stuck (hs : s.SourceAnswers) (f : Fault) : fetchChunk s ≠ .stuck f := by
  unfold fetchChunk
  split
  · next h => exact absurd h (srcRead_ne_hang hs _)
  · nofun
  · nofun
  · next h =>
    have ht := srcRead_ok_answers hs h
    split
    · nofun
    · dsimp only
      split
      · next h' => exact absurd h' (srcRead_ne_hang (latchHeader_answers ht) _)
      · nofun
      · nofun
      · nofun

theorem fetchChunk_run_answers (hs : s.SourceAnswers) (h : fetchChunk s = .run i u) : u.SourceAnswers := by
  unfold fetchChunk at h
  split at h
  iterate 3 cases h
  next h1 =>
  have ht := srcRead_ok_answers hs h1
  split at h
  · cases h
  · dsimp only at h
    split at h <;> cases h
    next h2 => exact srcRead_ok_answers (latchHeader_answers ht) h2

theorem fetchMode_run_level {d : Depth} (h : fetchMode d s = .run i u) : i.level = .block d := by
  unfold fetchMode at h
  split at h
  · cases h
  · split at h <;> cases h
    exact decodeMode_level ‹_›

end

/-! ## A FRAME pass ends -/

theorem BlockPos.index_lt {p : BlockPos} {width height : Nat} (hy : p.my < height / 16) (hx : p.mx < width / 16) :
    p.index width < height / 16 * (width / 16) * 4 := by
  have hrow : (p.my + 1) * (width / 16) ≤ height / 16 * (width / 16) := Nat.mul_le_mul_right _ hy
  rw [Nat.succ_mul] at hrow
  have hb := p.b.isLt
  unfold BlockPos.index
  omega

/-- A bound of the steps a pass over a frame of this size has left: five for a block, its own and those of its sub-blocks. -/
def stepsLeft (width height : Nat) : Ctl → Nat
  | .block p => 5 * (height / 16 * (width / 16) * 4 - p.index width)
  | .sub p q => 5 * (height / 16 * (width / 16) * 4 - p.index width) - (q.val + 1)
  | _        => 0

section
variable {p : BlockPos} {width height : Nat}

theorem stepsLeft_next (hy : p.my < height / 16) (hx : p.mx < width / 16) :
    stepsLeft width height (.block (p.next width)) + 5 = stepsLeft width height (.block p) := by
  have hlt := BlockPos.index_lt hy hx
  simp only [stepsLeft, BlockPos.index_next hx]
  omega

theorem stepsLeft_sub (hy : p.my < height / 16) (hx : p.mx < width / 16) (q : Fin 4) :
    stepsLeft width height (.sub p q) + (q.val + 1) = stepsLeft width height (.block p) := by
  have hlt := BlockPos.index_lt hy hx
  simp only [stepsLeft]
  omega

end

/-- Inside a FRAME pass, between two of its blocks or sub-blocks. -/
def State.InPass (s : State) : Prop := (∃ p, s.ctl = .block p) ∨ ∃ p q, s.ctl = .sub p q

/-- A bound of the steps the pass has left. -/
def State.passLeft (s : State) : Nat := stepsLeft s.width.toNat s.height.toNat s.ctl

section
variable {s t u : State} {i : Instr} {p : BlockPos} {q : Fin 4}

theorem State.InPass.not_atRest (h : s.InPass) : ¬ s.AtRest := by
  obtain ⟨p, hc⟩ | ⟨p, q, hc⟩ := h <;> simp [State.AtRest, hc]

theorem exec_block8_moves (hi : i.level = .block .d8) (hc : s.ctl = .block p) (hy : p.my < s.height.toNat / 16)
    (hx : p.mx < s.width.toNat / 16) :
    ∃ t, exec i s = .next t ∧ (t.ctl = .block (p.next s.width.toNat) ∨ t.ctl = .sub p 0) := by
  have hX := BlockPos.x_inside hx
  have hY := BlockPos.y_inside hy
  cases i with
  | mot8 => exact ⟨_, exec_mot8_inside hc hX hY, .inl rfl⟩
  | fcc8 b => exact ⟨_, exec_fcc8_inside b hc hX hY, .inl rfl⟩
  | sdl8 c => exact ⟨_, exec_sdl8_inside c hc hX hY, .inl rfl⟩
  | ccc8 => exact ⟨_, exec_ccc8_inside hc hX hY, .inr rfl⟩
  | _ => cases hi

theorem exec_block4_moves (hi : i.level = .block .d4) (hc : s.ctl = .sub p q) (hy : p.my < s.height.toNat / 16)
    (hx : p.mx < s.width.toNat / 16) : ∃ t, exec i s = .next t ∧ t.ctl = afterSub s p q := by
  have hX := (p.subX_inside q).trans (BlockPos.x_inside hx)
  have hY := (p.subY_inside q).trans (BlockPos.y_inside hy)
  cases i with
  | mot4 => exact ⟨_, exec_mot4_inside hc hX hY, rfl⟩
  | fcc4 b => exact ⟨_, exec_fcc4_inside b hc hX hY, rfl⟩
  | sdl4 c => exact ⟨_, exec_sdl4_inside c hc hX hY, rfl⟩
  | ccc4 i0 i1 i2 i3 => exact ⟨_, exec_ccc4_inside i0 i1 i2 i3 hc hX hY, rfl⟩
  | _ => cases hi

/-- The pass goes on, nearer to its end. -/
def PassGoesOn (s t : State) : Prop := t.results = s.results ∧ t.InPass ∧ t.passLeft < s.passLeft

/-- A block mode leaves the frame's size, so the pass is nearer its end where its control point is. -/
theorem exec_block_goesOn {d : Depth} (hi : i.level = .block d) (h : exec i s = .next t) (hp : t.InPass)
    (hlt : stepsLeft s.width.toNat s.height.toNat t.ctl < s.passLeft) : PassGoesOn s t := by
  have hw := exec_block_writes hi h
  refine ⟨hw.field State.results, hp, ?_⟩
  rwa [State.passLeft, hw.field State.width, hw.field State.height]

theorem exec_block8_goesOn (hi : i.level = .block .d8) (hc : s.ctl = .block p) (hy : p.my < s.height.toNat / 16)
    (hx : p.mx < s.width.toNat / 16) : ∃ t, exec i s = .next t ∧ PassGoesOn s t := by
  obtain ⟨t, ht, hmove⟩ := exec_block8_moves hi hc hy hx
  have hnext := stepsLeft_next hy hx
  have hsub := stepsLeft_sub hy hx 0
  refine ⟨t, ht, ?_⟩
  obtain hm | hm := hmove
  · exact exec_block_goesOn hi ht (.inl ⟨_, hm⟩) (by rw [hm, State.passLeft, hc]; omega)
  · exact exec_block_goesOn hi ht (.inr ⟨_, _, hm⟩) (by rw [hm, State.passLeft, hc]; omega)

theorem exec_block4_goesOn (hi : i.level = .block .d4) (hc : s.ctl = .sub p q) (hy : p.my < s.height.toNat / 16)
    (hx : p.mx < s.width.toNat / 16) : ∃ t, exec i s = .next t ∧ PassGoesOn s t := by
  obtain ⟨t, ht, hmove⟩ := exec_block4_moves hi hc hy hx
  have hnext := stepsLeft_next hy hx
  have hsub := stepsLeft_sub hy hx
  have hq := hsub q
  refine ⟨t, ht, ?_⟩
  rw [afterSub_eq] at hmove
  split at hmove
  · exact exec_block_goesOn hi ht (.inl ⟨_, hmove⟩) (by rw [hmove, State.passLeft, hc]; omega)
  · have hq' := hsub (q + 1)
    have hval : (q + 1).val = q.val + 1 := by omega
    exact exec_block_goesOn hi ht (.inr ⟨_, _, hmove⟩) (by rw [hmove, State.passLeft, hc]; omega)

/-- A step that fetches a block mode ends the command in a fault, or goes on as the mode does. -/
theorem step_mode {d : Depth} (hp : s.InPass) (hf : fetch s = fetchMode d s)
    (hx : ∀ i u, i.level = .block d → Writes fetchWrites s u → ∃ t, exec i u = .next t ∧ PassGoesOn u t) :
    s.EndsWith (step s) ∨ ∃ t, step s = .next t ∧ PassGoesOn s t := by
  cases hm : fetch s with
  | settled t => exact .inl (fetch_settled_ends hp.not_atRest hm)
  | stuck f => exact absurd (hf.symm.trans hm) (fetchMode_ne_stuck d f)
  | run i u =>
    have hu := fetch_frame s
    rw [hm] at hu
    obtain ⟨t, ht, hr, hp', hlt⟩ := hx i u (fetchMode_run_level (hf.symm.trans hm)) hu
    have hleft : u.passLeft = s.passLeft := Writes.field State.passLeft hu
    exact .inr ⟨t, (step_run hm).trans ht, hr.trans (Writes.field State.results hu), hp', hleft ▸ hlt⟩

theorem step_block (h : s.Inv) (hc : s.ctl = .block p) :
    s.EndsWith (step s) ∨ ∃ t, step s = .next t ∧ PassGoesOn s t := by
  by_cases hy : p.my < s.height.toNat / 16
  · obtain ⟨-, -, ⟨-, hx⟩ | ⟨hend, -⟩⟩ := h.at_block hc
    · refine step_mode (.inl ⟨p, hc⟩) (fetch_pass (.inl ⟨rfl, p, hc, hy⟩)) fun i u hi hu => ?_
      rw [← hu.field State.height] at hy
      rw [← hu.field State.width] at hx
      exact exec_block8_goesOn hi ((hu.field State.ctl).trans hc) hy hx
    · omega
  · exact .inl (.result (u := s) (step_endPass hc hy) rfl)

theorem step_sub (h : s.Inv) (hc : s.ctl = .sub p q) :
    s.EndsWith (step s) ∨ ∃ t, step s = .next t ∧ PassGoesOn s t := by
  obtain ⟨-, -, hy, hx⟩ := h.at_sub hc
  refine step_mode (.inr ⟨p, q, hc⟩) (fetch_pass (.inr ⟨rfl, p, q, hc⟩)) fun i u hi hu => ?_
  rw [← hu.field State.height] at hy
  rw [← hu.field State.width] at hx
  exact exec_block4_goesOn hi ((hu.field State.ctl).trans hc) hy hx

/-- A pass ends, whatever the source does: no step of it reads from the source. -/
theorem pass_ends (h : s.Inv) (hp : s.InPass) : s.CommandEnds := by
  refine .of_measure (P := fun s => s.Inv ∧ s.InPass) State.passLeft (fun s ⟨hi, hp⟩ => ?_) ⟨h, hp⟩
  have hstep : s.EndsWith (step s) ∨ ∃ t, step s = .next t ∧ PassGoesOn s t := by
    obtain ⟨p, hc⟩ | ⟨p, q, hc⟩ := hp
    · exact step_block hi hc
    · exact step_sub hi hc
  obtain hends | ⟨t, ht, hr, hp', hlt⟩ := hstep
  · exact .inl (.of_step hends)
  · exact .inr ⟨t, ht, hr, ⟨everyStepKeepsTheInvariant s t hi ht, hp'⟩, hlt⟩

/-! ## A chunk ends the command, begins a pass, or goes on -/

theorem Res.settle_eq_next {α : Type} (r : Res α) (k : α → State → State) : ∃ t, r.settle k = .next t := by
  cases r with
  | ok a s => exact ⟨_, rfl⟩
  | raised c s => exact ⟨_, rfl⟩

theorem execInfo_ends (arg : Half) (payload : List Byte) (s : State) : s.EndsWith (execInfo arg payload s) := by
  unfold execInfo
  split
  · exact .inr (.inl rfl)
  split
  · next c u hr => exact .result (u := u) rfl (by rw [(payRead_raised hr).1]; rfl)
  · next b u hr =>
    dsimp only
    split
    · exact .result (u := u) rfl (by rw [(payRead_ok hr).1]; rfl)
    · exact .inr (.inr rfl)

/-- `NEXT` goes on with the next chunk: nothing of the source is read. -/
def FetchesOn (s t : State) : Prop := t.ctl = .fetch ∧ t.src = s.src ∧ t.spos = s.spos ∧ t.srcAns = s.srcAns

theorem exec_chunk_ends (hi : i.level = .chunk) (s : State) :
    s.EndsWith (exec i s) ∨ ∃ t, exec i s = .next t ∧ t.results = s.results ∧ (FetchesOn s t ∨ t.InPass) := by
  cases i with
  | info arg payload => exact .inl (execInfo_ends arg payload s)
  | codebook arg payload =>
    obtain ⟨t, ht⟩ : ∃ t, execCodebook arg payload s = .next t := Res.settle_eq_next _ _
    obtain ⟨u, hu, rfl | ⟨c, rfl⟩⟩ := execCodebook_next ht
    · exact .inr ⟨_, ht, hu.field State.results, .inl ⟨rfl, hu.field State.src, hu.field State.spos, hu.field State.srcAns⟩⟩
    · exact .inl (.result ht (hu.field State.results))
  | frame arg payload =>
    cases hd : s.dimValid with
    | true =>
      exact .inr ⟨_, exec_frame_known arg payload hd,
        (frameOneCopy_quiet (loadChunk 0x1011#16 arg payload s)).2, .inr (.inl ⟨⟨0, 0, 0⟩, rfl⟩)⟩
    | false => exact .inl (.result (u := s) (exec_frame_unknown arg payload hd) rfl)
  | sndMono arg payload =>
    obtain ⟨t, ht⟩ : ∃ t, execSndMono arg payload s = .next t := Res.settle_eq_next _ _
    obtain ⟨n, l, r, u, hu, rfl | ⟨c, rfl⟩⟩ := execSndMono_next ht <;>
      exact .inl (.result ht (hu.field State.results))
  | sndStereo arg payload =>
    obtain ⟨t, ht⟩ : ∃ t, execSndStereo arg payload s = .next t := Res.settle_eq_next _ _
    obtain ⟨n, l, r, u, hu, rfl | ⟨c, rfl⟩⟩ := execSndStereo_next ht <;>
      exact .inl (.result ht (hu.field State.results))
  | custom id arg payload => exact .inl (.result (u := s) rfl rfl)
  | _ => cases hi

/-! ## OPEN and NEXT end -/

theorem fetchHeader_run_sig (h : fetchHeader s = .run i u) : ∃ signature pad framerate, i = .sig signature pad framerate := by
  unfold fetchHeader at h
  split at h
  iterate 3 cases h
  split at h <;> cases h
  exact decodeStreamHeader_sig ‹_›

theorem exec_sig_ends (signature : Half) (pad : List Byte) (framerate : Half) (s : State) :
    s.EndsWith (exec (.sig signature pad framerate) s) := by
  by_cases h : signature = s.params.streamMagic
  · subst h
    exact .result (u := s) (streamHeaderStartsPlaying s pad framerate) rfl
  · exact .result (u := s) (wrongMagicIsAParseError s signature framerate pad h) rfl

theorem open_ends (hs : s.SourceAnswers) (hc : s.ctl = .header) : s.CommandEnds := by
  refine .of_step ?_
  cases hf : fetch s with
  | settled t => exact fetch_settled_ends (by simp [State.AtRest, hc]) hf
  | stuck f => exact absurd ((fetch_header hc).symm.trans hf) (fetchHeader_ne_stuck hs f)
  | run i u =>
    have hu := fetch_frame s
    rw [hf] at hu
    obtain ⟨signature, pad, framerate, rfl⟩ := fetchHeader_run_sig ((fetch_header hc).symm.trans hf)
    rw [step_run hf]
    exact (exec_sig_ends signature pad framerate u).of_results (Writes.field State.results hu)

/-- A round of `NEXT` ends the command, a FRAME chunk's by way of its pass, or has passed a chunk of the source. -/
theorem step_fetch (h : s.Inv) (hs : s.SourceAnswers) (hc : s.ctl = .fetch) :
    s.CommandEnds ∨ ∃ t, step s = .next t ∧ t.results = s.results ∧ (t.Inv ∧ t.SourceAnswers ∧ t.ctl = .fetch) ∧
      t.src.length - t.spos < s.src.length - s.spos := by
  cases hf : fetchChunk s with
  | settled t => exact .inl (.of_step (fetch_settled_ends (by simp [State.AtRest, hc]) (fetch_settled hc hf)))
  | stuck f => exact absurd hf (fetchChunk_ne_stuck hs f)
  | run i u =>
    have hstep : step s = exec i (startChunk u) := step_run (fetch_chunk hc hf)
    have hans := fetchChunk_run_answers hs hf
    obtain ⟨hd, payload, a, rfl, -, hu, hpos⟩ := fetchChunk_run hf
    have hin := hpos (h.position (h.at_fetch hc))
    have hres : (startChunk u).results = s.results := by rw [hu]; rfl
    have hsrc : (startChunk u).src = s.src := by rw [hu]; rfl
    have hspos : u.spos = s.spos + 8 + hd.size.toNat := by rw [hu]
    obtain hends | ⟨t, ht, hr, hnext⟩ := exec_chunk_ends (chunkOf_level ..) (startChunk u)
    · exact .inl (.of_step (hstep ▸ hends.of_results hres))
    have ht' : step s = .next t := hstep.trans ht
    have hinv := everyStepKeepsTheInvariant s t h ht'
    obtain ⟨hc', hsrc', hspos', hans'⟩ | hp := hnext
    · have hta : t.SourceAnswers := by rw [State.SourceAnswers, hans']; exact hans
      refine .inr ⟨t, ht', hr.trans hres, ⟨hinv, hta, hc'⟩, ?_⟩
      rw [hsrc', hsrc, hspos', startChunk_spos]
      omega
    · exact .inl (.after_step ht' (hr.trans hres) (pass_ends hinv hp))

theorem next_ends (h : s.Inv) (hs : s.SourceAnswers) (hc : s.ctl = .fetch) : s.CommandEnds :=
  .of_measure (P := fun s => s.Inv ∧ s.SourceAnswers ∧ s.ctl = .fetch) (fun s => s.src.length - s.spos)
    (fun _ ⟨hi, hs, hc⟩ => step_fetch hi hs hc) ⟨h, hs, hc⟩

end

/-- Settles O60, by where the command stands: at the stream header (`open_ends`), at the top of `NEXT`'s loop (`next_ends`), inside
a pass (`pass_ends`). -/
theorem everyCommandEnds : Obligations.EveryCommandEnds := by
  intro s h hs hrest
  show s.CommandEnds
  cases hc : s.ctl with
  | idle => exact absurd (.inl hc) hrest
  | dropped => exact absurd (.inr hc) hrest
  | header => exact open_ends hs hc
  | fetch => exact next_ends h hs hc
  | block p => exact pass_ends h (.inl ⟨p, hc⟩)
  | sub p q => exact pass_ends h (.inr ⟨p, q, hc⟩)

end Sys2Proof.Machine
end

section
/-! PROOFS. What taking a fault writes (R194, R195, R198). -/

namespace Sys2Proof.Machine

/-- Settles O52: the one update of `takeFault` writes these fields, and cause by cause `Cause.code` and `Cause.info` are the row of R195. -/
theorem faultEntry : Obligations.FaultEntry := by
  intro c s
  constructor
  case left => rfl
  case right => cases c <;> rfl

end Sys2Proof.Machine
end
